-- ==== Sys2Proof/Word.lean ====
section
/-! DEFINITION. The two word types of the block (spec/00_scope.md R13: a byte is 8 bits, a word is 32 bits; R14: all
values are unsigned). -/

namespace Sys2Proof

/-- A byte (R13). -/
abbrev Byte := BitVec 8

/-- A 32-bit word (R13). -/
abbrev Word := BitVec 32

end Sys2Proof
end

