-- ==== Sys2Proof/Config.lean ====
section
/-! DEFINITION. The parameters the block is elaborated with (spec/00_scope.md R8, R9), and the free values the spec
calls "any value" (spec/70_reset_and_hazards.md R220; spec/93_implementation_defined.md part B). A free value is a
constant with no body: nothing can be proved of it, so a claim holds for every draw.

`F_TICK`, `IRQ_PRIO` and `BUS_BINDING` are OPEN and no rule depends on them (R8): the model has no constant for them. -/

namespace Sys2Proof

/-- A frame channel (R8: `N_CH` is 2; R81: 0 = HOST, 1 = MODEM). -/
inductive Ch where
  | host
  | modem
  deriving DecidableEq, Repr

/-- Which ring buffer of a channel (R81, R82: 0 = RX, 1 = TX). -/
inductive Buf where
  | rx
  | tx
  deriving DecidableEq, Repr

/-- A ring buffer, `b = (ch, buf)` (spec/10_state.md R27). -/
structure BufId where
  ch  : Ch
  buf : Buf
  deriving DecidableEq, Repr

namespace Config

/-- `STORE_SIZE[ch]`, the bytes of each storage array of the channel (R8, R31). -/
def storeSize : Ch → Nat
  | .host  => 2048
  | .modem => 4096

/-- The ASCII code of CR (spec/93_implementation_defined.md G1). -/
def cr : Byte := 0x0D

/-- The ASCII code of LF (G1). -/
def lf : Byte := 0x0A

/-- `TERM[ch]`, the channel's terminator byte (R8, R34). -/
def term : Ch → Byte
  | .host  => cr
  | .modem => lf

/-- `FILTER_CR[ch]`: whether the channel discards single-CR frames (R8, R34). -/
def filterCr : Ch → Bool
  | .host  => false
  | .modem => true

/-- The timer slots beyond the first: an OPEN parameter, 0 to 255 (R8, 92 D11). -/
opaque spareTimers : Fin 256

/-- `N_TIMERS`, the size of the timer table: OPEN, an integer 1..256 (R8, 92 D11). -/
def nTimers : Nat := spareTimers.val + 1

/-- The draw of `S.tick` at reset (spec/10_state.md R43). -/
opaque tickAtReset : Word

/-- The draw of a storage byte that no push has written (spec/10_state.md R32). -/
opaque freeStoreByte : BufId → Nat → Byte

/-- The draw of a `FRAME_BUF` byte that the current frame output does not define (spec/10_state.md R37): the channel, how many
of its CH_GETFRAMEs have finished, the index. -/
opaque freeFrameByte : Ch → Nat → Nat → Byte

/-- The draw of a free slot's `period` (spec/10_state.md R41). -/
opaque freePeriod : Nat → Word

/-- The draw of a free slot's `acc` (R41). -/
opaque freeAcc : Nat → Word

/-- The draw of a free slot's `active` (R41). -/
opaque freeActive : Nat → Bool

/-- The draw of a free slot's `cb_en` (R41). -/
opaque freeCbEn : Nat → Bool

end Config

end Sys2Proof
end

