-- ==== Sys2Proof/Syntax.lean ====
section
/-! DEFINITION. The instructions: one constructor for each of the 21 rows of spec/opcode_table.json (spec/30_encoding.md
R84, R85), with the operands of R82 and R83. The first 18 are commands of the command port, the last three are the
port events. -/

namespace Sys2Proof

/-- A command or a port event with its operands. A timer id is a slot index (R82: `zext_32(CMD[31:24])`). -/
inductive Instr where
  /-- RB_INIT buf, #cap (R100). -/
  | rbInit (b : BufId) (cap : Word)
  /-- RB_PUSH buf, #v (R101). -/
  | rbPush (b : BufId) (v : Byte)
  /-- RB_POP buf (R102). -/
  | rbPop (b : BufId)
  /-- RB_ISEMPTY buf (R104). -/
  | rbIsEmpty (b : BufId)
  /-- TMR_REGISTER #period, #cb (R120). -/
  | tmrRegister (period : Word) (cb : Bool)
  /-- TMR_START #id (R122). -/
  | tmrStart (id : Nat)
  /-- TMR_PAUSE #id (R123). -/
  | tmrPause (id : Nat)
  /-- TMR_RESUME #id (R124). -/
  | tmrResume (id : Nat)
  /-- TMR_ADVANCE #elapsed (R125). -/
  | tmrAdvance (elapsed : Word)
  /-- TMR_ELAPSED #start, #threshold (R132). -/
  | tmrElapsed (start threshold : Word)
  /-- TICK_READ (R134). -/
  | tickRead
  /-- TICK_DELTA #cur, #prev (R131). -/
  | tickDelta (cur prev : Word)
  /-- CB_DONE (R129). -/
  | cbDone
  /-- CH_INIT ch, #cap (R151). -/
  | chInit (ch : Ch) (cap : Word)
  /-- CH_SEND ch, #v (R155). -/
  | chSend (ch : Ch) (v : Byte)
  /-- CH_RECV ch (R157). -/
  | chRecv (ch : Ch)
  /-- CH_GETFRAME ch (R158). -/
  | chGetFrame (ch : Ch)
  /-- CH_PENDING ch (R161). -/
  | chPending (ch : Ch)
  /-- @RX ch, #v (R153). -/
  | rxByte (ch : Ch) (v : Byte)
  /-- @TXREADY ch (R154). -/
  | txReady (ch : Ch)
  /-- @TICK (R133). -/
  | tick
  deriving DecidableEq, Repr

/-- A command packet: the command word and the two operand words (R80). -/
structure Packet where
  cmd : Word
  a   : Word
  b   : Word
  deriving DecidableEq, Repr

end Sys2Proof
end

