-- ==== Sys2Proof/WellFormed.lean ====
section
/-! DEFINITION. Which instructions have an encoding. Every operand but the timer id is a value of its own field's type;
a timer id is "a timer slot index in 0..255" (spec/30_encoding.md R82), and that is checked here. -/

namespace Sys2Proof

/-- The timer id fits the 8-bit `TID` field (R81, R82). -/
def timerIdFits (id : Nat) : Bool := decide (id < 256)

/-- The instruction has an encoding. -/
def Instr.wellFormed : Instr → Bool
  | .tmrStart id | .tmrPause id | .tmrResume id => timerIdFits id
  | .rbInit _ _ | .rbPush _ _ | .rbPop _ | .rbIsEmpty _ | .tmrRegister _ _ | .tmrAdvance _ | .tmrElapsed _ _
  | .tickRead | .tickDelta _ _ | .cbDone | .chInit _ _ | .chSend _ _ | .chRecv _ | .chGetFrame _ | .chPending _
  | .rxByte _ _ | .txReady _ | .tick => true

end Sys2Proof
end

