-- ==== Sys2Proof/Decode.lean ====
section
/-! DEFINITION. The decoder of command packets and event words and the encoder, both written from the tables of
spec/30_encoding.md (R80 to R88) and spec/opcode_table.json. The decoder is total and rejects by name. -/

namespace Sys2Proof

/-- The rows of the opcode table (R84, R85). -/
inductive Opcode where
  | rbInit | rbPush | rbPop | rbIsEmpty
  | tmrRegister | tmrStart | tmrPause | tmrResume | tmrAdvance | tmrElapsed | tickRead | tickDelta | cbDone
  | chInit | chSend | chRecv | chGetFrame | chPending
  | rxByte | txReady | tick
  deriving DecidableEq, Repr

/-- Every row, in the table's order. -/
def Opcode.all : List Opcode :=
  [.rbInit, .rbPush, .rbPop, .rbIsEmpty, .tmrRegister, .tmrStart, .tmrPause, .tmrResume, .tmrAdvance, .tmrElapsed,
   .tickRead, .tickDelta, .cbDone, .chInit, .chSend, .chRecv, .chGetFrame, .chPending, .rxByte, .txReady, .tick]

/-- The `OP` value of a row (R84, R85). -/
def Opcode.code : Opcode → Byte
  | .rbInit      => 0x01
  | .rbPush      => 0x02
  | .rbPop       => 0x03
  | .rbIsEmpty   => 0x04
  | .tmrRegister => 0x10
  | .tmrStart    => 0x11
  | .tmrPause    => 0x12
  | .tmrResume   => 0x13
  | .tmrAdvance  => 0x14
  | .tmrElapsed  => 0x15
  | .tickRead    => 0x16
  | .tickDelta   => 0x17
  | .cbDone      => 0x18
  | .chInit      => 0x20
  | .chSend      => 0x21
  | .chRecv      => 0x22
  | .chGetFrame  => 0x23
  | .chPending   => 0x24
  | .rxByte      => 0xE0
  | .txReady     => 0xE1
  | .tick        => 0xE2

/-- The mask of a row: `OP`, the reserved bits 15:10 and every field the row does not use (R86). -/
def Opcode.mask : Opcode → Word
  | .rbInit | .rbPop | .rbIsEmpty => 0xFFFFFCFF
  | .rbPush => 0xFF00FCFF
  | .tmrRegister => 0xFFFEFFFF
  | .tmrStart | .tmrPause | .tmrResume => 0x00FFFFFF
  | .tmrAdvance | .tmrElapsed | .tickRead | .tickDelta | .cbDone | .tick => 0xFFFFFFFF
  | .chInit | .chRecv | .chGetFrame | .chPending | .txReady => 0xFFFFFEFF
  | .chSend | .rxByte => 0xFF00FEFF

/-- The match word of a row: its `OP` value with every other masked bit 0 (R86). -/
def Opcode.pattern (o : Opcode) : Word := o.code.setWidth 32

/-- The row is a port event, never legal on the command port (R85, R87). -/
def Opcode.isEvent : Opcode → Bool
  | .rxByte | .txReady | .tick => true
  | .rbInit | .rbPush | .rbPop | .rbIsEmpty | .tmrRegister | .tmrStart | .tmrPause | .tmrResume | .tmrAdvance
  | .tmrElapsed | .tickRead | .tickDelta | .cbDone | .chInit | .chSend | .chRecv | .chGetFrame | .chPending => false

/-- The row with a given `OP` value, if one has it. -/
def Opcode.ofCode? (op : Byte) : Option Opcode := Opcode.all.find? (fun o => decide (o.code = op))

/-! The fields of CMD and EV (R81). -/

/-- `OP`, bits 7:0. -/
def opField (w : Word) : Byte := w.extractLsb' 0 8

/-- `CH`, bit 8: 0 = HOST, 1 = MODEM. -/
def chField (w : Word) : Ch := if w.getLsbD 8 then .modem else .host

/-- `BUF`, bit 9: 0 = RX, 1 = TX. -/
def bufField (w : Word) : Buf := if w.getLsbD 9 then .tx else .rx

/-- The ring buffer operand, `b = (CMD[8], CMD[9])`. -/
def bufIdField (w : Word) : BufId := ⟨chField w, bufField w⟩

/-- `DATA`, bits 23:16. -/
def dataField (w : Word) : Byte := w.extractLsb' 16 8

/-- `CB`, bit 16 (TMR_REGISTER). -/
def cbField (w : Word) : Bool := w.getLsbD 16

/-- `TID`, bits 31:24, zero-extended (R82). -/
def tidField (w : Word) : Nat := (w.extractLsb' 24 8).toNat

/-- Why a word is rejected (R87). -/
inductive DecodeError where
  /-- no row has this `OP` value -/
  | unassignedOpcode (op : Byte)
  /-- a port-event `OP` on the command port -/
  | eventOnCommandPort (op : Byte)
  /-- a command `OP` on a transport or tick port -/
  | commandOnEventPort (op : Byte)
  /-- a 1 in bits 15:10 -/
  | reservedBits
  /-- a 1 in a field the row does not use -/
  | unusedField
  deriving DecidableEq, Repr

/-- The reserved bits 15:10 (R81). -/
def reservedMask : Word := 0x0000FC00

/-- The instruction a packet stands for, once its row is known (R82, R83). -/
def Opcode.instr (o : Opcode) (p : Packet) : Instr :=
  match o with
  | .rbInit      => .rbInit (bufIdField p.cmd) p.a
  | .rbPush      => .rbPush (bufIdField p.cmd) (dataField p.cmd)
  | .rbPop       => .rbPop (bufIdField p.cmd)
  | .rbIsEmpty   => .rbIsEmpty (bufIdField p.cmd)
  | .tmrRegister => .tmrRegister p.a (cbField p.cmd)
  | .tmrStart    => .tmrStart (tidField p.cmd)
  | .tmrPause    => .tmrPause (tidField p.cmd)
  | .tmrResume   => .tmrResume (tidField p.cmd)
  | .tmrAdvance  => .tmrAdvance p.a
  | .tmrElapsed  => .tmrElapsed p.a p.b
  | .tickRead    => .tickRead
  | .tickDelta   => .tickDelta p.a p.b
  | .cbDone      => .cbDone
  | .chInit      => .chInit (chField p.cmd) p.a
  | .chSend      => .chSend (chField p.cmd) (dataField p.cmd)
  | .chRecv      => .chRecv (chField p.cmd)
  | .chGetFrame  => .chGetFrame (chField p.cmd)
  | .chPending   => .chPending (chField p.cmd)
  | .rxByte      => .rxByte (chField p.cmd) (dataField p.cmd)
  | .txReady     => .txReady (chField p.cmd)
  | .tick        => .tick

/-- A packet read as a given row: legal exactly when `(w AND mask) = match` (R86). -/
def Opcode.read (o : Opcode) (p : Packet) : Except DecodeError Instr :=
  if p.cmd &&& o.mask = o.pattern then .ok (o.instr p)
  else if p.cmd &&& reservedMask = 0 then .error .unusedField
  else .error .reservedBits

/-- The decoder of the command port (R84, R86, R87). -/
def decodeCommand (p : Packet) : Except DecodeError Instr :=
  match Opcode.ofCode? (opField p.cmd) with
  | none => .error (.unassignedOpcode (opField p.cmd))
  | some o => if o.isEvent then .error (.eventOnCommandPort (opField p.cmd)) else o.read p

/-- The decoder of the transport and tick ports (R85, R86, R87). -/
def decodeEvent (w : Word) : Except DecodeError Instr :=
  match Opcode.ofCode? (opField w) with
  | none => .error (.unassignedOpcode (opField w))
  | some o => if o.isEvent then o.read ⟨w, 0, 0⟩ else .error (.commandOnEventPort (opField w))

/-- The packet whose bits are `w`: CMD is bits 31:0, A is bits 63:32, B is bits 95:64 (R80). -/
def packetOfBits (w : Nat) : Packet :=
  ⟨BitVec.ofNat 32 w, BitVec.ofNat 32 (w / 2 ^ 32), BitVec.ofNat 32 (w / 2 ^ 64)⟩

/-- The instruction of a row of the opcode table whose `nbits` bits are `w`, every bit above them 0: a command packet, or
an event word, whichever port it is legal on (no word is legal on both, R88). -/
def decodeTableWord (nbits w : Nat) : Option Instr :=
  match decodeCommand (packetOfBits (w % 2 ^ nbits)) with
  | .ok i => some i
  | .error _ =>
    match decodeEvent (packetOfBits (w % 2 ^ nbits)).cmd with
    | .ok i => some i
    | .error _ => none

/-! The encoder. -/

/-- The row of an instruction. -/
def Instr.opcode : Instr → Opcode
  | .rbInit _ _      => .rbInit
  | .rbPush _ _      => .rbPush
  | .rbPop _         => .rbPop
  | .rbIsEmpty _     => .rbIsEmpty
  | .tmrRegister _ _ => .tmrRegister
  | .tmrStart _      => .tmrStart
  | .tmrPause _      => .tmrPause
  | .tmrResume _     => .tmrResume
  | .tmrAdvance _    => .tmrAdvance
  | .tmrElapsed _ _  => .tmrElapsed
  | .tickRead        => .tickRead
  | .tickDelta _ _   => .tickDelta
  | .cbDone          => .cbDone
  | .chInit _ _      => .chInit
  | .chSend _ _      => .chSend
  | .chRecv _        => .chRecv
  | .chGetFrame _    => .chGetFrame
  | .chPending _     => .chPending
  | .rxByte _ _      => .rxByte
  | .txReady _       => .txReady
  | .tick            => .tick

/-- The `CH` bit of a channel. -/
def Ch.bit : Ch → BitVec 1
  | .host  => 0
  | .modem => 1

/-- The `BUF` bit of a buffer select. -/
def Buf.bit : Buf → BitVec 1
  | .rx => 0
  | .tx => 1

/-- The command or event word `TID ++ DATA ++ 000000 ++ BUF ++ CH ++ OP` (R81). -/
def packWord (o : Opcode) (ch buf : BitVec 1) (data tid : Byte) : Word :=
  tid ++ data ++ (0 : BitVec 6) ++ buf ++ ch ++ o.code

/-- A word with no operand field. -/
def bareWord (o : Opcode) : Word := packWord o 0 0 0 0

/-- The packet of a well-formed instruction (for an event, its word with A and B zero); words an instruction does not use are 0. -/
def encode (i : Instr) : Packet :=
  match i with
  | .rbInit b cap       => ⟨packWord i.opcode b.ch.bit b.buf.bit 0 0, cap, 0⟩
  | .rbPush b v         => ⟨packWord i.opcode b.ch.bit b.buf.bit v 0, 0, 0⟩
  | .rbPop b            => ⟨packWord i.opcode b.ch.bit b.buf.bit 0 0, 0, 0⟩
  | .rbIsEmpty b        => ⟨packWord i.opcode b.ch.bit b.buf.bit 0 0, 0, 0⟩
  | .tmrRegister per cb => ⟨packWord i.opcode 0 0 (if cb then 1 else 0) 0, per, 0⟩
  | .tmrStart id        => ⟨packWord i.opcode 0 0 0 (BitVec.ofNat 8 id), 0, 0⟩
  | .tmrPause id        => ⟨packWord i.opcode 0 0 0 (BitVec.ofNat 8 id), 0, 0⟩
  | .tmrResume id       => ⟨packWord i.opcode 0 0 0 (BitVec.ofNat 8 id), 0, 0⟩
  | .tmrAdvance e       => ⟨bareWord i.opcode, e, 0⟩
  | .tmrElapsed st thr  => ⟨bareWord i.opcode, st, thr⟩
  | .tickRead           => ⟨bareWord i.opcode, 0, 0⟩
  | .tickDelta cur prev => ⟨bareWord i.opcode, cur, prev⟩
  | .cbDone             => ⟨bareWord i.opcode, 0, 0⟩
  | .chInit ch cap      => ⟨packWord i.opcode ch.bit 0 0 0, cap, 0⟩
  | .chSend ch v        => ⟨packWord i.opcode ch.bit 0 v 0, 0, 0⟩
  | .chRecv ch          => ⟨packWord i.opcode ch.bit 0 0 0, 0, 0⟩
  | .chGetFrame ch      => ⟨packWord i.opcode ch.bit 0 0 0, 0, 0⟩
  | .chPending ch       => ⟨packWord i.opcode ch.bit 0 0 0, 0, 0⟩
  | .rxByte ch v        => ⟨packWord i.opcode ch.bit 0 v 0, 0, 0⟩
  | .txReady ch         => ⟨packWord i.opcode ch.bit 0 0 0, 0, 0⟩
  | .tick               => ⟨bareWord i.opcode, 0, 0⟩

/-- The decoder of the port the instruction belongs on. -/
def decodeFor (i : Instr) (p : Packet) : Except DecodeError Instr :=
  if i.opcode.isEvent then decodeEvent p.cmd else decodeCommand p

end Sys2Proof
end

