-- ==== Sys2Proof/Machine/State.lean ====
section
/-! DEFINITION. The block's whole state, spec/10_state.md, as plain data, and its reset (spec/70_reset_and_hazards.md
R220). Two fields are the model's own: `moves` and, in each channel, `draws`. -/

namespace Sys2Proof.Machine

/-- Bytes by index, strictly rising; an index that is not listed has not been written (log 4, log 5). -/
abbrev Memory := List Host.Cell

/-- A status code (spec/60_exceptions.md R190). -/
inductive Status where
  | ok
  | full
  | empty
  | noFrameAvailable
  | frameError
  | capacityExceeded
  | invalidConfiguration
  | illegalCommand
  | invalidId
  | busy
  | notInitialized
  deriving DecidableEq, Repr

/-- An event of the observable output (spec/10_state.md R44). -/
inductive TraceEvent where
  /-- `RESP(op, status, result)`: a command completed -/
  | resp (op : Byte) (status : Status) (result : Word)
  /-- `TX(ch, v)`: TXT[ch] took byte v for the wire -/
  | tx (ch : Ch) (v : Byte)
  /-- `TXIDLE(ch)`: TXT[ch] was told "no more data" -/
  | txIdle (ch : Ch)
  /-- `TRIG(i)`: timer i's callback is invoked -/
  | trig (i : Nat)
  /-- `RXDROP(ch, v)`: RX_BYTE dropped byte v -/
  | rxDrop (ch : Ch) (v : Byte)
  deriving DecidableEq, Repr

/-- The FG command phase `S.fg` (R23). -/
inductive FgPhase where
  | ready
  | recv (ch : Ch)
  | getFrame (ch : Ch)
  deriving DecidableEq, Repr

/-- A ring buffer: its descriptor (R27) and its storage array (spec/20_memory.md R60). -/
structure Ring where
  init  : Bool
  cap   : Nat
  head  : Nat
  tail  : Nat
  count : Nat
  store : Memory
  deriving DecidableEq, Repr

/-- The state of a frame channel (R34 to R38). `draws`, the model's own, counts the channel's finished CH_GETFRAMEs: the
bytes of `FRAME_BUF` that R37 leaves "any value" are drawn anew after each (log 5). -/
structure Channel where
  pending  : Word
  armed    : Bool
  frameBuf : Memory
  frameLen : Nat
  gfK      : Nat
  draws    : Nat
  deriving DecidableEq, Repr

/-- A slot of the timer table (R41). -/
structure Slot where
  period : Word
  acc    : Word
  active : Bool
  cbEn   : Bool
  deriving DecidableEq, Repr

/-- `S.seq.state` (R42). -/
inductive SeqPhase where
  | idle
  | run
  | waitCb
  deriving DecidableEq, Repr

/-- The advanceAll sequencer `S.seq` (R42). -/
structure Seq where
  phase : SeqPhase
  i     : Nat
  n     : Nat
  e     : Word
  fired : Nat
  cbId  : Nat
  deriving DecidableEq, Repr

/-- A port of an agent that delivers events (spec/30_encoding.md R85: "each delivered by its own agent on its own port"). -/
inductive Port where
  | rxt (ch : Ch)
  | txt (ch : Ch)
  | tick
  deriving DecidableEq, Repr

/-- An agent (spec/00_scope.md R10). -/
inductive Agent where
  | fg
  | rxt (ch : Ch)
  | txt (ch : Ch)
  | tick
  | seq
  deriving DecidableEq, Repr

/-- One move: which agent takes the next step and what it presents (log 1). -/
inductive Move where
  /-- FG presents a packet on the command port (R80) -/
  | command (p : Packet)
  /-- an event word is presented on a port (R85) -/
  | event (port : Port) (ev : Word)
  /-- FG takes the continuing step of the command it has outstanding: the completion of CH_RECV (R157) or an extraction
  step of CH_GETFRAME (R159) -/
  | fg
  /-- SEQ takes its step (R126, R130) -/
  | seq
  deriving DecidableEq, Repr

/-- The state `S` of the block (spec/10_state.md), and the moves to come. -/
structure State where
  status  : Byte
  result  : Word
  fg      : FgPhase
  hostRx  : Ring
  hostTx  : Ring
  modemRx : Ring
  modemTx : Ring
  host    : Channel
  modem   : Channel
  tcount  : Nat
  slots   : List Slot
  seq     : Seq
  tick    : Word
  trace   : List TraceEvent
  moves   : List Move
  deriving DecidableEq, Repr

/-- The ways the block stops with a fault: none. "No state is `stuck` and no behaviour is `fault`: the block raises no traps"
(spec/93_implementation_defined.md part C; spec/60_exceptions.md R191), so nothing raises one. -/
inductive Fault where
  deriving DecidableEq, Repr

/-- The ways a step is refused. -/
inductive Refusal where
  /-- An instruction that has no meaning in this model. Raised by no arm of `exec`: every instruction is modelled. Safe. -/
  | notModelled (mnemonic : String)
  /-- The moves to come name a step of an agent that has none enabled. Raised by `step` only, for what
  spec/60_exceptions.md R207 gives no move (a command while FG may not issue, a TX_READY while `armed = 0`) and for a step of an
  agent that holds (spec/00_scope.md R16). Safe: no run of the block has such a step (log 8). -/
  | notEnabled (agent : Agent)
  deriving DecidableEq, Repr

/-- A ring buffer at reset (R27, R32). -/
def Ring.reset : Ring := ⟨false, 0, 0, 0, 0, []⟩

/-- A channel at reset (R25, R35, R37, R38). -/
def Channel.reset : Channel := ⟨0, false, [], 0, 0, 0⟩

/-- `k` free slots from index `i` on, each field a draw (R41). -/
def freeSlots : Nat → Nat → List Slot
  | 0, _ => []
  | k + 1, i => ⟨Config.freePeriod i, Config.freeAcc i, Config.freeActive i, Config.freeCbEn i⟩ :: freeSlots k (i + 1)

/-- The state after reset (spec/70_reset_and_hazards.md R220), with no moves listed. -/
def State.reset : State where
  status  := 0
  result  := 0
  fg      := .ready
  hostRx  := Ring.reset
  hostTx  := Ring.reset
  modemRx := Ring.reset
  modemTx := Ring.reset
  host    := Channel.reset
  modem   := Channel.reset
  tcount  := 0
  slots   := freeSlots Config.nTimers 0
  seq     := ⟨.idle, 0, 0, 0, 0, 0⟩
  tick    := Config.tickAtReset
  trace   := []
  moves   := []

end Sys2Proof.Machine
end

