-- ==== Sys2Proof/Machine/Ops.lean ====
section
/-! DEFINITION. The shared operations: bytes of a memory, the four ring buffers and two channels as parts of State, the
primitives of spec/00_scope.md R16 (`respond`, `raise`, `emit`, `Store`), the ring-buffer subroutines `RbInit`,
`RbPush` and `RbPop` (spec/40_ringbuffer.md R100 to R102), and callback entry and return, the block's counterpart of
taking a trap and returning from it (spec/60_exceptions.md R198, R199). -/

namespace Sys2Proof.Machine

/-! Memories. -/

/-- The byte at an index, or none where nothing has been written. -/
def Memory.get? : Memory → Nat → Option Byte
  | [], _ => none
  | (j, v) :: m, i => if j = i then some v else Memory.get? m i

/-- Write a byte, keeping the indices strictly rising. -/
def Memory.set : Memory → Nat → Byte → Memory
  | [], i, v => [(i, v)]
  | (j, w) :: m, i, v =>
    if i < j then (i, v) :: (j, w) :: m
    else if i = j then (i, v) :: m
    else (j, w) :: Memory.set m i v

/-- Forget every byte above index `n`. -/
def Memory.keepUpTo (m : Memory) (n : Nat) : Memory := m.filter (fun c => decide (c.1 ≤ n))

/-- The canonical form: indices strictly rising. -/
def Memory.wf : Memory → Bool
  | [] => true
  | [_] => true
  | (i, _) :: (j, w) :: m => decide (i < j) && Memory.wf ((j, w) :: m)

/-! The parts of State by name. -/

/-- `S.rb[b]`. -/
def State.rb (s : State) (b : BufId) : Ring :=
  match b.ch, b.buf with
  | .host,  .rx => s.hostRx
  | .host,  .tx => s.hostTx
  | .modem, .rx => s.modemRx
  | .modem, .tx => s.modemTx

/-- `S.rb[b] <- r`. -/
def State.setRb (s : State) (b : BufId) (r : Ring) : State :=
  match b.ch, b.buf with
  | .host,  .rx => { s with hostRx := r }
  | .host,  .tx => { s with hostTx := r }
  | .modem, .rx => { s with modemRx := r }
  | .modem, .tx => { s with modemTx := r }

/-- `S.chn[ch]`. -/
def State.chn (s : State) (ch : Ch) : Channel :=
  match ch with
  | .host  => s.host
  | .modem => s.modem

/-- `S.chn[ch] <- c`. -/
def State.setChn (s : State) (ch : Ch) (c : Channel) : State :=
  match ch with
  | .host  => { s with host := c }
  | .modem => { s with modem := c }

/-- `N_TIMERS`: the length of the timer table. -/
def State.nTimers (s : State) : Nat := s.slots.length

/-- `S.slot[i] <- f(S.slot[i])`. -/
def State.modifySlot (s : State) (i : Nat) (f : Slot → Slot) : State :=
  match s.slots[i]? with
  | some sl => { s with slots := s.slots.set i (f sl) }
  | none => s

/-- The RX buffer of a channel. -/
abbrev rxOf (ch : Ch) : BufId := ⟨ch, .rx⟩

/-- The TX buffer of a channel. -/
abbrev txOf (ch : Ch) : BufId := ⟨ch, .tx⟩

/-! The primitives of R16. -/

/-- `Store(b, i)`: byte i of the storage array of buffer b; a byte no push has written is a draw (R32). -/
def State.storeByte (s : State) (b : BufId) (i : Nat) : Byte :=
  ((s.rb b).store.get? i).getD (Config.freeStoreByte b i)

/-- `FRAME_BUF[i]` of channel ch; a byte the current frame output does not define is a draw (R37). -/
def State.frameByte (s : State) (ch : Ch) (i : Nat) : Byte :=
  ((s.chn ch).frameBuf.get? i).getD (Config.freeFrameByte ch (s.chn ch).draws i)

/-- The code of a status (R190). -/
def Status.code : Status → Byte
  | .ok                   => 0x00
  | .full                 => 0x01
  | .empty                => 0x02
  | .noFrameAvailable     => 0x03
  | .frameError           => 0x04
  | .capacityExceeded     => 0x05
  | .invalidConfiguration => 0x06
  | .illegalCommand       => 0x07
  | .invalidId            => 0x08
  | .busy                 => 0x09
  | .notInitialized       => 0x0A

/-- `emit(event)`. -/
def emit (e : TraceEvent) (s : State) : State := { s with trace := s.trace ++ [e] }

/-- `respond(status, result)`: the outstanding command, of opcode `op`, completes (R16, R21, R44). -/
def respond (op : Byte) (st : Status) (result : Word) (s : State) : State :=
  emit (.resp op st result) { s with status := st.code, result := result }

/-- `raise <Status>`: `respond(<Status>, 0)` with no other state change (R16). -/
def raise (op : Byte) (st : Status) (s : State) : State := respond op st 0 s

/-! The ring-buffer subroutines. -/

/-- `RbInit(b, c)` (R100). -/
def rbInit (b : BufId) (c : Word) (s : State) : Status × State :=
  if c = 0 ∨ Config.storeSize b.ch < c.toNat then (.invalidConfiguration, s)
  else (.ok, s.setRb b { s.rb b with init := true, cap := c.toNat, head := 0, tail := 0, count := 0 })

/-- `RbPush(b, v)` (R101). -/
def rbPush (b : BufId) (v : Byte) (s : State) : Status × State :=
  let r := s.rb b
  if r.init = false then (.notInitialized, s)
  else if r.count = r.cap then (.full, s)
  else (.ok, s.setRb b { r with store := r.store.set r.head v, head := (r.head + 1) % r.cap, count := r.count + 1 })

/-- `RbPop(b)` (R102): the status, the byte popped, and the state. -/
def rbPop (b : BufId) (s : State) : Status × Option Byte × State :=
  let r := s.rb b
  if r.init = false then (.notInitialized, none, s)
  else if r.count = 0 then (.empty, none, s)
  else (.ok, some (s.storeByte b r.tail), s.setRb b { r with tail := (r.tail + 1) % r.cap, count := r.count - 1 })

/-! Callback entry and return. -/

/-- A trigger of slot j (spec/41_softtimer.md R127; R198): the pass's position stays in `seq`, the cause is saved in
`cb_id`, SEQ holds in WAIT_CB, which lets FG issue commands again, and `TRIG(j)` tells FG which callback to run. -/
def callbackEntry (j : Nat) (s : State) : State :=
  emit (.trig j) { s with seq := { s.seq with fired := s.seq.fired + 1, cbId := j, phase := .waitCb } }

/-- The return from a callback (R129, R199): the pass goes on at the slot the cursor saved. -/
def callbackReturn (s : State) : State := { s with seq := { s.seq with phase := .run } }

end Sys2Proof.Machine
end

