-- ==== Sys2Proof/Machine/Flags.lean ====
section
/-! DEFINITION. The flags (spec/10_state.md R24 to R26) and which agents have an enabled step (R23;
spec/42_framechannel.md R152; spec/60_exceptions.md R195). -/

namespace Sys2Proof.Machine

/-- `EMPTY(b)`: count = 0 (R24). -/
def Ring.isEmpty (r : Ring) : Bool := decide (r.count = 0)

/-- `FULL(b)`: count = cap (R24). -/
def Ring.isFull (r : Ring) : Bool := decide (r.count = r.cap)

/-- `S.chn[ch].armed <- v` (R25). -/
def State.setArmed (s : State) (ch : Ch) (v : Bool) : State := s.setChn ch { s.chn ch with armed := v }

/-- FG may issue a command: `fg = READY`, and `seq.state` is IDLE or WAIT_CB (R23). -/
def mayIssue (s : State) : Bool := decide (s.fg = .ready) && decide (s.seq.phase ≠ .run)

/-- The port an instruction is an event of (spec/30_encoding.md R85); a command has none. -/
def portOf : Instr → Option Port
  | .rxByte ch _ => some (.rxt ch)
  | .txReady ch  => some (.txt ch)
  | .tick        => some .tick
  | .rbInit _ _ | .rbPush _ _ | .rbPop _ | .rbIsEmpty _ | .tmrRegister _ _ | .tmrStart _ | .tmrPause _ | .tmrResume _
  | .tmrAdvance _ | .tmrElapsed _ _ | .tickRead | .tickDelta _ _ | .cbDone | .chInit _ _ | .chSend _ _ | .chRecv _
  | .chGetFrame _ | .chPending _ => none

/-- The agent of a port (spec/00_scope.md R10). -/
def Port.agent : Port → Agent
  | .rxt ch => .rxt ch
  | .txt ch => .txt ch
  | .tick   => .tick

/-- The agent of a port has an enabled step: RXT and TICK always, TXT[ch] if and only if `armed = 1` (R152, R195). -/
def Port.enabled (p : Port) (s : State) : Bool :=
  match p with
  | .txt ch => (s.chn ch).armed
  | .rxt _  => true
  | .tick   => true

end Sys2Proof.Machine
end

