-- ==== Sys2Proof/Machine/Operands.lean ====
section
/-! DEFINITION. Operand forms and operand checks (spec/30_encoding.md R82, R83): the widening of a byte to a result word,
the capacity operand of RB_INIT and CH_INIT, the timer id, the tick operands. The fields of CMD themselves are pulled
out in Sys2Proof/Decode.lean. -/

namespace Sys2Proof.Machine

/-- `if r = OK then zext_32(v) else 0`: the result of a pop (R102, R157). -/
def popResult : Option Byte → Word
  | some v => v.setWidth 32
  | none   => 0

/-- A capacity the channel's storage can hold: in `1..STORE_SIZE[ch]` (R100, R151; spec/10_state.md R30). -/
def legalCapacity (ch : Ch) (c : Word) : Bool := decide (c ≠ 0) && decide (c.toNat ≤ Config.storeSize ch)

/-- The timer id check (spec/41_softtimer.md R121): `id` names a registered slot. -/
def registered (id : Nat) (s : State) : Bool := decide (id < s.tcount)

/-- `(a - b) mod 2^32`, the wraparound-safe elapsed count (spec/00_scope.md R14). -/
def elapsed (a b : Word) : Word := a - b

/-- A truth value as a result word: 1 or 0. -/
def boolResult (t : Bool) : Word := if t then 1 else 0

end Sys2Proof.Machine
end

