-- ==== Sys2Proof/Machine/FrameChannel.lean ====
section
/-! DEFINITION. The frame channel commands, FG's continuing steps of CH_RECV and CH_GETFRAME, and the transport events
(spec/42_framechannel.md R150 to R165). -/

namespace Sys2Proof.Machine

/-- CH_INIT (R151). -/
def execChInit (ch : Ch) (cap : Word) (s : State) : Host.Outcome State Fault Refusal :=
  .next (
    if legalCapacity ch cap then
      let s1 := (rbInit (rxOf ch) cap s).2
      let s2 := (rbInit (txOf ch) cap s1).2
      respond Opcode.chInit.code .ok 0 (s2.setChn ch { s2.chn ch with pending := 0, armed := false })
    else raise Opcode.chInit.code .invalidConfiguration s)

/-- RX_BYTE (R153). -/
def execRxByte (ch : Ch) (v : Byte) (s : State) : Host.Outcome State Fault Refusal :=
  let (r, s1) := rbPush (rxOf ch) v s
  .next (
    if r = .ok then
      if v = Config.term ch then s1.setChn ch { s1.chn ch with pending := (s1.chn ch).pending + 1 } else s1
    else emit (.rxDrop ch v) s1)

/-- TX_READY (R154). Which states enable it is `Port.enabled`. -/
def execTxReady (ch : Ch) (s : State) : Host.Outcome State Fault Refusal :=
  let (_, v, s1) := rbPop (txOf ch) s
  .next (
    match v with
    | some v => emit (.tx ch v) s1
    | none   => emit (.txIdle ch) (s1.setArmed ch false))

/-- CH_SEND (R155): the push and the arming are one step. -/
def execChSend (ch : Ch) (v : Byte) (s : State) : Host.Outcome State Fault Refusal :=
  let (r, s1) := rbPush (txOf ch) v s
  .next (respond Opcode.chSend.code r 0 (if r ≠ .notInitialized then s1.setArmed ch true else s1))

/-- The pop that completes CH_RECV (R157). -/
def recvPop (ch : Ch) (s : State) : State :=
  let (r, v, s1) := rbPop (rxOf ch) s
  respond Opcode.chRecv.code r (popResult v) s1

/-- CH_RECV, the issue step (R157). -/
def execChRecv (ch : Ch) (s : State) : Host.Outcome State Fault Refusal :=
  .next (
    if (s.rb (rxOf ch)).init = false then raise Opcode.chRecv.code .notInitialized s
    else if (s.rb (rxOf ch)).isEmpty then { s with fg := .recv ch }
    else recvPop ch s)

/-- CH_GETFRAME, the issue step (R158). -/
def execChGetFrame (ch : Ch) (s : State) : Host.Outcome State Fault Refusal :=
  .next (
    if (s.rb (rxOf ch)).init = false then raise Opcode.chGetFrame.code .notInitialized s
    else if (s.chn ch).pending = 0 then raise Opcode.chGetFrame.code .noFrameAvailable s
    else { s.setChn ch { s.chn ch with gfK := 0 } with fg := .getFrame ch })

/-- How an extraction ends (R159). -/
inductive Extraction where
  /-- the terminator was popped after `n` payload bytes -/
  | frame (n : Nat)
  /-- RX drained, or `cap` bytes without a terminator -/
  | frameError
  deriving DecidableEq, Repr

/-- The frame output of length n: `FRAME_LEN <- n; FRAME_BUF[n] <- 0x00`; the bytes above n become "any value" (R37, R160). -/
def Channel.output (c : Channel) (n : Nat) : Channel :=
  { c with frameLen := n, frameBuf := (c.frameBuf.set n 0).keepUpTo n, draws := c.draws + 1 }

/-- The CR filter applies to a frame of n bytes (R162). -/
def crFiltered (ch : Ch) (n : Nat) (s : State) : Bool :=
  Config.filterCr ch && decide (n = 1) && decide (s.frameByte ch 0 = Config.cr)

/-- `finish(outcome)` (R160, R162). -/
def gfFinish (ch : Ch) (o : Extraction) (s : State) : State :=
  let s1 := { s.setChn ch { s.chn ch with pending := (s.chn ch).pending - 1 } with fg := .ready }
  match o with
  | .frameError =>
    respond Opcode.chGetFrame.code .frameError 0 (s1.setChn ch ((s1.chn ch).output 0))
  | .frame n =>
    if crFiltered ch n s then
      respond Opcode.chGetFrame.code .noFrameAvailable 0 (s1.setChn ch ((s1.chn ch).output 0))
    else
      respond Opcode.chGetFrame.code .ok (BitVec.ofNat 32 n) (s1.setChn ch ((s1.chn ch).output n))

/-- An extraction step of CH_GETFRAME (R159). -/
def gfExtract (ch : Ch) (s : State) : State :=
  let (_, v, s1) := rbPop (rxOf ch) s
  match v with
  | none => gfFinish ch .frameError s1
  | some v =>
    let c := s1.chn ch
    if v = Config.term ch then gfFinish ch (.frame c.gfK) s1
    else
      let s2 := s1.setChn ch { c with frameBuf := c.frameBuf.set c.gfK v, gfK := c.gfK + 1 }
      if c.gfK + 1 = (s1.rb (rxOf ch)).cap then gfFinish ch .frameError s2 else s2

/-- FG's enabled continuing step, if it has one: the completion of CH_RECV, enabled only while RX is not empty (R157), or an
extraction step of CH_GETFRAME (R159). -/
def fgStep? (s : State) : Option State :=
  match s.fg with
  | .ready       => none
  | .recv ch     => if (s.rb (rxOf ch)).isEmpty then none else some (recvPop ch { s with fg := .ready })
  | .getFrame ch => some (gfExtract ch s)

/-- CH_PENDING (R161). -/
def execChPending (ch : Ch) (s : State) : Host.Outcome State Fault Refusal :=
  .next (respond Opcode.chPending.code .ok (s.chn ch).pending s)

end Sys2Proof.Machine
end

