-- ==== Sys2Proof/Machine/RingBuffer.lean ====
section
/-! DEFINITION. The ring buffer commands (spec/40_ringbuffer.md R100 to R106), each one atomic step. -/

namespace Sys2Proof.Machine

/-- RB_INIT (R100). -/
def execRbInit (b : BufId) (cap : Word) (s : State) : Host.Outcome State Fault Refusal :=
  let (r, s1) := rbInit b cap s
  .next (respond Opcode.rbInit.code r 0 s1)

/-- RB_PUSH (R101). -/
def execRbPush (b : BufId) (v : Byte) (s : State) : Host.Outcome State Fault Refusal :=
  let (r, s1) := rbPush b v s
  .next (respond Opcode.rbPush.code r 0 s1)

/-- RB_POP (R102). -/
def execRbPop (b : BufId) (s : State) : Host.Outcome State Fault Refusal :=
  let (r, v, s1) := rbPop b s
  .next (respond Opcode.rbPop.code r (popResult v) s1)

/-- RB_ISEMPTY (R104). -/
def execRbIsEmpty (b : BufId) (s : State) : Host.Outcome State Fault Refusal :=
  .next (
    if (s.rb b).init = false then raise Opcode.rbIsEmpty.code .notInitialized s
    else respond Opcode.rbIsEmpty.code .ok (boolResult (s.rb b).isEmpty) s)

end Sys2Proof.Machine
end

