-- ==== Sys2Proof/Machine/SoftTimer.lean ====
section
/-! DEFINITION. The soft timer commands, the SEQ steps of a pass, and the TICK event (spec/41_softtimer.md R120 to R138). -/

namespace Sys2Proof.Machine

/-- TMR_REGISTER (R120). -/
def execTmrRegister (period : Word) (cb : Bool) (s : State) : Host.Outcome State Fault Refusal :=
  .next (
    if s.tcount = s.nTimers then raise Opcode.tmrRegister.code .capacityExceeded s
    else respond Opcode.tmrRegister.code .ok (BitVec.ofNat 32 s.tcount)
      { s with slots := s.slots.set s.tcount ⟨period, 0, false, cb⟩, tcount := s.tcount + 1 })

/-- The shape TMR_START, TMR_PAUSE and TMR_RESUME share: the id check (R121), then one slot is changed. -/
def onSlot (op : Byte) (id : Nat) (f : Slot → Slot) (s : State) : State :=
  if registered id s then respond op .ok 0 (s.modifySlot id f) else raise op .invalidId s

/-- TMR_START (R122). -/
def execTmrStart (id : Nat) (s : State) : Host.Outcome State Fault Refusal :=
  .next (onSlot Opcode.tmrStart.code id (fun sl => { sl with acc := 0, active := true }) s)

/-- TMR_PAUSE (R123). -/
def execTmrPause (id : Nat) (s : State) : Host.Outcome State Fault Refusal :=
  .next (onSlot Opcode.tmrPause.code id (fun sl => { sl with active := false }) s)

/-- TMR_RESUME (R124). -/
def execTmrResume (id : Nat) (s : State) : Host.Outcome State Fault Refusal :=
  .next (onSlot Opcode.tmrResume.code id (fun sl => { sl with active := true }) s)

/-- TMR_ADVANCE, the issue step (R125): the pass begins, and the command completes at its end (`seqEnd`). -/
def execTmrAdvance (e : Word) (s : State) : Host.Outcome State Fault Refusal :=
  .next (
    if s.seq.phase ≠ .idle then raise Opcode.tmrAdvance.code .busy s
    else { s with seq := { s.seq with phase := .run, i := 0, n := s.tcount, e := e, fired := 0 } })

/-- The SEQ visit step, of slot `seq.i` (R126, R127). The sum is exact. A cursor beyond the table has no slot to visit: no
reachable state has one. -/
def seqVisit (s : State) : State :=
  let j := s.seq.i
  let s1 := { s with seq := { s.seq with i := j + 1 } }
  match s.slots[j]? with
  | none => s1
  | some sl =>
    if sl.active then
      let sum := sl.acc.toNat + s.seq.e.toNat
      if sl.period.toNat ≤ sum then
        let s2 := s1.modifySlot j (fun x => { x with acc := 0 })
        if sl.cbEn then callbackEntry j s2 else s2
      else s1.modifySlot j (fun x => { x with acc := BitVec.ofNat 32 sum })
    else s1

/-- The end of a pass (R130): TMR_ADVANCE completes with the number of triggers. -/
def seqEnd (s : State) : State :=
  respond Opcode.tmrAdvance.code .ok (BitVec.ofNat 32 s.seq.fired) { s with seq := { s.seq with phase := .idle } }

/-- SEQ's enabled step, if it has one (R126, R128, R130). -/
def seqStep? (s : State) : Option State :=
  match s.seq.phase with
  | .run => if s.seq.i < s.seq.n then some (seqVisit s) else if s.seq.i = s.seq.n then some (seqEnd s) else none
  | .idle | .waitCb => none

/-- CB_DONE (R129). -/
def execCbDone (s : State) : Host.Outcome State Fault Refusal :=
  .next (
    if s.seq.phase ≠ .waitCb then raise Opcode.cbDone.code .illegalCommand s
    else respond Opcode.cbDone.code .ok 0 (callbackReturn s))

/-- TMR_ELAPSED (R132). -/
def execTmrElapsed (start threshold : Word) (s : State) : Host.Outcome State Fault Refusal :=
  .next (respond Opcode.tmrElapsed.code .ok (boolResult (decide (threshold.toNat ≤ (elapsed s.tick start).toNat))) s)

/-- TICK_READ (R134). -/
def execTickRead (s : State) : Host.Outcome State Fault Refusal :=
  .next (respond Opcode.tickRead.code .ok s.tick s)

/-- TICK_DELTA (R131). -/
def execTickDelta (cur prev : Word) (s : State) : Host.Outcome State Fault Refusal :=
  .next (respond Opcode.tickDelta.code .ok (elapsed cur prev) s)

/-- The TICK event (R133). -/
def execTick (s : State) : Host.Outcome State Fault Refusal :=
  .next { s with tick := s.tick + 1 }

end Sys2Proof.Machine
end

