-- ==== Sys2Proof/Machine/Dispatch.lean ====
section
/-! DEFINITION. The meaning of each instruction, one arm per constructor. For CH_RECV, CH_GETFRAME and TMR_ADVANCE it is
the issue step (spec/00_scope.md R11). -/

namespace Sys2Proof.Machine

def exec (i : Instr) (s : State) : Host.Outcome State Fault Refusal :=
  match i with
  | .rbInit b cap => Sys2Proof.Machine.execRbInit b cap s
  | .rbPush b v => Sys2Proof.Machine.execRbPush b v s
  | .rbPop b => Sys2Proof.Machine.execRbPop b s
  | .rbIsEmpty b => Sys2Proof.Machine.execRbIsEmpty b s
  | .tmrRegister period cb => Sys2Proof.Machine.execTmrRegister period cb s
  | .tmrStart id => Sys2Proof.Machine.execTmrStart id s
  | .tmrPause id => Sys2Proof.Machine.execTmrPause id s
  | .tmrResume id => Sys2Proof.Machine.execTmrResume id s
  | .tmrAdvance elapsed => Sys2Proof.Machine.execTmrAdvance elapsed s
  | .tmrElapsed start threshold => Sys2Proof.Machine.execTmrElapsed start threshold s
  | .tickRead => Sys2Proof.Machine.execTickRead s
  | .tickDelta cur prev => Sys2Proof.Machine.execTickDelta cur prev s
  | .cbDone => Sys2Proof.Machine.execCbDone s
  | .chInit ch cap => Sys2Proof.Machine.execChInit ch cap s
  | .chSend ch v => Sys2Proof.Machine.execChSend ch v s
  | .chRecv ch => Sys2Proof.Machine.execChRecv ch s
  | .chGetFrame ch => Sys2Proof.Machine.execChGetFrame ch s
  | .chPending ch => Sys2Proof.Machine.execChPending ch s
  | .rxByte ch v => Sys2Proof.Machine.execRxByte ch v s
  | .txReady ch => Sys2Proof.Machine.execTxReady ch s
  | .tick => Sys2Proof.Machine.execTick s

end Sys2Proof.Machine
end

