-- ==== Sys2Proof/Machine/Agents.lean ====
section
/-! DEFINITION. What one move of each agent does (spec/00_scope.md R10 to R12): a packet on the command port, an event word
on a port, FG's continuing step, SEQ's step, and the block's own steps when no move is listed. -/

namespace Sys2Proof.Machine

/-- FG presents a packet on the command port (spec/30_encoding.md R84, R87; spec/10_state.md R23). -/
def issueCommand (p : Packet) (s : State) : Host.Outcome State Fault Refusal :=
  if mayIssue s then
    match decodeCommand p with
    | .ok i => exec i s
    | .error _ => .next (raise (opField p.cmd) .illegalCommand s)
  else .refused (.notEnabled .fg)

/-- An event word is presented on a port (R85). A word that is no event of that port is ignored (R87, log 10). -/
def deliverEvent (port : Port) (ev : Word) (s : State) : Host.Outcome State Fault Refusal :=
  match decodeEvent ev with
  | .ok i =>
    if portOf i = some port then
      if port.enabled s then exec i s else .refused (.notEnabled port.agent)
    else .next s
  | .error _ => .next s

/-- An agent takes its enabled step, if it has one. -/
def takeStep (a : Agent) (t : Option State) : Host.Outcome State Fault Refusal :=
  match t with
  | some t => .next t
  | none => .refused (.notEnabled a)

/-- The block's own enabled step, if there is one: FG's continuing step or SEQ's (spec/70_reset_and_hazards.md R238; log 2). -/
def ownStep? (s : State) : Option State :=
  match fgStep? s with
  | some t => some t
  | none => seqStep? s

/-- One move. -/
def takeMove (m : Move) (s : State) : Host.Outcome State Fault Refusal :=
  match m with
  | .command p => issueCommand p s
  | .event port ev => deliverEvent port ev s
  | .fg => takeStep .fg (fgStep? s)
  | .seq => takeStep .seq (seqStep? s)

/-- No move is listed: the block's own step, or nothing changes. -/
def idleStep (s : State) : State := (ownStep? s).getD s

/-- FG can issue a command: the state made so, if it is not (for `State.withFetchWord`). -/
def readyFg (s : State) : State :=
  match s.seq.phase with
  | .run => { s with fg := .ready, seq := { s.seq with phase := .idle } }
  | .idle | .waitCb => { s with fg := .ready }

/-- The state in which the very next move is the table word `p` on its own port, and that port's agent may take it. -/
def placeWord (p : Packet) (s : State) : State :=
  match decodeEvent p.cmd with
  | .ok (.txReady ch) => { s.setArmed ch true with moves := .event (.txt ch) p.cmd :: s.moves }
  | .ok i =>
    match portOf i with
    | some port => { s with moves := .event port p.cmd :: s.moves }
    | none => { readyFg s with moves := .command p :: s.moves }
  | .error _ => { readyFg s with moves := .command p :: s.moves }

end Sys2Proof.Machine
end

