-- ==== Sys2Proof/Machine/Step.lean ====
section
/-! DEFINITION. One step of the machine: the next of the moves to come, or, with none listed, the block's own step. -/

namespace Sys2Proof.Machine

/-- One step (spec/00_scope.md R10, R11; log 1, log 2, log 8). -/
def step (s : State) : Host.Outcome State Fault Refusal :=
  match s.moves with
  | [] => .next (idleStep s)
  | m :: rest => takeMove m { s with moves := rest }

/-- `s` with the table word `w` of `nbits` bits as its next move (log 11). -/
def State.withFetchWord (s : State) (nbits w : Nat) : State := placeWord (packetOfBits (w % 2 ^ nbits)) s

end Sys2Proof.Machine
end

