-- ==== Sys2Proof/Safety.lean ====
section
/-! DEFINITION. The terms claims about runs are stated in: the queue content of a buffer (spec/10_state.md R29), the invariant
of the block's state (R27, R28, R30, R32, R37, R38, R40 to R42; spec/41_softtimer.md R137; spec/60_exceptions.md R190), a sequence
of raw pushes and pops on one buffer (spec/40_ringbuffer.md R103), and the fair runs (spec/60_exceptions.md R207;
spec/70_reset_and_hazards.md R238). -/

namespace Sys2Proof.Machine

/-- `Q(b)`: the bytes of the buffer, oldest first (R29). -/
def State.queue (s : State) (b : BufId) : List Byte :=
  (List.range (s.rb b).count).map (fun j => s.storeByte b (((s.rb b).tail + j) % (s.rb b).cap))

/-- The invariant of a ring buffer whose storage array has `size` bytes (R27, R28, R30, R32). -/
structure RingInv (size : Nat) (r : Ring) : Prop where
  /-- the storage is in canonical form -/
  storeWf      : r.store.wf = true
  /-- every written byte is one of the array's -/
  storeInRange : ∀ c ∈ r.store, c.1 < size
  /-- before the first initialize the descriptor is at its reset value -/
  fresh        : r.init = false → r.cap = 0 ∧ r.head = 0 ∧ r.tail = 0 ∧ r.count = 0
  capLow       : r.init = true → 1 ≤ r.cap
  capHigh      : r.init = true → r.cap ≤ size
  countRange   : r.init = true → r.count ≤ r.cap
  headRange    : r.init = true → r.head < r.cap
  tailRange    : r.init = true → r.tail < r.cap
  headEq       : r.init = true → r.head = (r.tail + r.count) % r.cap
  /-- every byte of the queue has been written by a push -/
  written      : r.init = true → ∀ j < r.count, (r.store.get? ((r.tail + j) % r.cap)).isSome = true

/-- The invariant of a channel's own state (R25, R37, R38). -/
structure ChannelInv (ch : Ch) (s : State) : Prop where
  frameWf      : (s.chn ch).frameBuf.wf = true
  frameInRange : ∀ c ∈ (s.chn ch).frameBuf, c.1 < Config.storeSize ch
  frameLen     : (s.chn ch).frameLen < Config.storeSize ch
  cursor       : (s.chn ch).gfK ≤ Config.storeSize ch
  /-- an armed channel's TX buffer is initialized -/
  armedInit    : (s.chn ch).armed = true → (s.rb (txOf ch)).init = true
  /-- while a frame is extracted, RX is initialized, the cursor is below the overlong bound, and the payload so far is written -/
  extracting   : s.fg = .getFrame ch → (s.rb (rxOf ch)).init = true ∧ (s.chn ch).gfK < (s.rb (rxOf ch)).cap ∧
                   ∀ i < (s.chn ch).gfK, ((s.chn ch).frameBuf.get? i).isSome = true
  /-- a held CH_RECV is on an initialized buffer -/
  receiving    : s.fg = .recv ch → (s.rb (rxOf ch)).init = true

/-- The invariant of the timer table (R8, R40, R41, R137). -/
structure TimerInv (s : State) : Prop where
  sizeLow  : 1 ≤ s.nTimers
  sizeHigh : s.nTimers ≤ 256
  tcount   : s.tcount ≤ s.nTimers
  /-- a registered timer has not reached its period, or has just been reset -/
  accBelow : ∀ j < s.tcount, ∀ sl, s.slots[j]? = some sl → sl.acc.toNat < sl.period.toNat ∨ sl.acc = 0

/-- The invariant of the sequencer (R42, R126 to R130) and of FG beside it (R12, R23). -/
structure SeqInv (s : State) : Prop where
  iRange     : s.seq.i ≤ s.nTimers
  nRange     : s.seq.n ≤ s.nTimers
  firedRange : s.seq.fired ≤ s.nTimers
  cbIdRange  : s.seq.cbId < s.nTimers
  /-- in a pass, the cursor is within the slots latched, which are registered, and no slot has fired twice -/
  inPass     : s.seq.phase ≠ .idle → s.seq.i ≤ s.seq.n ∧ s.seq.n ≤ s.tcount ∧ s.seq.fired ≤ s.seq.i
  /-- in a callback, the cursor is just past the slot that fired -/
  inCallback : s.seq.phase = .waitCb → s.seq.cbId + 1 = s.seq.i
  /-- FG has no command of its own outstanding while SEQ runs -/
  fgIdle     : s.seq.phase = .run → s.fg = .ready

/-- The response registers hold a status code, and RESULT is 0 with every code other than OK (R190). -/
def ResponseInv (s : State) : Prop := ∃ st : Status, s.status = st.code ∧ (st ≠ .ok → s.result = 0)

/-- The invariant of the block. -/
structure BlockInv (s : State) : Prop where
  rings     : ∀ b, RingInv (Config.storeSize b.ch) (s.rb b)
  channels  : ∀ ch, ChannelInv ch s
  timers    : TimerInv s
  sequencer : SeqInv s
  response  : ResponseInv s

/-- A raw push or pop on one buffer. -/
inductive RbOp where
  | push (v : Byte)
  | pop
  deriving DecidableEq, Repr

/-- What a sequence of raw pushes and pops did: the bytes of the pushes that returned OK, the bytes of the pops that returned
OK, each in order, and the state left. -/
structure RbHistory where
  accepted : List Byte
  returned : List Byte
  final    : State
  deriving DecidableEq, Repr

/-- Run a sequence of RbPush and RbPop on buffer b (R101 to R103). -/
def runRbOps (b : BufId) : List RbOp → State → RbHistory
  | [], s => ⟨[], [], s⟩
  | .push v :: ops, s =>
    let h := runRbOps b ops (rbPush b v s).2
    match (rbPush b v s).1 with
    | .ok => { h with accepted := v :: h.accepted }
    | _ => h
  | .pop :: ops, s =>
    let h := runRbOps b ops (rbPop b s).2.2
    match (rbPop b s).2.1 with
    | some v => { h with returned := v :: h.returned }
    | none => h

/-- A timer's slot after the visit of a pass of `e` elapsed ticks (R126). -/
def Slot.advance (e : Word) (sl : Slot) : Slot :=
  if sl.active then
    if sl.period.toNat ≤ sl.acc.toNat + e.toNat then { sl with acc := 0 }
    else { sl with acc := BitVec.ofNat 32 (sl.acc.toNat + e.toNat) }
  else sl

/-- The visit raises a trigger (R126, R127). -/
def Slot.fires (e : Word) (sl : Slot) : Bool :=
  sl.active && decide (sl.period.toNat ≤ sl.acc.toNat + e.toNat) && sl.cbEn

/-- The moves of a pass over `slots`: one SEQ step a slot and, after each trigger, a callback that only issues CB_DONE; then the
SEQ step that ends the pass (R126 to R130). -/
def passMoves (e : Word) : List Slot → List Move
  | [] => [.seq]
  | sl :: slots => if sl.fires e then .seq :: .command (encode .cbDone) :: passMoves e slots else .seq :: passMoves e slots

/-- The timer ids a pass triggers, in registration order, counting from `j`. -/
def triggered (e : Word) : Nat → List Slot → List Nat
  | _, [] => []
  | j, sl :: slots => if sl.fires e then j :: triggered e (j + 1) slots else triggered e (j + 1) slots

/-- The timer ids of the triggers of a trace. -/
def trigIds : List TraceEvent → List Nat
  | [] => []
  | .trig j :: es => j :: trigIds es
  | .resp _ _ _ :: es | .tx _ _ :: es | .txIdle _ :: es | .rxDrop _ _ :: es => trigIds es

/-- A move of a transport or of the tick source: what may fall between the extraction steps of a CH_GETFRAME
(spec/20_memory.md R72; spec/42_framechannel.md R164). -/
def Move.isPortEvent : Move → Bool
  | .event _ _ => true
  | .command _ | .fg | .seq => false

/-- The TX_READY move of a channel (spec/42_framechannel.md R154). -/
def txPoll (ch : Ch) : Move := .event (.txt ch) (encode (.txReady ch)).cmd

/-- How many TX_READY polls TXT[ch] can take before the channel disarms, if nothing is sent meanwhile: one for each byte of TX, and the
one that finds TX empty (spec/42_framechannel.md R152, R154). -/
def pollsLeft (ch : Ch) (s : State) : Nat := if (s.chn ch).armed then (s.rb (txOf ch)).count + 1 else 0

/-- The instruction the next move stands for: the command a packet decodes to, or the event a word is on its own port
(spec/30_encoding.md R84, R85). -/
def State.nextInstr? (s : State) : Option Instr :=
  match s.moves with
  | .command p :: _ =>
    match decodeCommand p with
    | .ok i => some i
    | .error _ => none
  | .event port ev :: _ =>
    match decodeEvent ev with
    | .ok i => if portOf i = some port then some i else none
    | .error _ => none
  | .fg :: _ => none
  | .seq :: _ => none
  | [] => none

/-- The channel an instruction acts on; none for the timer unit's. -/
def channelOf : Instr → Option Ch
  | .rbInit b _ | .rbPush b _ | .rbPop b | .rbIsEmpty b => some b.ch
  | .chInit ch _ | .chSend ch _ | .chRecv ch | .chGetFrame ch | .chPending ch | .rxByte ch _ | .txReady ch => some ch
  | .tmrRegister _ _ | .tmrStart _ | .tmrPause _ | .tmrResume _ | .tmrAdvance _ | .tmrElapsed _ _ | .tickRead
  | .tickDelta _ _ | .cbDone | .tick => none

/-- Every byte of every storage array reads as before. -/
def SameStorage (s t : State) : Prop := ∀ b i, t.storeByte b i = s.storeByte b i

/-- Every byte of every frame output array reads as before. -/
def SameFrameBytes (s t : State) : Prop := ∀ ch i, t.frameByte ch i = s.frameByte ch i

/-- The timer table and the sequencer are as before. -/
def SameTimers (s t : State) : Prop := t.tcount = s.tcount ∧ t.slots = s.slots ∧ t.seq = s.seq

/-- A channel's two buffers and its own state are as before. -/
def SameChannel (ch : Ch) (s t : State) : Prop := t.chn ch = s.chn ch ∧ ∀ buf, t.rb ⟨ch, buf⟩ = s.rb ⟨ch, buf⟩

/-! Runs without end and their fairness (spec/60_exceptions.md R207; spec/70_reset_and_hazards.md R238): assumptions about the environment
and about progress, stated here and enforced by no step (log 14). -/

/-- A run without end: `σ n` is the state before the n-th step, and `m n` the move that step takes. Each step is `step`. -/
def IsRun (σ : Nat → State) (m : Nat → Move) : Prop :=
  ∀ n, step { σ n with moves := [m n] } = .next (σ (n + 1))

/-- The instruction that the n-th step of a run takes as its move. -/
def instrAt (σ : Nat → State) (m : Nat → Move) (n : Nat) : Option Instr := { σ n with moves := [m n] }.nextInstr?

/-- Weak fairness: what is enabled from some step on for ever is taken at that step or later. -/
def WeaklyFair (enabled taken : Nat → Prop) : Prop :=
  ∀ n, (∀ k, n ≤ k → enabled k) → ∃ k, n ≤ k ∧ taken k

/-- A run in which the environment and the block do their duties (R207, R238). RXT has none: "no byte need ever arrive". -/
structure FairRun (σ : Nat → State) (m : Nat → Move) : Prop where
  run        : IsRun σ m
  /-- TXT[ch] takes TX_READY eventually while `armed = 1` -/
  transmit   : ∀ ch, WeaklyFair (fun k => ((σ k).chn ch).armed = true) (fun k => instrAt σ m k = some (.txReady ch))
  /-- TICK, always enabled, occurs infinitely often -/
  ticks      : WeaklyFair (fun _ => True) (fun k => instrAt σ m k = some .tick)
  /-- FG ends every callback with CB_DONE -/
  callbacks  : ∀ n, (σ n).seq.phase = .waitCb → ∃ k, n ≤ k ∧ instrAt σ m k = some .cbDone
  /-- SEQ's steps are weakly fair -/
  sequencer  : WeaklyFair (fun k => (seqStep? (σ k)).isSome = true) (fun k => m k = .seq)
  /-- FG's extraction steps are weakly fair -/
  extraction : ∀ ch, WeaklyFair (fun k => (σ k).fg = .getFrame ch) (fun k => m k = .fg)

/-- The bytes of channel ch that a trace puts on the wire, oldest first: its TX events (spec/10_state.md R44). -/
def wireBytes (ch : Ch) : List TraceEvent → List Byte
  | [] => []
  | .tx ch' v :: es => if ch' = ch then v :: wireBytes ch es else wireBytes ch es
  | .resp _ _ _ :: es | .trig _ :: es | .txIdle _ :: es | .rxDrop _ _ :: es => wireBytes ch es

/-- The instruction takes bytes out of TX of channel ch before they are sent: RB_POP, or a successful RB_INIT or CH_INIT
(spec/42_framechannel.md R156; spec/70_reset_and_hazards.md R230). -/
def removesUnsent (ch : Ch) (i : Option Instr) : Prop :=
  i = some (.rbPop (txOf ch)) ∨
    ∃ c, legalCapacity ch c = true ∧ (i = some (.rbInit (txOf ch) c) ∨ i = some (.chInit ch c))

end Sys2Proof.Machine
end

