-- ==== Sys2Proof/Certificates/Slice0/Obligations.lean ====
section
/-! DEFINITION. The statements for the provers, each a rule of spec/ or a consequence of its rules. Statuses stand as the codes
of spec/60_exceptions.md R190 and opcodes as the values of spec/30_encoding.md R84 and R85, written out. -/

open Sys2Proof Sys2Proof.Machine

/-! Encoding. -/

/-- Words of spec/95_test_vectors.md, one or more of each family, decode to the instructions they stand for, and the illegal words of
ENC-2 to ENC-9 and ENC-12 decode to none. -/
def Obligations.WrittenWordsDecodeToTheirInstructions : Prop :=
  (decodeCommand ⟨0x00000301, 2, 0⟩ = .ok (.rbInit ⟨.modem, .tx⟩ 2) ∧
   decodeCommand ⟨0x00FF0302, 0, 0⟩ = .ok (.rbPush ⟨.modem, .tx⟩ 0xFF) ∧
   decodeCommand ⟨0x00010010, 100, 0⟩ = .ok (.tmrRegister 100 true) ∧
   decodeCommand ⟨0xFF000011, 0, 0⟩ = .ok (.tmrStart 255) ∧
   decodeCommand ⟨0x00000015, 0xFFFFFFF0, 0x20⟩ = .ok (.tmrElapsed 0xFFFFFFF0 0x20) ∧
   decodeCommand ⟨0x000A0121, 0, 0⟩ = .ok (.chSend .modem 0x0A) ∧
   decodeCommand ⟨0x00000123, 0, 0⟩ = .ok (.chGetFrame .modem) ∧
   decodeEvent 0x000A01E0 = .ok (.rxByte .modem 0x0A) ∧
   decodeEvent 0x000001E1 = .ok (.txReady .modem) ∧
   decodeEvent 0x000000E2 = .ok .tick) ∧
  (∀ w ∈ [0x00000402, 0x01000002, 0x00000005, 0x000000E0, 0x00020010, 0x00000111, 0x00000223, 0x00010014, 0x00000000],
    ∀ a b i, decodeCommand ⟨BitVec.ofNat 32 w, a, b⟩ ≠ .ok i) ∧
  ∀ i, decodeEvent 0x000100E2 ≠ .ok i

/-- Decode and encode agree: the packet of a well-formed instruction, on its own port, decodes to it, with every operand at every
value its field admits (R80 to R86). -/
def Obligations.DecodeOfEncodeIsTheInstruction : Prop :=
  ∀ i : Instr, i.wellFormed = true → decodeFor i (encode i) = .ok i

/-- The other direction: a word that decodes is the command or event word of the instruction it decodes to, so no two legal words
stand for one instruction and operands (R82, R84 to R86). -/
def Obligations.EncodeOfDecodeIsTheWord : Prop :=
  (∀ (p : Packet) (i : Instr), decodeCommand p = .ok i →
    i.wellFormed = true ∧ i.opcode.isEvent = false ∧ (encode i).cmd = p.cmd) ∧
  ∀ (w : Word) (i : Instr), decodeEvent w = .ok i →
    i.wellFormed = true ∧ i.opcode.isEvent = true ∧ encode i = ⟨w, 0, 0⟩

/-- R86: a word decodes as a row's command if and only if `(w AND mask) = match`; at most one row matches any word; the masks and
the match of each row as listed there. -/
def Obligations.WordDecodesAsRowIffMaskedWordMatches : Prop :=
  (∀ (p : Packet) (i : Instr), decodeCommand p = .ok i ↔
    ∃ o : Opcode, o.isEvent = false ∧ p.cmd &&& o.mask = o.pattern ∧ i = o.instr p) ∧
  (∀ (w : Word) (i : Instr), decodeEvent w = .ok i ↔
    ∃ o : Opcode, o.isEvent = true ∧ w &&& o.mask = o.pattern ∧ i = o.instr ⟨w, 0, 0⟩) ∧
  (∀ (w : Word) (o o' : Opcode), w &&& o.mask = o.pattern → w &&& o'.mask = o'.pattern → o = o') ∧
  Opcode.all.map (fun o => (o.pattern, o.mask)) =
    [(0x01, 0xFFFFFCFF), (0x02, 0xFF00FCFF), (0x03, 0xFFFFFCFF), (0x04, 0xFFFFFCFF), (0x10, 0xFFFEFFFF),
     (0x11, 0x00FFFFFF), (0x12, 0x00FFFFFF), (0x13, 0x00FFFFFF), (0x14, 0xFFFFFFFF), (0x15, 0xFFFFFFFF),
     (0x16, 0xFFFFFFFF), (0x17, 0xFFFFFFFF), (0x18, 0xFFFFFFFF), (0x20, 0xFFFFFEFF), (0x21, 0xFF00FEFF),
     (0x22, 0xFFFFFEFF), (0x23, 0xFFFFFEFF), (0x24, 0xFFFFFEFF), (0xE0, 0xFF00FEFF), (0xE1, 0xFFFFFEFF),
     (0xE2, 0xFFFFFFFF)]

/-! The step. -/

/-- A step runs the decoded instruction: when the next move is a packet FG may issue, or an event word on its own port whose agent is
enabled, the step is `exec` of the instruction it decodes to, in the state with that move taken off (R10, R23, R84, R85, R152). -/
def Obligations.StepRunsTheDecodedInstruction : Prop :=
  (∀ (s : State) (p : Packet) (rest : List Move) (i : Instr), s.moves = .command p :: rest → decodeCommand p = .ok i →
    s.fg = .ready → (s.seq.phase = .idle ∨ s.seq.phase = .waitCb) →
    step s = exec i { s with moves := rest }) ∧
  (∀ (s : State) (w : Word) (rest : List Move) (ch : Ch) (v : Byte), s.moves = .event (.rxt ch) w :: rest →
    decodeEvent w = .ok (.rxByte ch v) → step s = exec (.rxByte ch v) { s with moves := rest }) ∧
  (∀ (s : State) (w : Word) (rest : List Move) (ch : Ch), s.moves = .event (.txt ch) w :: rest →
    decodeEvent w = .ok (.txReady ch) → (s.chn ch).armed = true → step s = exec (.txReady ch) { s with moves := rest }) ∧
  ∀ (s : State) (w : Word) (rest : List Move), s.moves = .event .tick w :: rest →
    decodeEvent w = .ok .tick → step s = exec .tick { s with moves := rest }

/-- With no move listed the block's own enabled step is taken, FG's continuing step first (no reachable state has both: the
sequencer's invariant), and with none enabled nothing changes. The model's choice: log 2. -/
def Obligations.StepWithNoMoveTakesTheBlocksOwnStep : Prop :=
  ∀ s : State, s.moves = [] →
    (∀ t, fgStep? s = some t → step s = .next t) ∧
    (∀ t, fgStep? s = none → seqStep? s = some t → step s = .next t) ∧
    (fgStep? s = none → seqStep? s = none → step s = .next s)

/-- What R207 gives no move is refused, and so is a step of an agent that holds (R16, R23, R128, R152, R157). That the refusal is the model's
way to give no move: log 8. -/
def Obligations.StepRefusesWhatHasNoMove : Prop :=
  (∀ (s : State) (p : Packet) (rest : List Move), s.moves = .command p :: rest → (s.fg ≠ .ready ∨ s.seq.phase = .run) →
    step s = .refused (.notEnabled .fg)) ∧
  (∀ (s : State) (w : Word) (rest : List Move) (ch : Ch), s.moves = .event (.txt ch) w :: rest →
    decodeEvent w = .ok (.txReady ch) → (s.chn ch).armed = false → step s = .refused (.notEnabled (.txt ch))) ∧
  (∀ (s : State) (rest : List Move), s.moves = .fg :: rest →
    (s.fg = .ready ∨ ∃ ch, s.fg = .recv ch ∧ (s.rb (rxOf ch)).count = 0) → step s = .refused (.notEnabled .fg)) ∧
  ∀ (s : State) (rest : List Move), s.moves = .seq :: rest → (s.seq.phase = .idle ∨ s.seq.phase = .waitCb) →
    step s = .refused (.notEnabled .seq)

/-- R193: a command word that matches no command row completes with IllegalCommand in its issue step and changes no other state, and
so does CB_DONE outside a callback. (Which OP the RESP event of an unmatched word carries is not stated here: log 9.) -/
def Obligations.IllegalCommandChangesOnlyTheResponse : Prop :=
  (∀ (s : State) (p : Packet) (rest : List Move), s.moves = .command p :: rest → s.fg = .ready → s.seq.phase ≠ .run →
    (∀ o : Opcode, o.isEvent = false → p.cmd &&& o.mask ≠ o.pattern) →
    ∃ op, step s = .next { s with
      moves := rest, status := 0x07, result := 0, trace := s.trace ++ [.resp op .illegalCommand 0] }) ∧
  ∀ s : State, s.seq.phase ≠ .waitCb →
    exec .cbDone s = .next { s with
      status := 0x07, result := 0, trace := s.trace ++ [.resp 0x18 .illegalCommand 0] }

/-- R87: an event word that matches no event row is ignored: no state changes and nothing is emitted. -/
def Obligations.UnmatchedEventWordIsIgnored : Prop :=
  ∀ (s : State) (port : Port) (w : Word) (rest : List Move), s.moves = .event port w :: rest →
    (∀ o : Opcode, o.isEvent = true → w &&& o.mask ≠ o.pattern) → step s = .next { s with moves := rest }

/-! Ring buffer commands. -/

/-- R100: RB_INIT. -/
def Obligations.RbInitResult : Prop :=
  ∀ (b : BufId) (c : Word) (s : State),
    ((c = 0 ∨ Config.storeSize b.ch < c.toNat) → exec (.rbInit b c) s = .next { s with
      status := 0x06, result := 0, trace := s.trace ++ [.resp 0x01 .invalidConfiguration 0] }) ∧
    ((c ≠ 0 ∧ c.toNat ≤ Config.storeSize b.ch) → exec (.rbInit b c) s = .next
      { s.setRb b { s.rb b with init := true, cap := c.toNat, head := 0, tail := 0, count := 0 } with
        status := 0x00, result := 0, trace := s.trace ++ [.resp 0x01 .ok 0] })

/-- R101: RB_PUSH, its three outcomes in the order of R192. -/
def Obligations.RbPushResult : Prop :=
  ∀ (b : BufId) (v : Byte) (s : State),
    ((s.rb b).init = false → exec (.rbPush b v) s = .next { s with
      status := 0x0A, result := 0, trace := s.trace ++ [.resp 0x02 .notInitialized 0] }) ∧
    ((s.rb b).init = true → (s.rb b).count = (s.rb b).cap → exec (.rbPush b v) s = .next { s with
      status := 0x01, result := 0, trace := s.trace ++ [.resp 0x02 .full 0] }) ∧
    ((s.rb b).init = true → (s.rb b).count ≠ (s.rb b).cap →
      ∃ t, exec (.rbPush b v) s = .next t ∧
        t.storeByte b (s.rb b).head = v ∧
        (t.rb b).head = ((s.rb b).head + 1) % (s.rb b).cap ∧
        (t.rb b).count = (s.rb b).count + 1 ∧
        t.status = 0x00 ∧ t.result = 0 ∧ t.trace = s.trace ++ [.resp 0x02 .ok 0])

/-- R102: RB_POP, its three outcomes in the order of R192. -/
def Obligations.RbPopResult : Prop :=
  ∀ (b : BufId) (s : State),
    ((s.rb b).init = false → exec (.rbPop b) s = .next { s with
      status := 0x0A, result := 0, trace := s.trace ++ [.resp 0x03 .notInitialized 0] }) ∧
    ((s.rb b).init = true → (s.rb b).count = 0 → exec (.rbPop b) s = .next { s with
      status := 0x02, result := 0, trace := s.trace ++ [.resp 0x03 .empty 0] }) ∧
    ((s.rb b).init = true → (s.rb b).count ≠ 0 → exec (.rbPop b) s = .next
      { s.setRb b { s.rb b with tail := ((s.rb b).tail + 1) % (s.rb b).cap, count := (s.rb b).count - 1 } with
        status := 0x00, result := (s.storeByte b (s.rb b).tail).setWidth 32,
        trace := s.trace ++ [.resp 0x03 .ok ((s.storeByte b (s.rb b).tail).setWidth 32)] })

/-- R104: RB_ISEMPTY. -/
def Obligations.RbIsEmptyResult : Prop :=
  ∀ (b : BufId) (s : State),
    ((s.rb b).init = false → exec (.rbIsEmpty b) s = .next { s with
      status := 0x0A, result := 0, trace := s.trace ++ [.resp 0x04 .notInitialized 0] }) ∧
    ((s.rb b).init = true → (s.rb b).count = 0 → exec (.rbIsEmpty b) s = .next { s with
      status := 0x00, result := 1, trace := s.trace ++ [.resp 0x04 .ok 1] }) ∧
    ((s.rb b).init = true → (s.rb b).count ≠ 0 → exec (.rbIsEmpty b) s = .next { s with
      status := 0x00, result := 0, trace := s.trace ++ [.resp 0x04 .ok 0] })

/-- R29: on a buffer that meets its invariant, a push that is admitted appends to `Q(b)` and a pop returns and removes its first element;
the queues of the other buffers stay. -/
def Obligations.PushAppendsAndPopRemovesTheOldest : Prop :=
  ∀ (b : BufId) (s : State), RingInv (Config.storeSize b.ch) (s.rb b) → (s.rb b).init = true →
    (∀ v, (s.rb b).count < (s.rb b).cap → ∃ t, exec (.rbPush b v) s = .next t ∧
      t.queue b = s.queue b ++ [v] ∧ ∀ b', b' ≠ b → t.queue b' = s.queue b') ∧
    (∀ v q, s.queue b = v :: q → ∃ t, exec (.rbPop b) s = .next t ∧
      t.status = 0x00 ∧ t.result = v.setWidth 32 ∧ t.queue b = q ∧ ∀ b', b' ≠ b → t.queue b' = s.queue b')

/-- R103, the FIFO law, for any sequence of RbPush and RbPop on one initialized buffer: the bytes returned are the bytes held at the start
and then the bytes admitted, in push order, and what is left is the queue; from an empty buffer, EMPTY is true if and only if every admitted
push has been matched by a pop that returned OK; and at the end a push into a full buffer reports Full and a pop from an empty one reports
Empty, each leaving the state unchanged. -/
def Obligations.RingBufferIsFifo : Prop :=
  ∀ (b : BufId) (s : State) (ops : List RbOp), RingInv (Config.storeSize b.ch) (s.rb b) → (s.rb b).init = true →
    s.queue b ++ (runRbOps b ops s).accepted = (runRbOps b ops s).returned ++ (runRbOps b ops s).final.queue b ∧
    (s.queue b = [] → (((runRbOps b ops s).final.rb b).isEmpty = true ↔
      (runRbOps b ops s).accepted.length = (runRbOps b ops s).returned.length)) ∧
    (((runRbOps b ops s).final.rb b).isFull = true → ∀ v,
      rbPush b v (runRbOps b ops s).final = (.full, (runRbOps b ops s).final)) ∧
    (((runRbOps b ops s).final.rb b).isEmpty = true →
      rbPop b (runRbOps b ops s).final = (.empty, none, (runRbOps b ops s).final))

/-- The frame of RB_INIT, RB_PUSH and RB_POP (R100 to R102, R105): no other buffer, no channel (`pending`, `armed`, the frame output), no timer,
no tick, not the FG phase and not the moves to come; RB_PUSH and RB_POP keep `init` and `cap`, RB_PUSH keeps `tail`, RB_POP keeps `head`; every
byte of every storage array reads as before, but for the byte at `head` of b where RB_PUSH admits its byte. That bytes outside Q(b) read as before is the
model's choice, log 4. -/
def Obligations.RingCommandFrame : Prop :=
  ∀ (b : BufId) (i : Instr) (s t : State), ((∃ c, i = .rbInit b c) ∨ (∃ v, i = .rbPush b v) ∨ i = .rbPop b) →
    exec i s = .next t →
    (∀ b', b' ≠ b → t.rb b' = s.rb b') ∧ (∀ ch, t.chn ch = s.chn ch) ∧ SameTimers s t ∧ t.tick = s.tick ∧ t.fg = s.fg ∧
    t.moves = s.moves ∧ SameFrameBytes s t ∧
    (∀ v, i = .rbPush b v → (t.rb b).init = (s.rb b).init ∧ (t.rb b).cap = (s.rb b).cap ∧ (t.rb b).tail = (s.rb b).tail ∧
      ∀ b' j, ¬(b' = b ∧ j = (s.rb b).head ∧ (s.rb b).init = true ∧ (s.rb b).count ≠ (s.rb b).cap) →
        t.storeByte b' j = s.storeByte b' j) ∧
    (i = .rbPop b → (t.rb b).init = (s.rb b).init ∧ (t.rb b).cap = (s.rb b).cap ∧ (t.rb b).head = (s.rb b).head) ∧
    ((∀ v, i ≠ .rbPush b v) → SameStorage s t)

/-! Soft timer commands and the pass. -/

/-- R120: TMR_REGISTER, rejected at exactly `tcount = N_TIMERS`. -/
def Obligations.TmrRegisterResult : Prop :=
  ∀ (period : Word) (cb : Bool) (s : State),
    (s.tcount = s.nTimers → exec (.tmrRegister period cb) s = .next { s with
      status := 0x05, result := 0, trace := s.trace ++ [.resp 0x10 .capacityExceeded 0] }) ∧
    (s.tcount < s.nTimers → exec (.tmrRegister period cb) s = .next { s with
      slots := s.slots.set s.tcount ⟨period, 0, false, cb⟩, tcount := s.tcount + 1,
      status := 0x00, result := BitVec.ofNat 32 s.tcount,
      trace := s.trace ++ [.resp 0x10 .ok (BitVec.ofNat 32 s.tcount)] })

/-- R121: TMR_START, TMR_PAUSE and TMR_RESUME of an id that is not registered complete with InvalidId and change nothing else. -/
def Obligations.UnregisteredTimerIdIsInvalid : Prop :=
  ∀ (id : Nat) (s : State), s.tcount ≤ id →
    exec (.tmrStart id) s = .next { s with
      status := 0x08, result := 0, trace := s.trace ++ [.resp 0x11 .invalidId 0] } ∧
    exec (.tmrPause id) s = .next { s with
      status := 0x08, result := 0, trace := s.trace ++ [.resp 0x12 .invalidId 0] } ∧
    exec (.tmrResume id) s = .next { s with
      status := 0x08, result := 0, trace := s.trace ++ [.resp 0x13 .invalidId 0] }

/-- R122, R123, R124: TMR_START, TMR_PAUSE and TMR_RESUME of a registered id. -/
def Obligations.TmrStartPauseResumeResult : Prop :=
  ∀ (id : Nat) (sl : Slot) (s : State), id < s.tcount → s.slots[id]? = some sl →
    exec (.tmrStart id) s = .next { s with
      slots := s.slots.set id { sl with acc := 0, active := true },
      status := 0x00, result := 0, trace := s.trace ++ [.resp 0x11 .ok 0] } ∧
    exec (.tmrPause id) s = .next { s with
      slots := s.slots.set id { sl with active := false },
      status := 0x00, result := 0, trace := s.trace ++ [.resp 0x12 .ok 0] } ∧
    exec (.tmrResume id) s = .next { s with
      slots := s.slots.set id { sl with active := true },
      status := 0x00, result := 0, trace := s.trace ++ [.resp 0x13 .ok 0] }

/-- R125: the issue step of TMR_ADVANCE. -/
def Obligations.TmrAdvanceIssueResult : Prop :=
  ∀ (e : Word) (s : State),
    (s.seq.phase ≠ .idle → exec (.tmrAdvance e) s = .next { s with
      status := 0x09, result := 0, trace := s.trace ++ [.resp 0x14 .busy 0] }) ∧
    (s.seq.phase = .idle → exec (.tmrAdvance e) s = .next { s with
      seq := { s.seq with phase := .run, i := 0, n := s.tcount, e := e, fired := 0 } })

/-- R126, R127: the SEQ visit step, in its four cases: inactive; below the period; overflow without a callback; overflow with one, which is the
callback entry of R198. The sum is exact. -/
def Obligations.SeqVisitResult : Prop :=
  ∀ (s : State) (rest : List Move) (sl : Slot), s.moves = .seq :: rest → s.seq.phase = .run → s.seq.i < s.seq.n →
    s.slots[s.seq.i]? = some sl →
    (sl.active = false → step s = .next { s with moves := rest, seq := { s.seq with i := s.seq.i + 1 } }) ∧
    (sl.active = true → sl.acc.toNat + s.seq.e.toNat < sl.period.toNat → step s = .next { s with
      moves := rest, seq := { s.seq with i := s.seq.i + 1 },
      slots := s.slots.set s.seq.i { sl with acc := BitVec.ofNat 32 (sl.acc.toNat + s.seq.e.toNat) } }) ∧
    (sl.active = true → sl.period.toNat ≤ sl.acc.toNat + s.seq.e.toNat → sl.cbEn = false → step s = .next { s with
      moves := rest, seq := { s.seq with i := s.seq.i + 1 }, slots := s.slots.set s.seq.i { sl with acc := 0 } }) ∧
    (sl.active = true → sl.period.toNat ≤ sl.acc.toNat + s.seq.e.toNat → sl.cbEn = true → step s = .next { s with
      moves := rest, slots := s.slots.set s.seq.i { sl with acc := 0 },
      seq := { s.seq with i := s.seq.i + 1, fired := s.seq.fired + 1, cbId := s.seq.i, phase := .waitCb },
      trace := s.trace ++ [.trig s.seq.i] })

/-- R130: the end of a pass. That the RESP event has the opcode of TMR_ADVANCE is the model's reading, log 13. -/
def Obligations.SeqEndResult : Prop :=
  ∀ (s : State) (rest : List Move), s.moves = .seq :: rest → s.seq.phase = .run → s.seq.i = s.seq.n →
    step s = .next { s with
      moves := rest, seq := { s.seq with phase := .idle }, status := 0x00, result := BitVec.ofNat 32 s.seq.fired,
      trace := s.trace ++ [.resp 0x14 .ok (BitVec.ofNat 32 s.seq.fired)] }

/-- R129, R199: CB_DONE returns from a callback: SEQ runs again, and nothing else of the pass changes. -/
def Obligations.CbDoneResult : Prop :=
  ∀ s : State,
    (s.seq.phase = .waitCb → exec .cbDone s = .next { s with
      seq := { s.seq with phase := .run }, status := 0x00, result := 0, trace := s.trace ++ [.resp 0x18 .ok 0] }) ∧
    (s.seq.phase ≠ .waitCb → exec .cbDone s = .next { s with
      status := 0x07, result := 0, trace := s.trace ++ [.resp 0x18 .illegalCommand 0] })

/-- R196, R199: a trigger comes only from a SEQ visit inside a pass: a step that emits `TRIG(j)` was taken with SEQ running at cursor j, below the
slot count latched, and leaves SEQ holding in the callback of j; so callbacks do not nest. -/
def Obligations.TriggersComeOnlyFromAPass : Prop :=
  ∀ (s t : State) (j : Nat), step s = .next t → t.trace = s.trace ++ [.trig j] →
    s.seq.phase = .run ∧ s.seq.i = j ∧ j < s.seq.n ∧ t.seq.phase = .waitCb ∧ t.seq.cbId = j ∧ t.seq.i = j + 1

/-- R125 to R130, R136: a whole pass, each callback of which only issues CB_DONE: every registered slot is advanced exactly once, by the elapsed
ticks latched at its start; the triggers are those of the slots that overflow with a callback, in registration order, once each; RESULT is their
number; nothing outside the timer unit and the response changes. -/
def Obligations.WholePassAdvancesEveryTimerOnce : Prop :=
  ∀ (s : State) (e : Word) (rest : List Move), BlockInv s → s.fg = .ready → s.seq.phase = .idle →
    s.moves = .command (encode (.tmrAdvance e)) :: passMoves e (s.slots.take s.tcount) ++ rest →
    ∃ t, core.run ((passMoves e (s.slots.take s.tcount)).length + 1) s = .next t ∧ t.moves = rest ∧
      t.slots = (s.slots.take s.tcount).map (Slot.advance e) ++ s.slots.drop s.tcount ∧ t.tcount = s.tcount ∧
      t.seq.phase = .idle ∧ t.status = 0x00 ∧
      t.result = BitVec.ofNat 32 (triggered e 0 (s.slots.take s.tcount)).length ∧
      trigIds t.trace = trigIds s.trace ++ triggered e 0 (s.slots.take s.tcount) ∧
      t.fg = .ready ∧ t.tick = s.tick ∧ ∀ ch, SameChannel ch s t

/-- R131: TICK_DELTA is the difference in the counter's native modulus. -/
def Obligations.TickDeltaResult : Prop :=
  ∀ (cur prev : Word) (s : State), ∃ d : Word,
    exec (.tickDelta cur prev) s = .next { s with
      status := 0x00, result := d, trace := s.trace ++ [.resp 0x17 .ok d] } ∧
    d.toNat = (cur.toNat + (2 ^ 32 - prev.toNat)) % 2 ^ 32

/-- R132: TMR_ELAPSED compares the ticks elapsed since `start`, modulo 2^32, with the threshold, reached or exceeded. -/
def Obligations.TmrElapsedResult : Prop :=
  ∀ (start thr : Word) (s : State),
    (thr.toNat ≤ (s.tick.toNat + (2 ^ 32 - start.toNat)) % 2 ^ 32 → exec (.tmrElapsed start thr) s = .next { s with
      status := 0x00, result := 1, trace := s.trace ++ [.resp 0x15 .ok 1] }) ∧
    ((s.tick.toNat + (2 ^ 32 - start.toNat)) % 2 ^ 32 < thr.toNat → exec (.tmrElapsed start thr) s = .next { s with
      status := 0x00, result := 0, trace := s.trace ++ [.resp 0x15 .ok 0] })

/-- R133, R134: TICK, always enabled, increments the counter modulo 2^32, without a response or an event; TICK_READ returns it. -/
def Obligations.TickAndTickReadResult : Prop :=
  ∀ s : State,
    (∃ n : Word, exec .tick s = .next { s with tick := n } ∧ n.toNat = (s.tick.toNat + 1) % 2 ^ 32) ∧
    Port.tick.enabled s = true ∧
    exec .tickRead s = .next { s with
      status := 0x00, result := s.tick, trace := s.trace ++ [.resp 0x16 .ok s.tick] }

/-- The frame of the timer unit's commands (R120 to R134, R204): no buffer, no channel, no stored or frame byte, not the tick, not the FG phase, not
the moves to come; TMR_REGISTER, TMR_START, TMR_PAUSE and TMR_RESUME keep `seq` and every slot but the one they name; the others keep the table. That stored
bytes outside Q(b) read as before is the model's choice, log 4. -/
def Obligations.TimerCommandFrame : Prop :=
  ∀ (i : Instr) (s t : State), channelOf i = none → i ≠ .tick → exec i s = .next t →
    (∀ ch, SameChannel ch s t) ∧ SameStorage s t ∧ SameFrameBytes s t ∧ t.tick = s.tick ∧ t.fg = s.fg ∧ t.moves = s.moves ∧
    t.nTimers = s.nTimers ∧
    (∀ period cb, i = .tmrRegister period cb → t.seq = s.seq ∧ ∀ j, j ≠ s.tcount → t.slots[j]? = s.slots[j]?) ∧
    (∀ id, (i = .tmrStart id ∨ i = .tmrPause id ∨ i = .tmrResume id) →
      t.seq = s.seq ∧ t.tcount = s.tcount ∧ ∀ j, j ≠ id → t.slots[j]? = s.slots[j]?) ∧
    (∀ e, i = .tmrAdvance e ∨ i = .cbDone → t.slots = s.slots ∧ t.tcount = s.tcount) ∧
    (∀ a b, (i = .tmrElapsed a b ∨ i = .tickRead ∨ i = .tickDelta a b) → SameTimers s t)

/-! Frame channel commands and transport events. -/

/-- R151: CH_INIT. -/
def Obligations.ChInitResult : Prop :=
  ∀ (ch : Ch) (c : Word) (s : State),
    ((c = 0 ∨ Config.storeSize ch < c.toNat) → exec (.chInit ch c) s = .next { s with
      status := 0x06, result := 0, trace := s.trace ++ [.resp 0x20 .invalidConfiguration 0] }) ∧
    ((c ≠ 0 ∧ c.toNat ≤ Config.storeSize ch) → ∃ t, exec (.chInit ch c) s = .next t ∧
      (∀ buf, t.rb ⟨ch, buf⟩ = { s.rb ⟨ch, buf⟩ with init := true, cap := c.toNat, head := 0, tail := 0, count := 0 }) ∧
      t.chn ch = { s.chn ch with pending := 0, armed := false } ∧
      t.status = 0x00 ∧ t.result = 0 ∧ t.trace = s.trace ++ [.resp 0x20 .ok 0])

/-- R155: CH_SEND pushes into TX and arms the channel in one step, on a full buffer too, and does neither on an uninitialized one. -/
def Obligations.ChSendResult : Prop :=
  ∀ (ch : Ch) (v : Byte) (s : State),
    ((s.rb (txOf ch)).init = false → exec (.chSend ch v) s = .next { s with
      status := 0x0A, result := 0, trace := s.trace ++ [.resp 0x21 .notInitialized 0] }) ∧
    ((s.rb (txOf ch)).init = true → (s.rb (txOf ch)).count = (s.rb (txOf ch)).cap → exec (.chSend ch v) s = .next
      { s.setChn ch { s.chn ch with armed := true } with
        status := 0x01, result := 0, trace := s.trace ++ [.resp 0x21 .full 0] }) ∧
    ((s.rb (txOf ch)).init = true → (s.rb (txOf ch)).count ≠ (s.rb (txOf ch)).cap →
      ∃ t, exec (.chSend ch v) s = .next t ∧
        t.storeByte (txOf ch) (s.rb (txOf ch)).head = v ∧
        (t.rb (txOf ch)).head = ((s.rb (txOf ch)).head + 1) % (s.rb (txOf ch)).cap ∧
        (t.rb (txOf ch)).count = (s.rb (txOf ch)).count + 1 ∧
        t.chn ch = { s.chn ch with armed := true } ∧
        t.status = 0x00 ∧ t.result = 0 ∧ t.trace = s.trace ++ [.resp 0x21 .ok 0])

/-- R157: CH_RECV: the issue step, on an uninitialized, a non-empty and an empty buffer (it holds), and the completion step, FG's when the held
buffer is not empty. That the completion's RESP event has the opcode of CH_RECV is the model's reading, log 13. -/
def Obligations.ChRecvResult : Prop :=
  (∀ (ch : Ch) (s : State),
    ((s.rb (rxOf ch)).init = false → exec (.chRecv ch) s = .next { s with
      status := 0x0A, result := 0, trace := s.trace ++ [.resp 0x22 .notInitialized 0] }) ∧
    ((s.rb (rxOf ch)).init = true → (s.rb (rxOf ch)).count = 0 → exec (.chRecv ch) s = .next { s with fg := .recv ch }) ∧
    ((s.rb (rxOf ch)).init = true → (s.rb (rxOf ch)).count ≠ 0 → ∀ v, v = s.storeByte (rxOf ch) (s.rb (rxOf ch)).tail →
      exec (.chRecv ch) s = .next
        { s.setRb (rxOf ch) { s.rb (rxOf ch) with
            tail := ((s.rb (rxOf ch)).tail + 1) % (s.rb (rxOf ch)).cap, count := (s.rb (rxOf ch)).count - 1 } with
          status := 0x00, result := v.setWidth 32, trace := s.trace ++ [.resp 0x22 .ok (v.setWidth 32)] })) ∧
  ∀ (ch : Ch) (s : State) (rest : List Move), s.moves = .fg :: rest → s.fg = .recv ch → (s.rb (rxOf ch)).init = true →
    (s.rb (rxOf ch)).count ≠ 0 → ∀ v, v = s.storeByte (rxOf ch) (s.rb (rxOf ch)).tail →
      step s = .next
        { s.setRb (rxOf ch) { s.rb (rxOf ch) with
            tail := ((s.rb (rxOf ch)).tail + 1) % (s.rb (rxOf ch)).cap, count := (s.rb (rxOf ch)).count - 1 } with
          moves := rest, fg := .ready,
          status := 0x00, result := v.setWidth 32, trace := s.trace ++ [.resp 0x22 .ok (v.setWidth 32)] }

/-- R158: the issue step of CH_GETFRAME. -/
def Obligations.ChGetFrameIssueResult : Prop :=
  ∀ (ch : Ch) (s : State),
    ((s.rb (rxOf ch)).init = false → exec (.chGetFrame ch) s = .next { s with
      status := 0x0A, result := 0, trace := s.trace ++ [.resp 0x23 .notInitialized 0] }) ∧
    ((s.rb (rxOf ch)).init = true → (s.chn ch).pending = 0 → exec (.chGetFrame ch) s = .next { s with
      status := 0x03, result := 0, trace := s.trace ++ [.resp 0x23 .noFrameAvailable 0] }) ∧
    ((s.rb (rxOf ch)).init = true → (s.chn ch).pending ≠ 0 → exec (.chGetFrame ch) s = .next
      { s.setChn ch { s.chn ch with gfK := 0 } with fg := .getFrame ch })

/-- R159: an extraction step that goes on: the byte popped is not the terminator and the bound is not reached; it is stored at the cursor,
which advances by one; the command does not complete, and every other frame byte and every stored byte reads as before. That stored bytes outside Q(b) do is
the model's choice, log 4, and that frame bytes not yet stored do, log 5. -/
def Obligations.ExtractionStepStoresThePayloadByte : Prop :=
  ∀ (ch : Ch) (s : State) (rest : List Move), s.moves = .fg :: rest → s.fg = .getFrame ch → (s.rb (rxOf ch)).init = true →
    (s.rb (rxOf ch)).count ≠ 0 → s.storeByte (rxOf ch) (s.rb (rxOf ch)).tail ≠ Config.term ch →
    (s.chn ch).gfK + 1 ≠ (s.rb (rxOf ch)).cap →
    ∃ t, step s = .next t ∧ t.moves = rest ∧ t.fg = .getFrame ch ∧
      t.frameByte ch (s.chn ch).gfK = s.storeByte (rxOf ch) (s.rb (rxOf ch)).tail ∧
      (t.chn ch).gfK = (s.chn ch).gfK + 1 ∧
      t.rb (rxOf ch) = { s.rb (rxOf ch) with
        tail := ((s.rb (rxOf ch)).tail + 1) % (s.rb (rxOf ch)).cap, count := (s.rb (rxOf ch)).count - 1 } ∧
      (t.chn ch).pending = (s.chn ch).pending ∧ (t.chn ch).armed = (s.chn ch).armed ∧
      (t.chn ch).frameLen = (s.chn ch).frameLen ∧
      (∀ j, j ≠ (s.chn ch).gfK → t.frameByte ch j = s.frameByte ch j) ∧ SameStorage s t ∧
      t.status = s.status ∧ t.result = s.result ∧ t.trace = s.trace ∧ SameTimers s t ∧ t.tick = s.tick ∧
      t.rb (txOf ch) = s.rb (txOf ch) ∧ ∀ ch', ch' ≠ ch → SameChannel ch' s t

/-- R159, R160: an extraction step that finds RX empty, or that stores the cap-th byte without a terminator, finishes with FrameError: the
counter is decremented by one, the output is zero-length, FG is ready; RX is as it was where it was empty, and has lost the byte popped where it was not.
That the RESP event has the opcode of CH_GETFRAME is the model's reading, log 13, and that stored bytes outside Q(b) read as before, log 4. -/
def Obligations.ExtractionStepFinishesWithFrameError : Prop :=
  ∀ (ch : Ch) (s : State) (rest : List Move), s.moves = .fg :: rest → s.fg = .getFrame ch → (s.rb (rxOf ch)).init = true →
    ((s.rb (rxOf ch)).count = 0 ∨
      (s.storeByte (rxOf ch) (s.rb (rxOf ch)).tail ≠ Config.term ch ∧ (s.chn ch).gfK + 1 = (s.rb (rxOf ch)).cap)) →
    ∃ t, step s = .next t ∧ t.moves = rest ∧ t.fg = .ready ∧ (t.chn ch).pending = (s.chn ch).pending - 1 ∧
      (t.chn ch).frameLen = 0 ∧ t.frameByte ch 0 = 0x00 ∧ (t.chn ch).armed = (s.chn ch).armed ∧
      t.rb (rxOf ch) = (if (s.rb (rxOf ch)).count = 0 then s.rb (rxOf ch) else { s.rb (rxOf ch) with
        tail := ((s.rb (rxOf ch)).tail + 1) % (s.rb (rxOf ch)).cap, count := (s.rb (rxOf ch)).count - 1 }) ∧ SameStorage s t ∧
      t.status = 0x04 ∧ t.result = 0 ∧ t.trace = s.trace ++ [.resp 0x23 .frameError 0] ∧ SameTimers s t ∧ t.tick = s.tick ∧
      t.rb (txOf ch) = s.rb (txOf ch) ∧ ∀ ch', ch' ≠ ch → SameChannel ch' s t

/-- R159, R160, R162: an extraction step that pops the terminator after n payload bytes finishes the frame: the counter is decremented by one and
FG is ready; a single CR on a filtering channel is discarded with NoFrameAvailable and a zero-length output; any other frame is the first n bytes of
`FRAME_BUF`, unchanged, with `FRAME_LEN = n`, a 0x00 after them, and OK with result n. That the RESP event has the opcode of CH_GETFRAME is the model's
reading, log 13, and that stored bytes outside Q(b) read as before, log 4. -/
def Obligations.ExtractionStepFinishesTheFrame : Prop :=
  ∀ (ch : Ch) (s : State) (rest : List Move) (n : Nat), s.moves = .fg :: rest → s.fg = .getFrame ch →
    (s.rb (rxOf ch)).init = true → (s.rb (rxOf ch)).count ≠ 0 →
    s.storeByte (rxOf ch) (s.rb (rxOf ch)).tail = Config.term ch → (s.chn ch).gfK = n →
    ∃ t, step s = .next t ∧ t.moves = rest ∧ t.fg = .ready ∧ (t.chn ch).pending = (s.chn ch).pending - 1 ∧
      (t.chn ch).armed = (s.chn ch).armed ∧
      t.rb (rxOf ch) = { s.rb (rxOf ch) with
        tail := ((s.rb (rxOf ch)).tail + 1) % (s.rb (rxOf ch)).cap, count := (s.rb (rxOf ch)).count - 1 } ∧
      SameStorage s t ∧ SameTimers s t ∧ t.tick = s.tick ∧ t.rb (txOf ch) = s.rb (txOf ch) ∧
      (∀ ch', ch' ≠ ch → SameChannel ch' s t) ∧
      ((Config.filterCr ch = true ∧ n = 1 ∧ s.frameByte ch 0 = 0x0D) →
        (t.chn ch).frameLen = 0 ∧ t.frameByte ch 0 = 0x00 ∧ t.status = 0x03 ∧ t.result = 0 ∧
        t.trace = s.trace ++ [.resp 0x23 .noFrameAvailable 0]) ∧
      (¬(Config.filterCr ch = true ∧ n = 1 ∧ s.frameByte ch 0 = 0x0D) →
        (t.chn ch).frameLen = n ∧ t.frameByte ch n = 0x00 ∧
        (∀ j < n, ((s.chn ch).frameBuf.get? j).isSome = true → t.frameByte ch j = s.frameByte ch j) ∧
        t.status = 0x00 ∧ t.result = BitVec.ofNat 32 n ∧
        t.trace = s.trace ++ [.resp 0x23 .ok (BitVec.ofNat 32 n)])

/-- R158 to R160, R162, R164, R72: if RX holds a terminator when CH_GETFRAME is issued, the outcome is the same under every interleaving of port
events (received bytes, ticks, and as many TX_READY polls of each channel as it can take) with the extraction steps: the frame output is the bytes
before the first terminator (or the single-CR frame is discarded), and RX keeps the bytes behind it, with what arrived appended. -/
def Obligations.GetFrameReturnsTheFirstFrameUnderEveryInterleaving : Prop :=
  ∀ (s : State) (ch : Ch) (pay later : List Byte) (ms rest : List Move), BlockInv s → s.fg = .ready → s.seq.phase ≠ .run →
    (s.chn ch).pending ≠ 0 → s.queue (rxOf ch) = pay ++ Config.term ch :: later → Config.term ch ∉ pay →
    s.moves = .command (encode (.chGetFrame ch)) :: ms ++ rest → (∀ m ∈ ms, m = .fg ∨ m.isPortEvent = true) →
    ms.count .fg = pay.length + 1 → (∀ ch', ms.count (txPoll ch') ≤ pollsLeft ch' s) →
    ∃ t, core.run (ms.length + 1) s = .next t ∧ t.moves = rest ∧ t.fg = .ready ∧
      (∃ arrived, t.queue (rxOf ch) = later ++ arrived) ∧
      ((Config.filterCr ch = true ∧ pay = [0x0D]) →
        (t.chn ch).frameLen = 0 ∧ t.frameByte ch 0 = 0x00 ∧ t.status = 0x03 ∧ t.result = 0) ∧
      (¬(Config.filterCr ch = true ∧ pay = [0x0D]) →
        (t.chn ch).frameLen = pay.length ∧ (∀ j (h : j < pay.length), t.frameByte ch j = pay[j]) ∧
        t.frameByte ch pay.length = 0x00 ∧ t.status = 0x00 ∧ t.result = BitVec.ofNat 32 pay.length)

/-- R231, R159, R160: when RX holds no terminator and the counter is not 0, CH_GETFRAME drains RX and returns FrameError, and the counter has come
down by one. R231 is read so: with a terminator still in RX, R159 and R160 return that frame first. -/
def Obligations.DesynchronizedGetFrameDrainsAndHeals : Prop :=
  ∀ (s : State) (ch : Ch) (k : Nat) (rest : List Move), BlockInv s → s.fg = .ready → s.seq.phase ≠ .run →
    (s.rb (rxOf ch)).init = true → (s.chn ch).pending ≠ 0 → Config.term ch ∉ s.queue (rxOf ch) →
    k = (if (s.rb (rxOf ch)).count = (s.rb (rxOf ch)).cap then (s.rb (rxOf ch)).count else (s.rb (rxOf ch)).count + 1) →
    s.moves = .command (encode (.chGetFrame ch)) :: List.replicate k .fg ++ rest →
    ∃ t, core.run (k + 1) s = .next t ∧ t.moves = rest ∧ t.fg = .ready ∧ t.queue (rxOf ch) = [] ∧
      (t.chn ch).pending = (s.chn ch).pending - 1 ∧ (t.chn ch).frameLen = 0 ∧ t.frameByte ch 0 = 0x00 ∧
      t.status = 0x04 ∧ t.result = 0

/-- R161: CH_PENDING, before CH_INIT too. -/
def Obligations.ChPendingResult : Prop :=
  ∀ (ch : Ch) (s : State), exec (.chPending ch) s = .next { s with
    status := 0x00, result := (s.chn ch).pending, trace := s.trace ++ [.resp 0x24 .ok (s.chn ch).pending] }

/-- R153: RX_BYTE: a byte RX cannot take is dropped, and nothing else changes; an admitted byte is stored, and the counter goes up by one,
modulo 2^32, exactly when it is the channel's terminator; no response. -/
def Obligations.RxByteResult : Prop :=
  ∀ (ch : Ch) (v : Byte) (s : State),
    (((s.rb (rxOf ch)).init = false ∨ (s.rb (rxOf ch)).count = (s.rb (rxOf ch)).cap) →
      exec (.rxByte ch v) s = .next { s with trace := s.trace ++ [.rxDrop ch v] }) ∧
    ((s.rb (rxOf ch)).init = true → (s.rb (rxOf ch)).count ≠ (s.rb (rxOf ch)).cap →
      ∃ t, exec (.rxByte ch v) s = .next t ∧
        t.storeByte (rxOf ch) (s.rb (rxOf ch)).head = v ∧
        (t.rb (rxOf ch)).head = ((s.rb (rxOf ch)).head + 1) % (s.rb (rxOf ch)).cap ∧
        (t.rb (rxOf ch)).count = (s.rb (rxOf ch)).count + 1 ∧
        (v = Config.term ch → (t.chn ch).pending.toNat = ((s.chn ch).pending.toNat + 1) % 2 ^ 32) ∧
        (v ≠ Config.term ch → (t.chn ch).pending = (s.chn ch).pending) ∧
        t.trace = s.trace ∧ t.status = s.status ∧ t.result = s.result)

/-- R154: TX_READY: the oldest byte of TX goes to the wire; an empty (or uninitialized) TX disarms the channel. -/
def Obligations.TxReadyResult : Prop :=
  ∀ (ch : Ch) (s : State),
    (((s.rb (txOf ch)).init = false ∨ (s.rb (txOf ch)).count = 0) → exec (.txReady ch) s = .next
      { s.setChn ch { s.chn ch with armed := false } with trace := s.trace ++ [.txIdle ch] }) ∧
    ((s.rb (txOf ch)).init = true → (s.rb (txOf ch)).count ≠ 0 → exec (.txReady ch) s = .next
      { s.setRb (txOf ch) { s.rb (txOf ch) with
          tail := ((s.rb (txOf ch)).tail + 1) % (s.rb (txOf ch)).cap, count := (s.rb (txOf ch)).count - 1 } with
        trace := s.trace ++ [.tx ch (s.storeByte (txOf ch) (s.rb (txOf ch)).tail)] })

/-- The frame of the channel commands and transport events (R151 to R158, R161, R204): the other channel, the timer unit, the tick and the moves to
come stay; the frame output arrays read as before; every stored byte reads as before, but for the byte at `head` of TX where CH_SEND admits its byte and
of RX where RX_BYTE does; the buffer of the channel that the instruction does not name stays, and of the one a push goes to `init`, `cap` and `tail`. That stored
bytes outside Q(b) read as before is the model's choice, log 4, and that FRAME_BUF does after a CH_GETFRAME that returns NotInitialized, log 5. -/
def Obligations.ChannelInstructionFrame : Prop :=
  ∀ (ch : Ch) (i : Instr) (s t : State),
    ((∃ c, i = .chInit ch c) ∨ (∃ v, i = .chSend ch v) ∨ i = .chRecv ch ∨ i = .chGetFrame ch ∨ i = .chPending ch ∨
      (∃ v, i = .rxByte ch v) ∨ i = .txReady ch) → exec i s = .next t →
    (∀ ch', ch' ≠ ch → SameChannel ch' s t) ∧ SameTimers s t ∧ t.tick = s.tick ∧ t.moves = s.moves ∧ SameFrameBytes s t ∧
    (t.chn ch).frameLen = (s.chn ch).frameLen ∧
    (∀ v, i = .chSend ch v → t.rb (rxOf ch) = s.rb (rxOf ch) ∧ t.fg = s.fg ∧
      (t.rb (txOf ch)).init = (s.rb (txOf ch)).init ∧ (t.rb (txOf ch)).cap = (s.rb (txOf ch)).cap ∧
      (t.rb (txOf ch)).tail = (s.rb (txOf ch)).tail ∧
      (t.chn ch).pending = (s.chn ch).pending ∧ (t.chn ch).gfK = (s.chn ch).gfK ∧
      ∀ b j, ¬(b = txOf ch ∧ j = (s.rb (txOf ch)).head ∧ (s.rb (txOf ch)).init = true ∧
        (s.rb (txOf ch)).count ≠ (s.rb (txOf ch)).cap) → t.storeByte b j = s.storeByte b j) ∧
    (∀ v, i = .rxByte ch v → t.rb (txOf ch) = s.rb (txOf ch) ∧ t.fg = s.fg ∧
      (t.rb (rxOf ch)).init = (s.rb (rxOf ch)).init ∧ (t.rb (rxOf ch)).cap = (s.rb (rxOf ch)).cap ∧
      (t.rb (rxOf ch)).tail = (s.rb (rxOf ch)).tail ∧
      (t.chn ch).armed = (s.chn ch).armed ∧ (t.chn ch).gfK = (s.chn ch).gfK ∧
      ∀ b j, ¬(b = rxOf ch ∧ j = (s.rb (rxOf ch)).head ∧ (s.rb (rxOf ch)).init = true ∧
        (s.rb (rxOf ch)).count ≠ (s.rb (rxOf ch)).cap) → t.storeByte b j = s.storeByte b j) ∧
    ((∀ v, i ≠ .chSend ch v ∧ i ≠ .rxByte ch v) → SameStorage s t) ∧
    ((∃ c, i = .chInit ch c) → t.fg = s.fg ∧ (t.chn ch).gfK = (s.chn ch).gfK) ∧
    (i = .chRecv ch → t.rb (txOf ch) = s.rb (txOf ch) ∧ t.chn ch = s.chn ch) ∧
    (i = .chGetFrame ch → (∀ b, t.rb b = s.rb b) ∧ (t.chn ch).pending = (s.chn ch).pending ∧
      (t.chn ch).armed = (s.chn ch).armed) ∧
    (i = .txReady ch → t.rb (rxOf ch) = s.rb (rxOf ch) ∧ t.fg = s.fg ∧ t.status = s.status ∧ t.result = s.result ∧
      (t.chn ch).pending = (s.chn ch).pending ∧ (t.chn ch).gfK = (s.chn ch).gfK)

/-! Rules of the whole machine. -/

/-- R156, no lost wakeup: after a CH_SEND that returns OK the byte is in TX and the channel is armed; while a channel is armed, no step other than
TX_READY, RB_POP, RB_INIT or CH_INIT on it removes a byte of TX or disarms it; and TX_READY on a TX that is not empty sends the oldest byte and keeps the
channel armed. -/
def Obligations.NoLostTransmitWakeup : Prop :=
  (∀ (s : State) (ch : Ch) (v : Byte), BlockInv s → (s.rb (txOf ch)).init = true → (s.rb (txOf ch)).count ≠ (s.rb (txOf ch)).cap →
    ∃ t, exec (.chSend ch v) s = .next t ∧ t.queue (txOf ch) = s.queue (txOf ch) ++ [v] ∧ (t.chn ch).armed = true) ∧
  (∀ (s t : State) (ch : Ch), BlockInv s → step s = .next t → (s.chn ch).armed = true →
    (∀ c, s.nextInstr? ≠ some (.txReady ch) ∧ s.nextInstr? ≠ some (.rbPop (txOf ch)) ∧
      s.nextInstr? ≠ some (.rbInit (txOf ch) c) ∧ s.nextInstr? ≠ some (.chInit ch c)) →
    (t.chn ch).armed = true ∧ ∃ more, t.queue (txOf ch) = s.queue (txOf ch) ++ more) ∧
  ∀ (s : State) (ch : Ch) (v : Byte) (q : List Byte), BlockInv s → (s.chn ch).armed = true → s.queue (txOf ch) = v :: q →
    ∃ t, exec (.txReady ch) s = .next t ∧ t.queue (txOf ch) = q ∧ (t.chn ch).armed = true ∧
      t.trace = s.trace ++ [.tx ch v]

/-- R154, R156: as many TX_READY polls as an armed channel's TX holds bytes, and one more, put those bytes on the wire in queue order and then
disarm the channel. -/
def Obligations.ArmedTransmitQueueIsSentInOrder : Prop :=
  ∀ (s : State) (ch : Ch) (rest : List Move), BlockInv s → (s.chn ch).armed = true →
    s.moves = List.replicate ((s.queue (txOf ch)).length + 1) (.event (.txt ch) (encode (.txReady ch)).cmd) ++ rest →
    ∃ t, core.run ((s.queue (txOf ch)).length + 1) s = .next t ∧ t.moves = rest ∧ t.queue (txOf ch) = [] ∧
      (t.chn ch).armed = false ∧ t.trace = s.trace ++ (s.queue (txOf ch)).map (.tx ch) ++ [.txIdle ch]

/-- R35: the pending-frame counter is changed by three things only: RX_BYTE admitting a terminator (plus one), a CH_GETFRAME extraction that finishes
(minus one), and a successful CH_INIT (to 0). -/
def Obligations.PendingCounterHasThreeWriters : Prop :=
  ∀ (s t : State) (ch : Ch), step s = .next t →
    (t.chn ch).pending = (s.chn ch).pending ∨
    (s.nextInstr? = some (.rxByte ch (Config.term ch)) ∧ (s.rb (rxOf ch)).init = true ∧
      (s.rb (rxOf ch)).count ≠ (s.rb (rxOf ch)).cap ∧ (t.chn ch).pending = (s.chn ch).pending + 1) ∨
    (s.fg = .getFrame ch ∧ t.fg = .ready ∧ (t.chn ch).pending = (s.chn ch).pending - 1) ∨
    (∃ c, s.nextInstr? = some (.chInit ch c) ∧ c ≠ 0 ∧ c.toNat ≤ Config.storeSize ch ∧ (t.chn ch).pending = 0)

/-- R25: the transmit-enable flag is set only by CH_SEND and cleared only by a TX_READY that finds TX empty or by a successful CH_INIT. -/
def Obligations.ArmedFlagHasThreeWriters : Prop :=
  ∀ (s t : State) (ch : Ch), BlockInv s → step s = .next t →
    ((s.chn ch).armed = false → (t.chn ch).armed = true → ∃ v, s.nextInstr? = some (.chSend ch v)) ∧
    ((s.chn ch).armed = true → (t.chn ch).armed = false →
      (s.nextInstr? = some (.txReady ch) ∧ (s.rb (txOf ch)).count = 0) ∨
      ∃ c, s.nextInstr? = some (.chInit ch c) ∧ c ≠ 0 ∧ c.toNat ≤ Config.storeSize ch)

/-- R21, R44: every step appends at most one event to the trace; STATUS and RESULT change only when a command completes, and then they hold what its RESP
event says. -/
def Obligations.ResponseRegistersChangeOnlyWithAResponse : Prop :=
  ∀ s t : State, step s = .next t →
    ∃ es : List TraceEvent, t.trace = s.trace ++ es ∧ es.length ≤ 1 ∧
      ((∀ op st r, TraceEvent.resp op st r ∉ es) → t.status = s.status ∧ t.result = s.result) ∧
      ∀ op st r, TraceEvent.resp op st r ∈ es → t.status = st.code ∧ t.result = r

/-- R138: no port event writes `tcount`, the timer table or the sequencer; TICK writes only `tick`; and nothing but TICK writes `tick` (R43). -/
def Obligations.PortEventsLeaveTheTimerTable : Prop :=
  (∀ (s t : State) (port : Port) (w : Word) (rest : List Move), s.moves = .event port w :: rest → step s = .next t →
    SameTimers s t) ∧
  (∀ s : State, exec .tick s = .next { s with tick := s.tick + 1 }) ∧
  ∀ s t : State, step s = .next t → s.nextInstr? ≠ some .tick → t.tick = s.tick

/-- R40, R41: registration is for ever: the table keeps its size, `tcount` grows only by TMR_REGISTER and by one, and no step changes the `period` or the
callback bit of a registered slot. -/
def Obligations.RegisteredTimersKeepTheirPeriod : Prop :=
  ∀ s t : State, step s = .next t → s.tcount ≤ s.nTimers →
    t.nTimers = s.nTimers ∧
    (t.tcount = s.tcount ∨ (t.tcount = s.tcount + 1 ∧ ∃ period cb, s.nextInstr? = some (.tmrRegister period cb))) ∧
    ∀ j < s.tcount, ∀ sl, s.slots[j]? = some sl →
      ∃ sl', t.slots[j]? = some sl' ∧ sl'.period = sl.period ∧ sl'.cbEn = sl.cbEn

/-- R204: the two channels and the timer unit share no state: an instruction of one channel changes nothing of the other and nothing of the
timer unit, and an instruction of the timer unit changes nothing of either channel. -/
def Obligations.ChannelsAndTimersShareNoState : Prop :=
  ∀ (i : Instr) (s t : State), exec i s = .next t →
    (∀ ch, channelOf i = some ch → SameTimers s t ∧ t.tick = s.tick ∧ ∀ ch', ch' ≠ ch → SameChannel ch' s t) ∧
    (channelOf i = none → ∀ ch, SameChannel ch s t)

/-- R191: the block raises no traps: every instruction, in every state, completes its step with a next state; and a step is refused only for an agent that
has no enabled step, never for an instruction. -/
def Obligations.EveryInstructionAnswersANextState : Prop :=
  (∀ (i : Instr) (s : State), ∃ t, exec i s = .next t) ∧
  ∀ (s : State) (r : Refusal), step s = .refused r → ∃ a, r = .notEnabled a

/-- R221: after reset FG may issue a command; every buffer command except RB_INIT and every channel command except CH_INIT and CH_PENDING returns
NotInitialized; RXT and TICK may deliver events, every RX_BYTE is dropped; TXT has no step. -/
def Obligations.AfterResetEveryBufferIsUninitialized : Prop :=
  mayIssue State.reset = true ∧
  (∀ (i : Instr) (b : BufId) (ch : Ch) (v : Byte),
    i ∈ [Instr.rbPush b v, .rbPop b, .rbIsEmpty b, .chSend ch v, .chRecv ch, .chGetFrame ch] →
    ∃ t, exec i State.reset = .next t ∧ t.status = 0x0A ∧ t.result = 0) ∧
  (∀ ch v, exec (.rxByte ch v) State.reset = .next { State.reset with trace := [.rxDrop ch v] }) ∧
  (∀ ch, (Port.rxt ch).enabled State.reset = true ∧ (Port.txt ch).enabled State.reset = false) ∧
  Port.tick.enabled State.reset = true

/-- R220: the reset values the spec states; storage bytes, FRAME_BUF, the free slots and the tick are draws and nothing is claimed of them. -/
def Obligations.ResetStateIsAsTheSpecGives : Prop :=
  State.reset.status = 0x00 ∧ State.reset.result = 0 ∧ State.reset.fg = .ready ∧
  (∀ b, (State.reset.rb b).init = false ∧ (State.reset.rb b).cap = 0 ∧ (State.reset.rb b).head = 0 ∧
    (State.reset.rb b).tail = 0 ∧ (State.reset.rb b).count = 0) ∧
  (∀ ch, (State.reset.chn ch).pending = 0 ∧ (State.reset.chn ch).armed = false ∧ (State.reset.chn ch).frameLen = 0 ∧
    (State.reset.chn ch).gfK = 0) ∧
  State.reset.tcount = 0 ∧ State.reset.seq = ⟨.idle, 0, 0, 0, 0, 0⟩ ∧ State.reset.trace = [] ∧
  1 ≤ State.reset.nTimers ∧ State.reset.nTimers ≤ 256

/-- The invariant of the block holds at reset. -/
def Obligations.ResetMeetsTheInvariant : Prop := BlockInv State.reset

/-- R28 and the ranges of R27, R37, R38, R40 to R42, R137, R190: every step, from every state that meets the invariant, leaves a state that meets it: the
descriptors stay in range with `head = (tail + count) mod cap`, every byte of every queue has been written by a push, the memories stay canonical, an armed
channel has an initialized TX, a frame extraction stays below its bound, a pass stays within the registered slots, FG and SEQ never both have a step of their
own, no registered timer has passed its period, and STATUS is a code of R190 with RESULT 0 beside every error. -/
def Obligations.EveryStepKeepsTheInvariant : Prop :=
  ∀ s t : State, BlockInv s → step s = .next t → BlockInv t

/-! Fair runs: what rests on the duties of R207 and R238, stated in `FairRun` (log 14). -/

/-- A run without end and the lists of moves agree: the first n steps of a run are the n steps of the machine from its first state with the run's first n
moves listed (log 1, log 14). -/
def Obligations.RunAgreesWithListedMoves : Prop :=
  ∀ (σ : Nat → State) (m : Nat → Move), IsRun σ m → ∀ n,
    core.run n { σ 0 with moves := (List.range n).map m } = .next { σ n with moves := [] }

/-- R130, R229, R238: in a fair run every pass ends: from any step at which a pass is in progress, a later SEQ step completes its TMR_ADVANCE with OK and
the number of triggers. -/
def Obligations.EveryPassEndsInAFairRun : Prop :=
  ∀ (σ : Nat → State) (m : Nat → Move), FairRun σ m → BlockInv (σ 0) → ∀ n, (σ n).seq.phase ≠ .idle →
    ∃ k, n ≤ k ∧ (σ k).seq.phase = .run ∧ (σ (k + 1)).seq.phase = .idle ∧ (σ (k + 1)).status = 0x00 ∧
      (σ (k + 1)).result = BitVec.ofNat 32 (σ k).seq.fired

/-- R159, R160, R238: in a fair run every CH_GETFRAME extraction ends: a later step makes FG ready, takes the counter down by one and completes the
command with OK, FrameError or NoFrameAvailable. -/
def Obligations.EveryExtractionEndsInAFairRun : Prop :=
  ∀ (σ : Nat → State) (m : Nat → Move), FairRun σ m → BlockInv (σ 0) → ∀ n ch, (σ n).fg = .getFrame ch →
    ∃ k, n ≤ k ∧ (σ k).fg = .getFrame ch ∧ (σ (k + 1)).fg = .ready ∧
      ((σ (k + 1)).chn ch).pending = ((σ k).chn ch).pending - 1 ∧
      ((σ (k + 1)).status = 0x00 ∨ (σ (k + 1)).status = 0x03 ∨ (σ (k + 1)).status = 0x04)

/-- R156, R238: in a fair run an armed channel sends what TX holds, in order, unless a raw command or a re-initialization takes bytes out of TX first. -/
def Obligations.QueuedBytesAreSentInAFairRun : Prop :=
  ∀ (σ : Nat → State) (m : Nat → Move), FairRun σ m → BlockInv (σ 0) → ∀ n ch, ((σ n).chn ch).armed = true →
    ∃ k, n ≤ k ∧ (∀ j, n ≤ j → j < k → ¬removesUnsent ch (instrAt σ m j)) ∧
      (removesUnsent ch (instrAt σ m k) ∨
        wireBytes ch (σ k).trace = wireBytes ch (σ n).trace ++ (σ n).queue (txOf ch))
end

