-- ==== Sys2Proof/Laws/Decode.lean ====
section
/-! SUPPORT. The opcode table's rows and the two decoders (spec/30_encoding.md R84 to R87). -/

namespace Sys2Proof

theorem Opcode.mem_all (o : Opcode) : o ∈ Opcode.all := by cases o <;> decide

@[simp] theorem Opcode.ofCode?_code (o : Opcode) : Opcode.ofCode? o.code = some o := by cases o <;> decide

theorem Opcode.code_injective {o o' : Opcode} (h : o.code = o'.code) : o = o' := by
  have h2 := congrArg Opcode.ofCode? h
  simpa using h2

theorem Opcode.ofCode?_eq_some {op : Byte} {o : Opcode} (h : Opcode.ofCode? op = some o) : o.code = op := by
  simpa using List.find?_some h

/-- A row is read from exactly the words it matches (R86). -/
theorem Opcode.read_eq_ok {o : Opcode} {p : Packet} {i : Instr} :
    o.read p = .ok i ↔ p.cmd &&& o.mask = o.pattern ∧ i = o.instr p := by
  unfold Opcode.read
  split
  · rename_i h
    constructor
    · intro hi; cases hi; exact ⟨h, rfl⟩
    · rintro ⟨-, rfl⟩; rfl
  · rename_i h
    constructor
    · intro hi; split at hi <;> cases hi
    · rintro ⟨hc, -⟩; exact absurd hc h

@[simp] theorem Opcode.opcode_instr (o : Opcode) (p : Packet) : (o.instr p).opcode = o := by cases o <;> rfl

/-- What the command port decodes: a command row read from the packet, chosen by its `OP` field. -/
theorem decodeCommand_eq_ok {p : Packet} {i : Instr} :
    decodeCommand p = .ok i ↔ ∃ o : Opcode, o.code = opField p.cmd ∧ o.isEvent = false ∧ o.read p = .ok i := by
  unfold decodeCommand
  constructor
  · intro h
    split at h
    · cases h
    · rename_i o ho
      split at h
      · cases h
      · rename_i he
        exact ⟨o, Opcode.ofCode?_eq_some ho, by simpa using he, h⟩
  · rintro ⟨o, hc, he, hr⟩
    rw [← hc, Opcode.ofCode?_code]
    simp [he, hr]

/-- What an event port decodes. -/
theorem decodeEvent_eq_ok {w : Word} {i : Instr} :
    decodeEvent w = .ok i ↔ ∃ o : Opcode, o.code = opField w ∧ o.isEvent = true ∧ o.read ⟨w, 0, 0⟩ = .ok i := by
  unfold decodeEvent
  constructor
  · intro h
    split at h
    · cases h
    · rename_i o ho
      split at h
      · rename_i he
        exact ⟨o, Opcode.ofCode?_eq_some ho, he, h⟩
      · cases h
  · rintro ⟨o, hc, he, hr⟩
    rw [← hc, Opcode.ofCode?_code]
    simpa [he] using hr

/-- A word a row matches has that row's `OP` value: every mask keeps the `OP` bits (R86). -/
theorem Opcode.opField_of_match {o : Opcode} {w : Word} (h : w &&& o.mask = o.pattern) : opField w = o.code := by
  have h1 : opField (w &&& o.mask) = opField w &&& opField o.mask := by simp [opField, BitVec.extractLsb'_and]
  have h2 : opField o.mask = BitVec.allOnes 8 := by cases o <;> decide
  have h3 : opField o.pattern = o.code := by cases o <;> decide
  rw [← h3, ← h, h1, h2, BitVec.and_allOnes]

/-- The bits of an encoded word, field by field (R81). -/
theorem getLsbD_packWord (o : Opcode) (ch buf : BitVec 1) (data tid : Byte) (i : Nat) :
    (packWord o ch buf data tid).getLsbD i =
      if i < 8 then o.code.getLsbD i else if i < 9 then ch.getLsbD (i - 8) else if i < 10 then buf.getLsbD (i - 9)
      else if i < 16 then false else if i < 24 then data.getLsbD (i - 16) else tid.getLsbD (i - 24) := by
  simp only [packWord, BitVec.getLsbD_append]
  split_ifs <;> first | rfl | omega | simp

namespace Machine

/-- An instruction has a port exactly when its row is an event (R85). -/
theorem portOf_eq_none_iff (i : Instr) : portOf i = none ↔ i.opcode.isEvent = false := by
  cases i <;> simp [portOf, Instr.opcode, Opcode.isEvent]

/-- No event comes from the command port (R87). -/
theorem portOf_of_decodeCommand {p : Packet} {i : Instr} (h : decodeCommand p = .ok i) : portOf i = none := by
  obtain ⟨o, -, he, hr⟩ := decodeCommand_eq_ok.mp h
  obtain ⟨-, rfl⟩ := Opcode.read_eq_ok.mp hr
  rw [portOf_eq_none_iff, Opcode.opcode_instr]
  exact he

end Machine

end Sys2Proof
end

