-- ==== Sys2Proof/Laws/Memory.lean ====
section
/-! SUPPORT. What the operations on a memory do: a read after a write, and the canonical form, which each of them keeps. -/

namespace Sys2Proof.Machine

@[simp] theorem Memory.get?_nil (i : Nat) : Memory.get? [] i = none := rfl

theorem Memory.get?_cons (j : Nat) (v : Byte) (m : Memory) (i : Nat) :
    Memory.get? ((j, v) :: m) i = if j = i then some v else Memory.get? m i := rfl

@[simp] theorem Memory.get?_set_same (m : Memory) (i : Nat) (v : Byte) : (m.set i v).get? i = some v := by
  induction m with
  | nil => simp [Memory.set, Memory.get?_cons]
  | cons c m ih =>
    obtain ⟨j, w⟩ := c
    simp only [Memory.set]
    split
    · simp [Memory.get?_cons]
    · split
      · simp [Memory.get?_cons]
      · rename_i hne
        rw [Memory.get?_cons, if_neg (fun h => hne h.symm)]
        exact ih

@[simp] theorem Memory.get?_set_ne (m : Memory) {i k : Nat} (v : Byte) (h : k ≠ i) :
    (m.set i v).get? k = m.get? k := by
  induction m with
  | nil => simp [Memory.set, Memory.get?_cons, Ne.symm h]
  | cons c m ih =>
    obtain ⟨j, w⟩ := c
    simp only [Memory.set]
    split
    · rw [Memory.get?_cons, if_neg (Ne.symm h)]
    · split
      · rename_i heq
        subst heq
        rw [Memory.get?_cons, if_neg (Ne.symm h), Memory.get?_cons, if_neg (Ne.symm h)]
      · rw [Memory.get?_cons, Memory.get?_cons, ih]

theorem Memory.get?_set (m : Memory) (i k : Nat) (v : Byte) :
    (m.set i v).get? k = if k = i then some v else m.get? k := by
  split
  · rename_i h; subst h; simp
  · rename_i h; simp [h]

theorem Memory.get?_keepUpTo (m : Memory) (n k : Nat) :
    (m.keepUpTo n).get? k = if k ≤ n then m.get? k else none := by
  induction m with
  | nil => simp [Memory.keepUpTo]
  | cons c m ih =>
    obtain ⟨j, w⟩ := c
    simp only [Memory.keepUpTo] at ih ⊢
    by_cases hj : j ≤ n
    · rw [List.filter_cons_of_pos (by simpa using hj), Memory.get?_cons, Memory.get?_cons, ih]
      by_cases hk : j = k
      · subst hk; simp [hj]
      · simp [hk]
    · rw [List.filter_cons_of_neg (by simpa using hj), Memory.get?_cons, ih]
      by_cases hk : j = k
      · subst hk; simp [hj]
      · simp [hk]

theorem Memory.mem_set {m : Memory} {i : Nat} {v : Byte} {c : Host.Cell} (h : c ∈ m.set i v) : c = (i, v) ∨ c ∈ m := by
  induction m with
  | nil => simpa [Memory.set] using h
  | cons d m ih =>
    obtain ⟨j, w⟩ := d
    simp only [Memory.set] at h
    split at h
    · simpa using h
    · split at h
      · rcases List.mem_cons.mp h with h | h
        · exact .inl h
        · exact .inr (List.mem_cons_of_mem _ h)
      · rcases List.mem_cons.mp h with h | h
        · exact .inr (h ▸ List.mem_cons_self)
        · exact (ih h).imp id (List.mem_cons_of_mem _)

theorem Memory.mem_keepUpTo {m : Memory} {n : Nat} {c : Host.Cell} (h : c ∈ m.keepUpTo n) : c ∈ m :=
  (List.mem_filter.mp h).1

/-- The canonical form as a property of pairs of cells. -/
theorem Memory.wf_iff (m : Memory) : m.wf = true ↔ m.Pairwise (fun c d => c.1 < d.1) := by
  induction m with
  | nil => simp [Memory.wf]
  | cons c m ih =>
    obtain ⟨i, v⟩ := c
    cases m with
    | nil => simp [Memory.wf]
    | cons d m =>
      obtain ⟨j, w⟩ := d
      simp only [Memory.wf, Bool.and_eq_true, decide_eq_true_eq, ih]
      constructor
      · rintro ⟨hij, hp⟩
        refine List.pairwise_cons.mpr ⟨?_, hp⟩
        intro e he
        rcases List.mem_cons.mp he with he | he
        · subst he; exact hij
        · exact Nat.lt_trans hij ((List.pairwise_cons.mp hp).1 e he)
      · intro hp
        exact ⟨(List.pairwise_cons.mp hp).1 (j, w) List.mem_cons_self, (List.pairwise_cons.mp hp).2⟩

theorem Memory.set_wf {m : Memory} (i : Nat) (v : Byte) (h : m.wf = true) : (m.set i v).wf = true := by
  rw [Memory.wf_iff] at h ⊢
  induction m with
  | nil => simp [Memory.set]
  | cons c m ih =>
    obtain ⟨j, w⟩ := c
    obtain ⟨hj, hp⟩ := List.pairwise_cons.mp h
    simp only [Memory.set]
    split
    · rename_i hlt
      refine List.pairwise_cons.mpr ⟨?_, h⟩
      intro e he
      rcases List.mem_cons.mp he with he | he
      · subst he; exact hlt
      · exact Nat.lt_trans hlt (hj e he)
    · split
      · rename_i heq
        subst heq
        exact List.pairwise_cons.mpr ⟨hj, hp⟩
      · rename_i hlt hne
        refine List.pairwise_cons.mpr ⟨?_, ih hp⟩
        intro e he
        rcases Memory.mem_set he with he | he
        · subst he; show j < i; omega
        · exact hj e he

theorem Memory.keepUpTo_wf {m : Memory} (n : Nat) (h : m.wf = true) : (m.keepUpTo n).wf = true := by
  rw [Memory.wf_iff] at h ⊢
  exact h.filter _

/-- At reset every memory is canonical: nothing is listed. -/
theorem State.reset_memories_wf :
    (∀ b, (State.reset.rb b).store.wf = true) ∧ ∀ ch, (State.reset.chn ch).frameBuf.wf = true := by
  constructor
  · rintro ⟨⟨⟩, ⟨⟩⟩ <;> rfl
  · rintro ⟨⟩ <;> rfl

end Sys2Proof.Machine
end

