-- ==== Sys2Proof/Laws/State.lean ====
section
/-! SUPPORT. One lemma for each field and each update of State: what `setRb`, `setChn`, `setArmed`, `emit`, `respond`,
`raise`, `modifySlot`, `callbackEntry`, `callbackReturn` and the plain record updates leave and what they change. -/

namespace Sys2Proof.Machine

/-! Reading a ring buffer or a channel after a plain update of another field. -/

@[simp] theorem State.rb_with_status (s : State) x (b : BufId) : ({ s with status := x } : State).rb b = s.rb b := rfl

@[simp] theorem State.rb_with_result (s : State) x (b : BufId) : ({ s with result := x } : State).rb b = s.rb b := rfl

@[simp] theorem State.rb_with_fg (s : State) x (b : BufId) : ({ s with fg := x } : State).rb b = s.rb b := rfl

@[simp] theorem State.rb_with_tcount (s : State) x (b : BufId) : ({ s with tcount := x } : State).rb b = s.rb b := rfl

@[simp] theorem State.rb_with_slots (s : State) x (b : BufId) : ({ s with slots := x } : State).rb b = s.rb b := rfl

@[simp] theorem State.rb_with_seq (s : State) x (b : BufId) : ({ s with seq := x } : State).rb b = s.rb b := rfl

@[simp] theorem State.rb_with_tick (s : State) x (b : BufId) : ({ s with tick := x } : State).rb b = s.rb b := rfl

@[simp] theorem State.rb_with_trace (s : State) x (b : BufId) : ({ s with trace := x } : State).rb b = s.rb b := rfl

@[simp] theorem State.rb_with_moves (s : State) x (b : BufId) : ({ s with moves := x } : State).rb b = s.rb b := rfl

@[simp] theorem State.rb_with_host (s : State) x (b : BufId) : ({ s with host := x } : State).rb b = s.rb b := rfl

@[simp] theorem State.rb_with_modem (s : State) x (b : BufId) : ({ s with modem := x } : State).rb b = s.rb b := rfl

@[simp] theorem State.chn_with_status (s : State) x (ch : Ch) : ({ s with status := x } : State).chn ch = s.chn ch := rfl

@[simp] theorem State.chn_with_result (s : State) x (ch : Ch) : ({ s with result := x } : State).chn ch = s.chn ch := rfl

@[simp] theorem State.chn_with_fg (s : State) x (ch : Ch) : ({ s with fg := x } : State).chn ch = s.chn ch := rfl

@[simp] theorem State.chn_with_tcount (s : State) x (ch : Ch) : ({ s with tcount := x } : State).chn ch = s.chn ch := rfl

@[simp] theorem State.chn_with_slots (s : State) x (ch : Ch) : ({ s with slots := x } : State).chn ch = s.chn ch := rfl

@[simp] theorem State.chn_with_seq (s : State) x (ch : Ch) : ({ s with seq := x } : State).chn ch = s.chn ch := rfl

@[simp] theorem State.chn_with_tick (s : State) x (ch : Ch) : ({ s with tick := x } : State).chn ch = s.chn ch := rfl

@[simp] theorem State.chn_with_trace (s : State) x (ch : Ch) : ({ s with trace := x } : State).chn ch = s.chn ch := rfl

@[simp] theorem State.chn_with_moves (s : State) x (ch : Ch) : ({ s with moves := x } : State).chn ch = s.chn ch := rfl

@[simp] theorem State.chn_with_hostRx (s : State) x (ch : Ch) : ({ s with hostRx := x } : State).chn ch = s.chn ch := rfl

@[simp] theorem State.chn_with_hostTx (s : State) x (ch : Ch) : ({ s with hostTx := x } : State).chn ch = s.chn ch := rfl

@[simp] theorem State.chn_with_modemRx (s : State) x (ch : Ch) : ({ s with modemRx := x } : State).chn ch = s.chn ch := rfl

@[simp] theorem State.chn_with_modemTx (s : State) x (ch : Ch) : ({ s with modemTx := x } : State).chn ch = s.chn ch := rfl

/-! `setRb`. -/

@[simp] theorem State.setRb_status (s : State) (b : BufId) (r : Ring) : (s.setRb b r).status = s.status := by
  rcases b with ⟨⟨⟩, ⟨⟩⟩ <;> rfl

@[simp] theorem State.setRb_result (s : State) (b : BufId) (r : Ring) : (s.setRb b r).result = s.result := by
  rcases b with ⟨⟨⟩, ⟨⟩⟩ <;> rfl

@[simp] theorem State.setRb_fg (s : State) (b : BufId) (r : Ring) : (s.setRb b r).fg = s.fg := by
  rcases b with ⟨⟨⟩, ⟨⟩⟩ <;> rfl

@[simp] theorem State.setRb_tcount (s : State) (b : BufId) (r : Ring) : (s.setRb b r).tcount = s.tcount := by
  rcases b with ⟨⟨⟩, ⟨⟩⟩ <;> rfl

@[simp] theorem State.setRb_slots (s : State) (b : BufId) (r : Ring) : (s.setRb b r).slots = s.slots := by
  rcases b with ⟨⟨⟩, ⟨⟩⟩ <;> rfl

@[simp] theorem State.setRb_seq (s : State) (b : BufId) (r : Ring) : (s.setRb b r).seq = s.seq := by
  rcases b with ⟨⟨⟩, ⟨⟩⟩ <;> rfl

@[simp] theorem State.setRb_tick (s : State) (b : BufId) (r : Ring) : (s.setRb b r).tick = s.tick := by
  rcases b with ⟨⟨⟩, ⟨⟩⟩ <;> rfl

@[simp] theorem State.setRb_trace (s : State) (b : BufId) (r : Ring) : (s.setRb b r).trace = s.trace := by
  rcases b with ⟨⟨⟩, ⟨⟩⟩ <;> rfl

@[simp] theorem State.setRb_moves (s : State) (b : BufId) (r : Ring) : (s.setRb b r).moves = s.moves := by
  rcases b with ⟨⟨⟩, ⟨⟩⟩ <;> rfl

@[simp] theorem State.setRb_host (s : State) (b : BufId) (r : Ring) : (s.setRb b r).host = s.host := by
  rcases b with ⟨⟨⟩, ⟨⟩⟩ <;> rfl

@[simp] theorem State.setRb_modem (s : State) (b : BufId) (r : Ring) : (s.setRb b r).modem = s.modem := by
  rcases b with ⟨⟨⟩, ⟨⟩⟩ <;> rfl

@[simp] theorem State.rb_setRb_same (s : State) (b : BufId) (r : Ring) : (s.setRb b r).rb b = r := by
  rcases b with ⟨⟨⟩, ⟨⟩⟩ <;> rfl

theorem State.rb_setRb_ne (s : State) {b b' : BufId} (r : Ring) (h : b' ≠ b) : (s.setRb b r).rb b' = s.rb b' := by
  rcases b with ⟨⟨⟩, ⟨⟩⟩ <;> rcases b' with ⟨⟨⟩, ⟨⟩⟩ <;> first | rfl | exact absurd rfl h

theorem State.rb_setRb (s : State) (b b' : BufId) (r : Ring) :
    (s.setRb b r).rb b' = if b' = b then r else s.rb b' := by
  split
  · rename_i h; subst h; simp
  · rename_i h; exact State.rb_setRb_ne s r h

@[simp] theorem State.chn_setRb (s : State) (b : BufId) (r : Ring) (ch : Ch) : (s.setRb b r).chn ch = s.chn ch := by
  cases ch <;> simp [State.chn]

/-! `setChn` and `setArmed`. -/

@[simp] theorem State.setChn_status (s : State) (ch : Ch) (c : Channel) : (s.setChn ch c).status = s.status := by
  cases ch <;> rfl

@[simp] theorem State.setChn_result (s : State) (ch : Ch) (c : Channel) : (s.setChn ch c).result = s.result := by
  cases ch <;> rfl

@[simp] theorem State.setChn_fg (s : State) (ch : Ch) (c : Channel) : (s.setChn ch c).fg = s.fg := by
  cases ch <;> rfl

@[simp] theorem State.setChn_tcount (s : State) (ch : Ch) (c : Channel) : (s.setChn ch c).tcount = s.tcount := by
  cases ch <;> rfl

@[simp] theorem State.setChn_slots (s : State) (ch : Ch) (c : Channel) : (s.setChn ch c).slots = s.slots := by
  cases ch <;> rfl

@[simp] theorem State.setChn_seq (s : State) (ch : Ch) (c : Channel) : (s.setChn ch c).seq = s.seq := by
  cases ch <;> rfl

@[simp] theorem State.setChn_tick (s : State) (ch : Ch) (c : Channel) : (s.setChn ch c).tick = s.tick := by
  cases ch <;> rfl

@[simp] theorem State.setChn_trace (s : State) (ch : Ch) (c : Channel) : (s.setChn ch c).trace = s.trace := by
  cases ch <;> rfl

@[simp] theorem State.setChn_moves (s : State) (ch : Ch) (c : Channel) : (s.setChn ch c).moves = s.moves := by
  cases ch <;> rfl

@[simp] theorem State.setChn_hostRx (s : State) (ch : Ch) (c : Channel) : (s.setChn ch c).hostRx = s.hostRx := by
  cases ch <;> rfl

@[simp] theorem State.setChn_hostTx (s : State) (ch : Ch) (c : Channel) : (s.setChn ch c).hostTx = s.hostTx := by
  cases ch <;> rfl

@[simp] theorem State.setChn_modemRx (s : State) (ch : Ch) (c : Channel) : (s.setChn ch c).modemRx = s.modemRx := by
  cases ch <;> rfl

@[simp] theorem State.setChn_modemTx (s : State) (ch : Ch) (c : Channel) : (s.setChn ch c).modemTx = s.modemTx := by
  cases ch <;> rfl

@[simp] theorem State.chn_setChn_same (s : State) (ch : Ch) (c : Channel) : (s.setChn ch c).chn ch = c := by
  cases ch <;> rfl

theorem State.chn_setChn_ne (s : State) {ch ch' : Ch} (c : Channel) (h : ch' ≠ ch) :
    (s.setChn ch c).chn ch' = s.chn ch' := by
  cases ch <;> cases ch' <;> first | rfl | exact absurd rfl h

theorem State.chn_setChn (s : State) (ch ch' : Ch) (c : Channel) :
    (s.setChn ch c).chn ch' = if ch' = ch then c else s.chn ch' := by
  split
  · rename_i h; subst h; simp
  · rename_i h; exact State.chn_setChn_ne s c h

@[simp] theorem State.rb_setChn (s : State) (ch : Ch) (c : Channel) (b : BufId) : (s.setChn ch c).rb b = s.rb b := by
  cases ch <;> rfl

@[simp] theorem State.setArmed_status (s : State) (ch : Ch) (v : Bool) : (s.setArmed ch v).status = s.status := by
  simp [State.setArmed]

@[simp] theorem State.setArmed_result (s : State) (ch : Ch) (v : Bool) : (s.setArmed ch v).result = s.result := by
  simp [State.setArmed]

@[simp] theorem State.setArmed_fg (s : State) (ch : Ch) (v : Bool) : (s.setArmed ch v).fg = s.fg := by
  simp [State.setArmed]

@[simp] theorem State.setArmed_tcount (s : State) (ch : Ch) (v : Bool) : (s.setArmed ch v).tcount = s.tcount := by
  simp [State.setArmed]

@[simp] theorem State.setArmed_slots (s : State) (ch : Ch) (v : Bool) : (s.setArmed ch v).slots = s.slots := by
  simp [State.setArmed]

@[simp] theorem State.setArmed_seq (s : State) (ch : Ch) (v : Bool) : (s.setArmed ch v).seq = s.seq := by
  simp [State.setArmed]

@[simp] theorem State.setArmed_tick (s : State) (ch : Ch) (v : Bool) : (s.setArmed ch v).tick = s.tick := by
  simp [State.setArmed]

@[simp] theorem State.setArmed_trace (s : State) (ch : Ch) (v : Bool) : (s.setArmed ch v).trace = s.trace := by
  simp [State.setArmed]

@[simp] theorem State.setArmed_moves (s : State) (ch : Ch) (v : Bool) : (s.setArmed ch v).moves = s.moves := by
  simp [State.setArmed]

@[simp] theorem State.setArmed_hostRx (s : State) (ch : Ch) (v : Bool) : (s.setArmed ch v).hostRx = s.hostRx := by
  simp [State.setArmed]

@[simp] theorem State.setArmed_hostTx (s : State) (ch : Ch) (v : Bool) : (s.setArmed ch v).hostTx = s.hostTx := by
  simp [State.setArmed]

@[simp] theorem State.setArmed_modemRx (s : State) (ch : Ch) (v : Bool) : (s.setArmed ch v).modemRx = s.modemRx := by
  simp [State.setArmed]

@[simp] theorem State.setArmed_modemTx (s : State) (ch : Ch) (v : Bool) : (s.setArmed ch v).modemTx = s.modemTx := by
  simp [State.setArmed]

@[simp] theorem State.rb_setArmed (s : State) (ch : Ch) (v : Bool) (b : BufId) : (s.setArmed ch v).rb b = s.rb b := by
  simp [State.setArmed]

@[simp] theorem State.chn_setArmed_same (s : State) (ch : Ch) (v : Bool) :
    (s.setArmed ch v).chn ch = { s.chn ch with armed := v } := by
  simp [State.setArmed]

theorem State.chn_setArmed_ne (s : State) {ch ch' : Ch} (v : Bool) (h : ch' ≠ ch) :
    (s.setArmed ch v).chn ch' = s.chn ch' := by
  simp [State.setArmed, State.chn_setChn_ne s _ h]

/-! `emit`, `respond` and `raise`. -/

@[simp] theorem emit_status (e : TraceEvent) (s : State) : (emit e s).status = s.status := rfl

@[simp] theorem emit_result (e : TraceEvent) (s : State) : (emit e s).result = s.result := rfl

@[simp] theorem emit_fg (e : TraceEvent) (s : State) : (emit e s).fg = s.fg := rfl

@[simp] theorem emit_tcount (e : TraceEvent) (s : State) : (emit e s).tcount = s.tcount := rfl

@[simp] theorem emit_slots (e : TraceEvent) (s : State) : (emit e s).slots = s.slots := rfl

@[simp] theorem emit_seq (e : TraceEvent) (s : State) : (emit e s).seq = s.seq := rfl

@[simp] theorem emit_tick (e : TraceEvent) (s : State) : (emit e s).tick = s.tick := rfl

@[simp] theorem emit_moves (e : TraceEvent) (s : State) : (emit e s).moves = s.moves := rfl

@[simp] theorem emit_hostRx (e : TraceEvent) (s : State) : (emit e s).hostRx = s.hostRx := rfl

@[simp] theorem emit_hostTx (e : TraceEvent) (s : State) : (emit e s).hostTx = s.hostTx := rfl

@[simp] theorem emit_modemRx (e : TraceEvent) (s : State) : (emit e s).modemRx = s.modemRx := rfl

@[simp] theorem emit_modemTx (e : TraceEvent) (s : State) : (emit e s).modemTx = s.modemTx := rfl

@[simp] theorem emit_host (e : TraceEvent) (s : State) : (emit e s).host = s.host := rfl

@[simp] theorem emit_modem (e : TraceEvent) (s : State) : (emit e s).modem = s.modem := rfl

@[simp] theorem emit_trace (e : TraceEvent) (s : State) : (emit e s).trace = s.trace ++ [e] := rfl

@[simp] theorem rb_emit (e : TraceEvent) (s : State) (b : BufId) : (emit e s).rb b = s.rb b := rfl

@[simp] theorem chn_emit (e : TraceEvent) (s : State) (ch : Ch) : (emit e s).chn ch = s.chn ch := rfl

@[simp] theorem respond_fg (op : Byte) (st : Status) (r : Word) (s : State) : (respond op st r s).fg = s.fg := rfl

@[simp] theorem respond_tcount (op : Byte) (st : Status) (r : Word) (s : State) : (respond op st r s).tcount = s.tcount := rfl

@[simp] theorem respond_slots (op : Byte) (st : Status) (r : Word) (s : State) : (respond op st r s).slots = s.slots := rfl

@[simp] theorem respond_seq (op : Byte) (st : Status) (r : Word) (s : State) : (respond op st r s).seq = s.seq := rfl

@[simp] theorem respond_tick (op : Byte) (st : Status) (r : Word) (s : State) : (respond op st r s).tick = s.tick := rfl

@[simp] theorem respond_moves (op : Byte) (st : Status) (r : Word) (s : State) : (respond op st r s).moves = s.moves := rfl

@[simp] theorem respond_hostRx (op : Byte) (st : Status) (r : Word) (s : State) : (respond op st r s).hostRx = s.hostRx := rfl

@[simp] theorem respond_hostTx (op : Byte) (st : Status) (r : Word) (s : State) : (respond op st r s).hostTx = s.hostTx := rfl

@[simp] theorem respond_modemRx (op : Byte) (st : Status) (r : Word) (s : State) : (respond op st r s).modemRx = s.modemRx := rfl

@[simp] theorem respond_modemTx (op : Byte) (st : Status) (r : Word) (s : State) : (respond op st r s).modemTx = s.modemTx := rfl

@[simp] theorem respond_host (op : Byte) (st : Status) (r : Word) (s : State) : (respond op st r s).host = s.host := rfl

@[simp] theorem respond_modem (op : Byte) (st : Status) (r : Word) (s : State) : (respond op st r s).modem = s.modem := rfl

@[simp] theorem respond_status (op : Byte) (st : Status) (r : Word) (s : State) : (respond op st r s).status = st.code := rfl

@[simp] theorem respond_result (op : Byte) (st : Status) (r : Word) (s : State) : (respond op st r s).result = r := rfl

@[simp] theorem respond_trace (op : Byte) (st : Status) (r : Word) (s : State) :
    (respond op st r s).trace = s.trace ++ [.resp op st r] := rfl

@[simp] theorem rb_respond (op : Byte) (st : Status) (r : Word) (s : State) (b : BufId) :
    (respond op st r s).rb b = s.rb b := rfl

@[simp] theorem chn_respond (op : Byte) (st : Status) (r : Word) (s : State) (ch : Ch) :
    (respond op st r s).chn ch = s.chn ch := rfl

/-- `raise` is `respond` with result 0 (R16). -/
@[simp] theorem raise_eq (op : Byte) (st : Status) (s : State) : raise op st s = respond op st 0 s := rfl

/-! `modifySlot`. -/

@[simp] theorem State.modifySlot_status (s : State) (i : Nat) (f : Slot → Slot) : (s.modifySlot i f).status = s.status := by
  unfold State.modifySlot; split <;> rfl

@[simp] theorem State.modifySlot_result (s : State) (i : Nat) (f : Slot → Slot) : (s.modifySlot i f).result = s.result := by
  unfold State.modifySlot; split <;> rfl

@[simp] theorem State.modifySlot_fg (s : State) (i : Nat) (f : Slot → Slot) : (s.modifySlot i f).fg = s.fg := by
  unfold State.modifySlot; split <;> rfl

@[simp] theorem State.modifySlot_tcount (s : State) (i : Nat) (f : Slot → Slot) : (s.modifySlot i f).tcount = s.tcount := by
  unfold State.modifySlot; split <;> rfl

@[simp] theorem State.modifySlot_seq (s : State) (i : Nat) (f : Slot → Slot) : (s.modifySlot i f).seq = s.seq := by
  unfold State.modifySlot; split <;> rfl

@[simp] theorem State.modifySlot_tick (s : State) (i : Nat) (f : Slot → Slot) : (s.modifySlot i f).tick = s.tick := by
  unfold State.modifySlot; split <;> rfl

@[simp] theorem State.modifySlot_trace (s : State) (i : Nat) (f : Slot → Slot) : (s.modifySlot i f).trace = s.trace := by
  unfold State.modifySlot; split <;> rfl

@[simp] theorem State.modifySlot_moves (s : State) (i : Nat) (f : Slot → Slot) : (s.modifySlot i f).moves = s.moves := by
  unfold State.modifySlot; split <;> rfl

@[simp] theorem State.modifySlot_hostRx (s : State) (i : Nat) (f : Slot → Slot) : (s.modifySlot i f).hostRx = s.hostRx := by
  unfold State.modifySlot; split <;> rfl

@[simp] theorem State.modifySlot_hostTx (s : State) (i : Nat) (f : Slot → Slot) : (s.modifySlot i f).hostTx = s.hostTx := by
  unfold State.modifySlot; split <;> rfl

@[simp] theorem State.modifySlot_modemRx (s : State) (i : Nat) (f : Slot → Slot) : (s.modifySlot i f).modemRx = s.modemRx := by
  unfold State.modifySlot; split <;> rfl

@[simp] theorem State.modifySlot_modemTx (s : State) (i : Nat) (f : Slot → Slot) : (s.modifySlot i f).modemTx = s.modemTx := by
  unfold State.modifySlot; split <;> rfl

@[simp] theorem State.modifySlot_host (s : State) (i : Nat) (f : Slot → Slot) : (s.modifySlot i f).host = s.host := by
  unfold State.modifySlot; split <;> rfl

@[simp] theorem State.modifySlot_modem (s : State) (i : Nat) (f : Slot → Slot) : (s.modifySlot i f).modem = s.modem := by
  unfold State.modifySlot; split <;> rfl

@[simp] theorem State.rb_modifySlot (s : State) (i : Nat) (f : Slot → Slot) (b : BufId) :
    (s.modifySlot i f).rb b = s.rb b := by
  unfold State.modifySlot; split <;> rfl

@[simp] theorem State.chn_modifySlot (s : State) (i : Nat) (f : Slot → Slot) (ch : Ch) :
    (s.modifySlot i f).chn ch = s.chn ch := by
  unfold State.modifySlot; split <;> rfl

@[simp] theorem State.modifySlot_nTimers (s : State) (i : Nat) (f : Slot → Slot) :
    (s.modifySlot i f).nTimers = s.nTimers := by
  unfold State.modifySlot State.nTimers; split <;> simp

theorem State.modifySlot_slot (s : State) (i j : Nat) (f : Slot → Slot) :
    (s.modifySlot i f).slots[j]? = if j = i then s.slots[j]?.map f else s.slots[j]? := by
  unfold State.modifySlot
  by_cases hj : j = i
  · subst hj
    cases h : s.slots[j]? with
    | none => simp [h]
    | some sl =>
      have hl : j < s.slots.length := (List.getElem?_eq_some_iff.mp h).1
      simp [List.getElem?_set_self hl]
  · rw [if_neg hj]
    split
    · exact List.getElem?_set_ne (Ne.symm hj)
    · rfl

/-! Callback entry and return. -/

@[simp] theorem callbackEntry_status (j : Nat) (s : State) : (callbackEntry j s).status = s.status := rfl

@[simp] theorem callbackEntry_result (j : Nat) (s : State) : (callbackEntry j s).result = s.result := rfl

@[simp] theorem callbackEntry_fg (j : Nat) (s : State) : (callbackEntry j s).fg = s.fg := rfl

@[simp] theorem callbackEntry_tcount (j : Nat) (s : State) : (callbackEntry j s).tcount = s.tcount := rfl

@[simp] theorem callbackEntry_slots (j : Nat) (s : State) : (callbackEntry j s).slots = s.slots := rfl

@[simp] theorem callbackEntry_tick (j : Nat) (s : State) : (callbackEntry j s).tick = s.tick := rfl

@[simp] theorem callbackEntry_moves (j : Nat) (s : State) : (callbackEntry j s).moves = s.moves := rfl

@[simp] theorem callbackEntry_hostRx (j : Nat) (s : State) : (callbackEntry j s).hostRx = s.hostRx := rfl

@[simp] theorem callbackEntry_hostTx (j : Nat) (s : State) : (callbackEntry j s).hostTx = s.hostTx := rfl

@[simp] theorem callbackEntry_modemRx (j : Nat) (s : State) : (callbackEntry j s).modemRx = s.modemRx := rfl

@[simp] theorem callbackEntry_modemTx (j : Nat) (s : State) : (callbackEntry j s).modemTx = s.modemTx := rfl

@[simp] theorem callbackEntry_host (j : Nat) (s : State) : (callbackEntry j s).host = s.host := rfl

@[simp] theorem callbackEntry_modem (j : Nat) (s : State) : (callbackEntry j s).modem = s.modem := rfl

@[simp] theorem callbackEntry_trace (j : Nat) (s : State) : (callbackEntry j s).trace = s.trace ++ [.trig j] := rfl

@[simp] theorem callbackEntry_seq (j : Nat) (s : State) :
    (callbackEntry j s).seq = { s.seq with fired := s.seq.fired + 1, cbId := j, phase := .waitCb } := rfl

@[simp] theorem rb_callbackEntry (j : Nat) (s : State) (b : BufId) : (callbackEntry j s).rb b = s.rb b := rfl

@[simp] theorem chn_callbackEntry (j : Nat) (s : State) (ch : Ch) : (callbackEntry j s).chn ch = s.chn ch := rfl

@[simp] theorem callbackReturn_status (s : State) : (callbackReturn s).status = s.status := rfl

@[simp] theorem callbackReturn_result (s : State) : (callbackReturn s).result = s.result := rfl

@[simp] theorem callbackReturn_fg (s : State) : (callbackReturn s).fg = s.fg := rfl

@[simp] theorem callbackReturn_tcount (s : State) : (callbackReturn s).tcount = s.tcount := rfl

@[simp] theorem callbackReturn_slots (s : State) : (callbackReturn s).slots = s.slots := rfl

@[simp] theorem callbackReturn_tick (s : State) : (callbackReturn s).tick = s.tick := rfl

@[simp] theorem callbackReturn_trace (s : State) : (callbackReturn s).trace = s.trace := rfl

@[simp] theorem callbackReturn_moves (s : State) : (callbackReturn s).moves = s.moves := rfl

@[simp] theorem callbackReturn_hostRx (s : State) : (callbackReturn s).hostRx = s.hostRx := rfl

@[simp] theorem callbackReturn_hostTx (s : State) : (callbackReturn s).hostTx = s.hostTx := rfl

@[simp] theorem callbackReturn_modemRx (s : State) : (callbackReturn s).modemRx = s.modemRx := rfl

@[simp] theorem callbackReturn_modemTx (s : State) : (callbackReturn s).modemTx = s.modemTx := rfl

@[simp] theorem callbackReturn_host (s : State) : (callbackReturn s).host = s.host := rfl

@[simp] theorem callbackReturn_modem (s : State) : (callbackReturn s).modem = s.modem := rfl

@[simp] theorem callbackReturn_seq (s : State) : (callbackReturn s).seq = { s.seq with phase := .run } := rfl

@[simp] theorem rb_callbackReturn (s : State) (b : BufId) : (callbackReturn s).rb b = s.rb b := rfl

@[simp] theorem chn_callbackReturn (s : State) (ch : Ch) : (callbackReturn s).chn ch = s.chn ch := rfl

end Sys2Proof.Machine
end

