-- ==== Sys2Proof/Laws/Ops.lean ====
section
/-! SUPPORT. What each shared operation can do, once: the ring-buffer subroutines in each of their outcomes (spec/40_ringbuffer.md R100 to
R102), the reads of single bytes after an update, and the status codes. -/

namespace Sys2Proof.Machine

/-! `RbInit`. -/

theorem rbInit_illegal {b : BufId} {c : Word} (s : State) (h : c = 0 ∨ Config.storeSize b.ch < c.toNat) :
    rbInit b c s = (.invalidConfiguration, s) := if_pos h

theorem rbInit_legal {b : BufId} {c : Word} (s : State) (h0 : c ≠ 0) (h : c.toNat ≤ Config.storeSize b.ch) :
    rbInit b c s =
      (.ok, s.setRb b { s.rb b with init := true, cap := c.toNat, head := 0, tail := 0, count := 0 }) :=
  if_neg (fun hc => hc.elim h0 (fun hlt => absurd hlt (Nat.not_lt.mpr h)))

theorem rbInit_cases (b : BufId) (c : Word) (s : State) :
    ((c = 0 ∨ Config.storeSize b.ch < c.toNat) ∧ rbInit b c s = (.invalidConfiguration, s)) ∨
    (c ≠ 0 ∧ c.toNat ≤ Config.storeSize b.ch ∧ rbInit b c s =
      (.ok, s.setRb b { s.rb b with init := true, cap := c.toNat, head := 0, tail := 0, count := 0 })) := by
  by_cases h : c = 0 ∨ Config.storeSize b.ch < c.toNat
  · exact .inl ⟨h, rbInit_illegal s h⟩
  · have h1 : c ≠ 0 := fun hc => h (.inl hc)
    have h2 : c.toNat ≤ Config.storeSize b.ch := Nat.not_lt.mp (fun hc => h (.inr hc))
    exact .inr ⟨h1, h2, rbInit_legal s h1 h2⟩

/-! `RbPush`. -/

/-- The ring after an admitted push (R101). -/
def Ring.pushed (r : Ring) (v : Byte) : Ring :=
  { r with store := r.store.set r.head v, head := (r.head + 1) % r.cap, count := r.count + 1 }

theorem rbPush_notInitialized {b : BufId} (v : Byte) {s : State} (h : (s.rb b).init = false) :
    rbPush b v s = (.notInitialized, s) := by
  simp [rbPush, h]

theorem rbPush_full {b : BufId} (v : Byte) {s : State} (h : (s.rb b).init = true) (hc : (s.rb b).count = (s.rb b).cap) :
    rbPush b v s = (.full, s) := by
  simp [rbPush, h, hc]

theorem rbPush_ok {b : BufId} (v : Byte) {s : State} (h : (s.rb b).init = true) (hc : (s.rb b).count ≠ (s.rb b).cap) :
    rbPush b v s = (.ok, s.setRb b ((s.rb b).pushed v)) := by
  simp [rbPush, h, hc, Ring.pushed]

theorem rbPush_cases (b : BufId) (v : Byte) (s : State) :
    ((s.rb b).init = false ∧ rbPush b v s = (.notInitialized, s)) ∨
    ((s.rb b).init = true ∧ (s.rb b).count = (s.rb b).cap ∧ rbPush b v s = (.full, s)) ∨
    ((s.rb b).init = true ∧ (s.rb b).count ≠ (s.rb b).cap ∧ rbPush b v s = (.ok, s.setRb b ((s.rb b).pushed v))) := by
  cases h : (s.rb b).init with
  | false => exact .inl ⟨rfl, rbPush_notInitialized v h⟩
  | true =>
    by_cases hc : (s.rb b).count = (s.rb b).cap
    · exact .inr (.inl ⟨rfl, hc, rbPush_full v h hc⟩)
    · exact .inr (.inr ⟨rfl, hc, rbPush_ok v h hc⟩)

/-! `RbPop`. -/

/-- The ring after a pop (R102). -/
def Ring.popped (r : Ring) : Ring := { r with tail := (r.tail + 1) % r.cap, count := r.count - 1 }

theorem rbPop_notInitialized {b : BufId} {s : State} (h : (s.rb b).init = false) :
    rbPop b s = (.notInitialized, none, s) := by
  simp [rbPop, h]

theorem rbPop_empty {b : BufId} {s : State} (h : (s.rb b).init = true) (hc : (s.rb b).count = 0) :
    rbPop b s = (.empty, none, s) := by
  simp [rbPop, h, hc]

theorem rbPop_ok {b : BufId} {s : State} (h : (s.rb b).init = true) (hc : (s.rb b).count ≠ 0) :
    rbPop b s = (.ok, some (s.storeByte b (s.rb b).tail), s.setRb b (s.rb b).popped) := by
  simp [rbPop, h, hc, Ring.popped]

theorem rbPop_cases (b : BufId) (s : State) :
    ((s.rb b).init = false ∧ rbPop b s = (.notInitialized, none, s)) ∨
    ((s.rb b).init = true ∧ (s.rb b).count = 0 ∧ rbPop b s = (.empty, none, s)) ∨
    ((s.rb b).init = true ∧ (s.rb b).count ≠ 0 ∧
      rbPop b s = (.ok, some (s.storeByte b (s.rb b).tail), s.setRb b (s.rb b).popped)) := by
  cases h : (s.rb b).init with
  | false => exact .inl ⟨rfl, rbPop_notInitialized h⟩
  | true =>
    by_cases hc : (s.rb b).count = 0
    · exact .inr (.inl ⟨rfl, hc, rbPop_empty h hc⟩)
    · exact .inr (.inr ⟨rfl, hc, rbPop_ok h hc⟩)

/-! One byte of a memory after an update. -/

theorem storeByte_congr {s t : State} {b : BufId} (h : (t.rb b).store = (s.rb b).store) (i : Nat) :
    t.storeByte b i = s.storeByte b i := by
  simp [State.storeByte, h]

theorem frameByte_congr {s t : State} {ch : Ch} (hb : (t.chn ch).frameBuf = (s.chn ch).frameBuf)
    (hd : (t.chn ch).draws = (s.chn ch).draws) (i : Nat) : t.frameByte ch i = s.frameByte ch i := by
  simp [State.frameByte, hb, hd]

/-- An admitted push writes one byte, at the head of its buffer. -/
theorem storeByte_pushed (s : State) (b b' : BufId) (v : Byte) (i : Nat) :
    (s.setRb b ((s.rb b).pushed v)).storeByte b' i =
      if b' = b ∧ i = (s.rb b).head then v else s.storeByte b' i := by
  by_cases hb : b' = b
  · subst hb
    by_cases hi : i = (s.rb b').head
    · subst hi; simp [State.storeByte, Ring.pushed]
    · simp [State.storeByte, Ring.pushed, hi]
  · simp [State.storeByte, State.rb_setRb_ne s _ hb, hb]

/-- A pop writes no byte. -/
theorem storeByte_popped (s : State) (b b' : BufId) (i : Nat) :
    (s.setRb b (s.rb b).popped).storeByte b' i = s.storeByte b' i := by
  apply storeByte_congr
  by_cases hb : b' = b
  · subst hb; simp [Ring.popped]
  · simp [State.rb_setRb_ne s _ hb]

@[simp] theorem storeByte_respond (op : Byte) (st : Status) (r : Word) (s : State) (b : BufId) (i : Nat) :
    (respond op st r s).storeByte b i = s.storeByte b i := rfl

@[simp] theorem storeByte_emit (e : TraceEvent) (s : State) (b : BufId) (i : Nat) :
    (emit e s).storeByte b i = s.storeByte b i := rfl

@[simp] theorem storeByte_setChn (s : State) (ch : Ch) (c : Channel) (b : BufId) (i : Nat) :
    (s.setChn ch c).storeByte b i = s.storeByte b i := storeByte_congr (by simp) i

@[simp] theorem frameByte_setRb (s : State) (b : BufId) (r : Ring) (ch : Ch) (i : Nat) :
    (s.setRb b r).frameByte ch i = s.frameByte ch i := frameByte_congr (by simp) (by simp) i

@[simp] theorem frameByte_respond (op : Byte) (st : Status) (r : Word) (s : State) (ch : Ch) (i : Nat) :
    (respond op st r s).frameByte ch i = s.frameByte ch i := rfl

@[simp] theorem frameByte_emit (e : TraceEvent) (s : State) (ch : Ch) (i : Nat) :
    (emit e s).frameByte ch i = s.frameByte ch i := rfl

/-- No two statuses have one code (R190). -/
theorem Status.code_injective : ∀ a b : Status, a.code = b.code → a = b := by
  intro a b; cases a <;> cases b <;> decide

end Sys2Proof.Machine
end

