-- ==== Sys2Proof/Laws/Ring.lean ====
section
/-! SUPPORT. What an initialize, an admitted push and a pop do to the invariant of a ring buffer and to its queue content
(spec/10_state.md R28, R29). -/

namespace Sys2Proof.Machine

/-! The invariant. -/

theorem RingInv.reset (size : Nat) : RingInv size Ring.reset where
  storeWf := rfl
  storeInRange := by intro c hc; cases hc
  fresh := fun _ => ⟨rfl, rfl, rfl, rfl⟩
  capLow := fun h => by cases h
  capHigh := fun h => by cases h
  countRange := fun h => by cases h
  headRange := fun h => by cases h
  tailRange := fun h => by cases h
  headEq := fun h => by cases h
  written := fun h => by cases h

theorem RingInv.initialized {size c : Nat} {r : Ring} (h : RingInv size r) (h0 : 1 ≤ c) (h1 : c ≤ size) :
    RingInv size { r with init := true, cap := c, head := 0, tail := 0, count := 0 } where
  storeWf := h.storeWf
  storeInRange := h.storeInRange
  fresh := fun hf => by cases hf
  capLow := fun _ => h0
  capHigh := fun _ => h1
  countRange := fun _ => Nat.zero_le _
  headRange := fun _ => h0
  tailRange := fun _ => h0
  headEq := fun _ => by simp
  written := fun _ j hj => absurd hj (Nat.not_lt_zero j)

theorem RingInv.pushed {size : Nat} {r : Ring} (v : Byte) (h : RingInv size r) (hi : r.init = true)
    (hc : r.count ≠ r.cap) : RingInv size (r.pushed v) where
  storeWf := Memory.set_wf _ _ h.storeWf
  storeInRange := by
    intro c hm
    rcases Memory.mem_set hm with hm | hm
    · subst hm; exact Nat.lt_of_lt_of_le (h.headRange hi) (h.capHigh hi)
    · exact h.storeInRange c hm
  fresh := fun hf => by simp [Ring.pushed, hi] at hf
  capLow := fun _ => h.capLow hi
  capHigh := fun _ => h.capHigh hi
  countRange := fun _ => by
    have := h.countRange hi
    show r.count + 1 ≤ r.cap
    omega
  headRange := fun _ => Nat.mod_lt _ (h.capLow hi)
  tailRange := fun _ => h.tailRange hi
  headEq := fun _ => by
    show (r.head + 1) % r.cap = (r.tail + (r.count + 1)) % r.cap
    rw [h.headEq hi, Nat.mod_add_mod, Nat.add_assoc]
  written := fun _ j hj => by
    show ((r.store.set r.head v).get? ((r.tail + j) % r.cap)).isSome = true
    rw [Memory.get?_set]
    split
    · rfl
    · rename_i hne
      refine h.written hi j ?_
      have hj' : j < r.count + 1 := hj
      rcases Nat.lt_or_ge j r.count with hl | hg
      · exact hl
      · have : j = r.count := by omega
        subst this
        exact absurd (h.headEq hi).symm hne

theorem RingInv.popped {size : Nat} {r : Ring} (h : RingInv size r) (hi : r.init = true) (hc : r.count ≠ 0) :
    RingInv size r.popped where
  storeWf := h.storeWf
  storeInRange := h.storeInRange
  fresh := fun hf => by simp [Ring.popped, hi] at hf
  capLow := fun _ => h.capLow hi
  capHigh := fun _ => h.capHigh hi
  countRange := fun _ => by
    have := h.countRange hi
    show r.count - 1 ≤ r.cap
    omega
  headRange := fun _ => h.headRange hi
  tailRange := fun _ => Nat.mod_lt _ (h.capLow hi)
  headEq := fun _ => by
    show r.head = ((r.tail + 1) % r.cap + (r.count - 1)) % r.cap
    rw [h.headEq hi, Nat.mod_add_mod]
    congr 1
    omega
  written := fun _ j hj => by
    show (r.store.get? (((r.tail + 1) % r.cap + j) % r.cap)).isSome = true
    have hj' : j < r.count - 1 := hj
    rw [Nat.mod_add_mod, Nat.add_assoc, Nat.add_comm 1 j]
    exact h.written hi (j + 1) (by omega)

/-! The queue content. -/

theorem queue_congr {s t : State} {b : BufId} (h : t.rb b = s.rb b) : t.queue b = s.queue b := by
  have hs : ∀ i, t.storeByte b i = s.storeByte b i := storeByte_congr (by rw [h])
  simp [State.queue, h, hs]

@[simp] theorem length_queue (s : State) (b : BufId) : (s.queue b).length = (s.rb b).count := by
  simp [State.queue]

theorem queue_eq_nil_iff (s : State) (b : BufId) : s.queue b = [] ↔ (s.rb b).count = 0 := by
  rw [← List.length_eq_zero_iff, length_queue]

/-- The slots of a ring from its tail on are distinct, below its capacity. -/
theorem mod_add_ne {tail j k cap : Nat} (hjk : j < k) (hk : k < cap) : (tail + j) % cap ≠ (tail + k) % cap := by
  intro h
  have h1 : (tail + k - (tail + j)) % cap = 0 := Nat.sub_mod_eq_zero_of_mod_eq h.symm
  have h2 : tail + k - (tail + j) = k - j := by omega
  rw [h2, Nat.mod_eq_of_lt (by omega)] at h1
  omega

/-- An admitted push appends its byte to the queue of its buffer (R29). -/
theorem queue_pushed {s : State} {b : BufId} {size : Nat} (v : Byte) (h : RingInv size (s.rb b))
    (hi : (s.rb b).init = true) (hc : (s.rb b).count ≠ (s.rb b).cap) :
    (s.setRb b ((s.rb b).pushed v)).queue b = s.queue b ++ [v] := by
  have hlt : (s.rb b).count < (s.rb b).cap := Nat.lt_of_le_of_ne (h.countRange hi) hc
  unfold State.queue
  simp only [State.rb_setRb_same]
  show List.map _ (List.range ((s.rb b).count + 1)) = _
  rw [List.range_succ, List.map_append]
  congr 1
  · apply List.map_congr_left
    intro j hj
    have hj' : j < (s.rb b).count := List.mem_range.mp hj
    show (s.setRb b ((s.rb b).pushed v)).storeByte b (((s.rb b).tail + j) % (s.rb b).cap) = _
    rw [storeByte_pushed, if_neg]
    rintro ⟨-, he⟩
    rw [h.headEq hi] at he
    exact mod_add_ne hj' hlt he
  · show [(s.setRb b ((s.rb b).pushed v)).storeByte b (((s.rb b).tail + (s.rb b).count) % (s.rb b).cap)] = _
    rw [storeByte_pushed, if_pos ⟨rfl, (h.headEq hi).symm⟩]

/-- A pop takes the first byte of the queue of its buffer (R29). -/
theorem queue_popped {s : State} {b : BufId} {size : Nat} (h : RingInv size (s.rb b)) (hi : (s.rb b).init = true)
    (hc : (s.rb b).count ≠ 0) :
    s.queue b = s.storeByte b (s.rb b).tail :: (s.setRb b (s.rb b).popped).queue b := by
  obtain ⟨n, hn⟩ : ∃ n, (s.rb b).count = n + 1 := ⟨(s.rb b).count - 1, by omega⟩
  unfold State.queue
  simp only [State.rb_setRb_same]
  have h1 : (s.rb b).popped.count = n := by simp [Ring.popped, hn]
  rw [h1, hn, List.range_succ_eq_map, List.map_cons, List.map_map]
  congr 1
  · rw [Nat.add_zero, Nat.mod_eq_of_lt (h.tailRange hi)]
  · apply List.map_congr_left
    intro j _
    show s.storeByte b (((s.rb b).tail + (j + 1)) % (s.rb b).cap) = _
    rw [storeByte_popped]
    show _ = s.storeByte b (((((s.rb b).tail + 1) % (s.rb b).cap) + j) % (s.rb b).cap)
    rw [Nat.mod_add_mod, Nat.add_assoc, Nat.add_comm 1 j]

/-- An initialize empties the queue (R100). -/
theorem queue_of_count_zero {s : State} {b : BufId} (h : (s.rb b).count = 0) : s.queue b = [] :=
  (queue_eq_nil_iff s b).mpr h

end Sys2Proof.Machine
end

