-- ==== Sys2Proof/Laws/Invariant.lean ====
section
/-! SUPPORT. What each shared operation does to the invariant of the block: it keeps it (spec/10_state.md R27 to R42). -/

namespace Sys2Proof.Machine

/-- The invariant looks at the response registers and at everything that follows; not at the tick, the trace or the moves. -/
theorem BlockInv.congr {s t : State} (h : BlockInv s) (hrb : ∀ b, t.rb b = s.rb b) (hchn : ∀ ch, t.chn ch = s.chn ch)
    (hfg : t.fg = s.fg) (htc : t.tcount = s.tcount) (hsl : t.slots = s.slots) (hseq : t.seq = s.seq)
    (hr : ResponseInv t) : BlockInv t where
  rings b := by rw [hrb]; exact h.rings b
  channels ch := by
    have c := h.channels ch
    constructor
    · rw [hchn]; exact c.frameWf
    · rw [hchn]; exact c.frameInRange
    · rw [hchn]; exact c.frameLen
    · rw [hchn]; exact c.cursor
    · rw [hchn, hrb]; exact c.armedInit
    · rw [hchn, hrb, hfg]; exact c.extracting
    · rw [hrb, hfg]; exact c.receiving
  timers := by
    have c := h.timers
    have hn : t.nTimers = s.nTimers := by simp [State.nTimers, hsl]
    constructor
    · rw [hn]; exact c.sizeLow
    · rw [hn]; exact c.sizeHigh
    · rw [hn, htc]; exact c.tcount
    · rw [htc, hsl]; exact c.accBelow
  sequencer := by
    have c := h.sequencer
    have hn : t.nTimers = s.nTimers := by simp [State.nTimers, hsl]
    constructor
    · rw [hn, hseq]; exact c.iRange
    · rw [hn, hseq]; exact c.nRange
    · rw [hn, hseq]; exact c.firedRange
    · rw [hn, hseq]; exact c.cbIdRange
    · rw [htc, hseq]; exact c.inPass
    · rw [hseq]; exact c.inCallback
    · rw [hseq, hfg]; exact c.fgIdle
  response := hr

theorem BlockInv.respond {s : State} (h : BlockInv s) (op : Byte) (st : Status) (r : Word) (hr : st ≠ .ok → r = 0) :
    BlockInv (respond op st r s) :=
  h.congr (by simp) (by simp) rfl rfl rfl rfl ⟨st, rfl, hr⟩

theorem BlockInv.emit {s : State} (h : BlockInv s) (e : TraceEvent) : BlockInv (emit e s) :=
  h.congr (by simp) (by simp) rfl rfl rfl rfl h.response

theorem BlockInv.setMoves {s : State} (h : BlockInv s) (ms : List Move) : BlockInv { s with moves := ms } :=
  h.congr (by simp) (by simp) rfl rfl rfl rfl h.response

theorem ResponseInv.congr {s t : State} (h : ResponseInv s) (h1 : t.status = s.status) (h2 : t.result = s.result) :
    ResponseInv t := by
  obtain ⟨st, a, b⟩ := h
  exact ⟨st, h1.trans a, by rw [h2]; exact b⟩

/-- A buffer is changed: its own invariant holds after, it stays initialized, and `cap` stays while a frame is extracted from it. -/
theorem BlockInv.setRb {s : State} (h : BlockInv s) (b : BufId) (r : Ring) (hr : RingInv (Config.storeSize b.ch) r)
    (hi : (s.rb b).init = true → r.init = true) (hc : s.fg = .getFrame b.ch → b.buf = .rx → r.cap = (s.rb b).cap) :
    BlockInv (s.setRb b r) where
  rings b' := by
    rw [State.rb_setRb]; split
    · rename_i e; subst e; exact hr
    · exact h.rings b'
  channels ch := by
    have c := h.channels ch
    constructor
    · simpa using c.frameWf
    · simpa using c.frameInRange
    · simpa using c.frameLen
    · simpa using c.cursor
    · intro ha; rw [State.chn_setRb] at ha; rw [State.rb_setRb]; split
      · rename_i e; subst e; exact hi (c.armedInit ha)
      · exact c.armedInit ha
    · intro hf; rw [State.setRb_fg] at hf; rw [State.rb_setRb, State.chn_setRb]
      have x := c.extracting hf
      split
      · rename_i e; subst e; rw [hc hf rfl]; exact ⟨hi x.1, x.2⟩
      · exact x
    · intro hf; rw [State.setRb_fg] at hf; rw [State.rb_setRb]
      split
      · rename_i e; subst e; exact hi (c.receiving hf)
      · exact c.receiving hf
  timers := by
    have c := h.timers
    constructor
    · simpa [State.nTimers] using c.sizeLow
    · simpa [State.nTimers] using c.sizeHigh
    · simpa [State.nTimers] using c.tcount
    · simpa [State.nTimers] using c.accBelow
  sequencer := by
    have c := h.sequencer
    constructor
    · simpa [State.nTimers] using c.iRange
    · simpa [State.nTimers] using c.nRange
    · simpa [State.nTimers] using c.firedRange
    · simpa [State.nTimers] using c.cbIdRange
    · simpa [State.nTimers] using c.inPass
    · simpa [State.nTimers] using c.inCallback
    · simpa [State.nTimers] using c.fgIdle
  response := h.response.congr (by simp) (by simp)

/-- A channel's own state and the FG phase are changed. -/
theorem BlockInv.setChnFg {s t : State} (h : BlockInv s) (ch : Ch) (c : Channel) (f : FgPhase)
    (hrb : ∀ b, t.rb b = s.rb b) (hc1 : t.chn ch = c) (hc2 : ∀ ch', ch' ≠ ch → t.chn ch' = s.chn ch') (hfg : t.fg = f)
    (htc : t.tcount = s.tcount) (hsl : t.slots = s.slots) (hseq : t.seq = s.seq) (hst : t.status = s.status)
    (hres : t.result = s.result)
    (hw : c.frameBuf.wf = true) (hir : ∀ x ∈ c.frameBuf, x.1 < Config.storeSize ch)
    (hl : c.frameLen < Config.storeSize ch) (hk : c.gfK ≤ Config.storeSize ch)
    (ha : c.armed = true → (s.rb (txOf ch)).init = true)
    (he : ∀ ch', f = .getFrame ch' → ch' = ch ∧ (s.rb (rxOf ch)).init = true ∧ c.gfK < (s.rb (rxOf ch)).cap ∧
      ∀ i < c.gfK, (c.frameBuf.get? i).isSome = true)
    (hrv : ∀ ch', f = .recv ch' → (s.rb (rxOf ch')).init = true)
    (hs : s.seq.phase = .run → f = .ready) : BlockInv t where
  rings b := by simpa [hrb] using h.rings b
  channels ch' := by
    have x := h.channels ch'
    by_cases e : ch' = ch
    · subst e
      constructor
      · simpa [hc1] using hw
      · simpa [hc1] using hir
      · simpa [hc1] using hl
      · simpa [hc1] using hk
      · simpa [hc1, hrb] using ha
      · intro hf; simpa [hc1, hrb] using (he ch' (hfg ▸ hf)).2
      · intro hf; simpa [hrb] using hrv ch' (hfg ▸ hf)
    · have hn := hc2 ch' e
      constructor
      · rw [hn]; exact x.frameWf
      · rw [hn]; exact x.frameInRange
      · rw [hn]; exact x.frameLen
      · rw [hn]; exact x.cursor
      · rw [hn]; simpa [hrb] using x.armedInit
      · intro hf; exact absurd (he ch' (hfg ▸ hf)).1 e
      · intro hf; simpa [hrb] using hrv ch' (hfg ▸ hf)
  timers := by
    have c := h.timers
    have hn : t.nTimers = s.nTimers := by simp [State.nTimers, hsl]
    constructor
    · rw [hn]; exact c.sizeLow
    · rw [hn]; exact c.sizeHigh
    · rw [hn, htc]; exact c.tcount
    · rw [htc, hsl]; exact c.accBelow
  sequencer := by
    have c := h.sequencer
    have hn : t.nTimers = s.nTimers := by simp [State.nTimers, hsl]
    constructor
    · rw [hn, hseq]; exact c.iRange
    · rw [hn, hseq]; exact c.nRange
    · rw [hn, hseq]; exact c.firedRange
    · rw [hn, hseq]; exact c.cbIdRange
    · rw [htc, hseq]; exact c.inPass
    · rw [hseq]; exact c.inCallback
    · rw [hseq, hfg]; exact hs
  response := h.response.congr hst hres

/-- The ring-buffer subroutines keep the invariant (R100 to R102). -/
theorem BlockInv.rbPush {s : State} (h : BlockInv s) (b v) : BlockInv (rbPush b v s).2 := by
  rcases rbPush_cases b v s with ⟨h1, e⟩ | ⟨h1, h2, e⟩ | ⟨h1, h2, e⟩ <;> rw [e]
  · exact h
  · exact h
  · exact h.setRb b _ ((h.rings b).pushed v h1 h2) (fun _ => h1) (fun _ _ => rfl)

theorem BlockInv.rbPop {s : State} (h : BlockInv s) (b) : BlockInv (rbPop b s).2.2 := by
  rcases rbPop_cases b s with ⟨h1, e⟩ | ⟨h1, h2, e⟩ | ⟨h1, h2, e⟩ <;> rw [e]
  · exact h
  · exact h
  · exact h.setRb b _ ((h.rings b).popped h1 h2) (fun _ => h1) (fun _ _ => rfl)

theorem BlockInv.rbInit {s : State} (h : BlockInv s) (b c) (hf : s.fg = .ready) : BlockInv (rbInit b c s).2 := by
  rcases rbInit_cases b c s with ⟨h1, e⟩ | ⟨h0, h1, e⟩ <;> rw [e]
  · exact h
  · refine h.setRb b _ ((h.rings b).initialized ?_ h1) (fun _ => rfl) (fun hg => by rw [hf] at hg; cases hg)
    have : c.toNat ≠ 0 := fun he => h0 (BitVec.eq_of_toNat_eq he)
    omega

/-- The timer table and the sequencer are changed. -/
theorem BlockInv.timer {s t : State} (h : BlockInv s) (hrb : ∀ b, t.rb b = s.rb b) (hchn : ∀ ch, t.chn ch = s.chn ch)
    (hfg : t.fg = s.fg) (ht : TimerInv t) (hq : SeqInv t) (hr : ResponseInv t) : BlockInv t where
  rings b := by rw [hrb]; exact h.rings b
  channels ch := by
    have c := h.channels ch
    constructor
    · rw [hchn]; exact c.frameWf
    · rw [hchn]; exact c.frameInRange
    · rw [hchn]; exact c.frameLen
    · rw [hchn]; exact c.cursor
    · rw [hchn, hrb]; exact c.armedInit
    · rw [hchn, hrb, hfg]; exact c.extracting
    · rw [hrb, hfg]; exact c.receiving
  timers := ht
  sequencer := hq
  response := hr

theorem TimerInv.modifySlot {s : State} (h : TimerInv s) (i : Nat) (f : Slot → Slot)
    (hf : ∀ sl, (sl.acc.toNat < sl.period.toNat ∨ sl.acc = 0) →
      ((f sl).acc.toNat < (f sl).period.toNat ∨ (f sl).acc = 0)) : TimerInv (s.modifySlot i f) := by
  constructor
  · simpa using h.sizeLow
  · simpa using h.sizeHigh
  · simpa using h.tcount
  · intro j hj sl hs
    rw [State.modifySlot_slot] at hs
    rw [State.modifySlot_tcount] at hj
    split at hs
    · rename_i e; subst e
      rw [Option.map_eq_some_iff] at hs
      obtain ⟨sl0, h0, rfl⟩ := hs
      exact hf _ (h.accBelow j hj sl0 h0)
    · exact h.accBelow j hj sl hs

theorem SeqInv.congr {s t : State} (h : SeqInv s) (hn : t.nTimers = s.nTimers) (htc : s.tcount ≤ t.tcount)
    (hseq : t.seq = s.seq) (hfg : t.fg = s.fg) : SeqInv t := by
  constructor
  · rw [hn, hseq]; exact h.iRange
  · rw [hn, hseq]; exact h.nRange
  · rw [hn, hseq]; exact h.firedRange
  · rw [hn, hseq]; exact h.cbIdRange
  · rw [hseq]; intro hp; have := h.inPass hp; omega
  · rw [hseq]; exact h.inCallback
  · rw [hseq, hfg]; exact h.fgIdle

theorem TimerInv.congr {s t : State} (h : TimerInv s) (hsl : t.slots = s.slots) (htc : t.tcount = s.tcount) : TimerInv t := by
  have hn : t.nTimers = s.nTimers := by simp [State.nTimers, hsl]
  constructor
  · rw [hn]; exact h.sizeLow
  · rw [hn]; exact h.sizeHigh
  · rw [hn, htc]; exact h.tcount
  · rw [htc, hsl]; exact h.accBelow

end Sys2Proof.Machine
end

