-- ==== Sys2Proof/Laws/Meanings.lean ====
section
/-! SUPPORT. What the operations that several meanings or steps share do, case by case: the slot commands (spec/41_softtimer.md
R121 to R124), and the finish and the extraction step of CH_GETFRAME (spec/42_framechannel.md R159, R160, R162). -/

namespace Sys2Proof.Machine

theorem onSlot_registered {op : Byte} {id : Nat} (f : Slot → Slot) {s : State} (h : id < s.tcount) :
    onSlot op id f s = respond op .ok 0 (s.modifySlot id f) := by
  simp [onSlot, registered, h]

theorem onSlot_invalid {op : Byte} {id : Nat} (f : Slot → Slot) {s : State} (h : s.tcount ≤ id) :
    onSlot op id f s = respond op .invalidId 0 s := by
  simp [onSlot, registered, Nat.not_lt.mpr h]

/-- The length of the frame output a finished extraction leaves. -/
def outputLen (ch : Ch) (o : Extraction) (s : State) : Nat :=
  match o with
  | .frameError => 0
  | .frame n => if crFiltered ch n s then 0 else n

/-- The status a finished extraction answers. -/
def outputStatus (ch : Ch) (o : Extraction) (s : State) : Status :=
  match o with
  | .frameError => .frameError
  | .frame n => if crFiltered ch n s then .noFrameAvailable else .ok

/-- A finished extraction, whichever way it ends: one response, the counter down by one, the frame output, FG ready. -/
theorem gfFinish_eq (ch : Ch) (o : Extraction) (s : State) :
    gfFinish ch o s = respond Opcode.chGetFrame.code (outputStatus ch o s) (BitVec.ofNat 32 (outputLen ch o s))
      { s.setChn ch (({ s.chn ch with pending := (s.chn ch).pending - 1 } : Channel).output (outputLen ch o s)) with
        fg := .ready } := by
  cases o with
  | frameError => cases ch <;> rfl
  | frame n =>
    unfold gfFinish outputLen outputStatus
    dsimp only
    generalize crFiltered ch n s = c
    cases c <;> cases ch <;> rfl

theorem rb_gfFinish (ch : Ch) (o : Extraction) (s : State) (b : BufId) : (gfFinish ch o s).rb b = s.rb b := by
  rw [gfFinish_eq]
  exact State.rb_setChn s ch _ b

theorem chn_gfFinish (ch : Ch) (o : Extraction) (s : State) :
    (gfFinish ch o s).chn ch =
      ({ s.chn ch with pending := (s.chn ch).pending - 1 } : Channel).output (outputLen ch o s) := by
  rw [gfFinish_eq]
  exact State.chn_setChn_same s ch _

theorem chn_gfFinish_ne (ch : Ch) (o : Extraction) (s : State) {ch' : Ch} (h : ch' ≠ ch) :
    (gfFinish ch o s).chn ch' = s.chn ch' := by
  rw [gfFinish_eq]
  exact State.chn_setChn_ne s _ h

/-- The byte behind a frame output is 0x00 (R37). -/
theorem get?_output (c : Channel) (n : Nat) : (c.output n).frameBuf.get? n = some 0 := by
  simp [Channel.output, Memory.get?_keepUpTo]

/-- The bytes of a frame output are the payload stored so far (R160). -/
theorem get?_output_lt (c : Channel) {n j : Nat} (h : j < n) : (c.output n).frameBuf.get? j = c.frameBuf.get? j := by
  simp [Channel.output, Memory.get?_keepUpTo, Nat.le_of_lt h, Nat.ne_of_lt h]

/-- The state after an extraction step has popped `v` and stored it at the cursor (R159). -/
def storePayload (ch : Ch) (v : Byte) (s : State) : State :=
  (s.setRb (rxOf ch) (s.rb (rxOf ch)).popped).setChn ch
    { s.chn ch with frameBuf := (s.chn ch).frameBuf.set (s.chn ch).gfK v, gfK := (s.chn ch).gfK + 1 }

theorem gfExtract_drained {ch : Ch} {s : State} (hi : (s.rb (rxOf ch)).init = true) (hc : (s.rb (rxOf ch)).count = 0) :
    gfExtract ch s = gfFinish ch .frameError s := by
  unfold gfExtract
  rw [rbPop_empty hi hc]

theorem gfExtract_terminator {ch : Ch} {s : State} (hi : (s.rb (rxOf ch)).init = true) (hc : (s.rb (rxOf ch)).count ≠ 0)
    (hv : s.storeByte (rxOf ch) (s.rb (rxOf ch)).tail = Config.term ch) :
    gfExtract ch s = gfFinish ch (.frame (s.chn ch).gfK) (s.setRb (rxOf ch) (s.rb (rxOf ch)).popped) := by
  unfold gfExtract
  rw [rbPop_ok hi hc]
  simp [hv]

theorem gfExtract_overlong {ch : Ch} {s : State} (hi : (s.rb (rxOf ch)).init = true) (hc : (s.rb (rxOf ch)).count ≠ 0)
    (hv : s.storeByte (rxOf ch) (s.rb (rxOf ch)).tail ≠ Config.term ch) (hk : (s.chn ch).gfK + 1 = (s.rb (rxOf ch)).cap) :
    gfExtract ch s =
      gfFinish ch .frameError (storePayload ch (s.storeByte (rxOf ch) (s.rb (rxOf ch)).tail) s) := by
  unfold gfExtract
  rw [rbPop_ok hi hc]
  simp [hv, hk, Ring.popped, storePayload]

theorem gfExtract_payload {ch : Ch} {s : State} (hi : (s.rb (rxOf ch)).init = true) (hc : (s.rb (rxOf ch)).count ≠ 0)
    (hv : s.storeByte (rxOf ch) (s.rb (rxOf ch)).tail ≠ Config.term ch) (hk : (s.chn ch).gfK + 1 ≠ (s.rb (rxOf ch)).cap) :
    gfExtract ch s = storePayload ch (s.storeByte (rxOf ch) (s.rb (rxOf ch)).tail) s := by
  unfold gfExtract
  rw [rbPop_ok hi hc]
  simp [hv, hk, Ring.popped, storePayload]

/-- The pop that completes CH_RECV: RX has a byte (R157). -/
theorem recvPop_ok {ch : Ch} {s : State} (hi : (s.rb (rxOf ch)).init = true) (hc : (s.rb (rxOf ch)).count ≠ 0) :
    recvPop ch s = respond Opcode.chRecv.code .ok ((s.storeByte (rxOf ch) (s.rb (rxOf ch)).tail).setWidth 32)
      (s.setRb (rxOf ch) (s.rb (rxOf ch)).popped) := by
  unfold recvPop
  rw [rbPop_ok hi hc]
  rfl

end Sys2Proof.Machine
end

