-- ==== Sys2Proof/Laws/PerInstr.lean ====
section
/-! SUPPORT. Families of lemmas over the instructions as syntax, one lemma for each constructor. -/

namespace Sys2Proof.Laws

/-! `RowMatches`: the encoded word of an instruction is one its own row of the opcode table matches (spec/30_encoding.md R86), whatever
the operands. -/

/-- The word of `i` matches the row of `i`. -/
def RowMatches.Statement (i : Instr) : Prop := (encode i).cmd &&& i.opcode.mask = i.opcode.pattern

namespace RowMatches

theorem rbInit (b : BufId) (cap : Word) : Statement (.rbInit b cap) := by
  have h : ∀ b : BufId, packWord .rbInit b.ch.bit b.buf.bit 0 0 &&& Opcode.rbInit.mask = Opcode.rbInit.pattern := by
    rintro ⟨⟨⟩, ⟨⟩⟩ <;> decide
  exact h b

theorem rbPush (b : BufId) (v : Byte) : Statement (.rbPush b v) := by
  have h : ∀ (b : BufId) (v : Byte),
      packWord .rbPush b.ch.bit b.buf.bit v 0 &&& Opcode.rbPush.mask = Opcode.rbPush.pattern := by
    rintro ⟨⟨⟩, ⟨⟩⟩ <;> decide
  exact h b v

theorem rbPop (b : BufId) : Statement (.rbPop b) := by
  revert b
  rintro ⟨⟨⟩, ⟨⟩⟩ <;> show _ = _ <;> decide

theorem rbIsEmpty (b : BufId) : Statement (.rbIsEmpty b) := by
  revert b
  rintro ⟨⟨⟩, ⟨⟩⟩ <;> show _ = _ <;> decide

theorem tmrRegister (period : Word) (cb : Bool) : Statement (.tmrRegister period cb) := by
  have h : ∀ cb : Bool,
      packWord .tmrRegister 0 0 (if cb then 1 else 0) 0 &&& Opcode.tmrRegister.mask = Opcode.tmrRegister.pattern := by decide
  exact h cb

theorem tmrStart (id : Nat) : Statement (.tmrStart id) := by
  have h : ∀ v : Byte, packWord .tmrStart 0 0 0 v &&& Opcode.tmrStart.mask = Opcode.tmrStart.pattern := by decide
  exact h _

theorem tmrPause (id : Nat) : Statement (.tmrPause id) := by
  have h : ∀ v : Byte, packWord .tmrPause 0 0 0 v &&& Opcode.tmrPause.mask = Opcode.tmrPause.pattern := by decide
  exact h _

theorem tmrResume (id : Nat) : Statement (.tmrResume id) := by
  have h : ∀ v : Byte, packWord .tmrResume 0 0 0 v &&& Opcode.tmrResume.mask = Opcode.tmrResume.pattern := by decide
  exact h _

theorem tmrAdvance (elapsed : Word) : Statement (.tmrAdvance elapsed) := by
  show bareWord .tmrAdvance &&& Opcode.tmrAdvance.mask = Opcode.tmrAdvance.pattern
  decide

theorem tmrElapsed (start threshold : Word) : Statement (.tmrElapsed start threshold) := by
  show bareWord .tmrElapsed &&& Opcode.tmrElapsed.mask = Opcode.tmrElapsed.pattern
  decide

theorem tickRead : Statement .tickRead := by
  show _ = _
  decide

theorem tickDelta (cur prev : Word) : Statement (.tickDelta cur prev) := by
  show bareWord .tickDelta &&& Opcode.tickDelta.mask = Opcode.tickDelta.pattern
  decide

theorem cbDone : Statement .cbDone := by
  show _ = _
  decide

theorem chInit (ch : Ch) (cap : Word) : Statement (.chInit ch cap) := by
  have h : ∀ ch : Ch, packWord .chInit ch.bit 0 0 0 &&& Opcode.chInit.mask = Opcode.chInit.pattern := by
    rintro ⟨⟩ <;> decide
  exact h ch

theorem chSend (ch : Ch) (v : Byte) : Statement (.chSend ch v) := by
  have h : ∀ (ch : Ch) (v : Byte), packWord .chSend ch.bit 0 v 0 &&& Opcode.chSend.mask = Opcode.chSend.pattern := by
    rintro ⟨⟩ <;> decide
  exact h ch v

theorem chRecv (ch : Ch) : Statement (.chRecv ch) := by
  revert ch
  rintro ⟨⟩ <;> show _ = _ <;> decide

theorem chGetFrame (ch : Ch) : Statement (.chGetFrame ch) := by
  revert ch
  rintro ⟨⟩ <;> show _ = _ <;> decide

theorem chPending (ch : Ch) : Statement (.chPending ch) := by
  revert ch
  rintro ⟨⟩ <;> show _ = _ <;> decide

theorem rxByte (ch : Ch) (v : Byte) : Statement (.rxByte ch v) := by
  have h : ∀ (ch : Ch) (v : Byte), packWord .rxByte ch.bit 0 v 0 &&& Opcode.rxByte.mask = Opcode.rxByte.pattern := by
    rintro ⟨⟩ <;> decide
  exact h ch v

theorem txReady (ch : Ch) : Statement (.txReady ch) := by
  revert ch
  rintro ⟨⟩ <;> show _ = _ <;> decide

theorem tick : Statement .tick := by
  show _ = _
  decide

end RowMatches

end Sys2Proof.Laws
end

