-- ==== Sys2Proof/Laws/Step.lean ====
section
/-! SUPPORT. What a step can do, once: the inversion of `step`, of FG's continuing step and of SEQ's step. Invariants are derived from these. -/

namespace Sys2Proof.Machine

/-- What FG's continuing step does when it has one (spec/42_framechannel.md R157, R159). -/
theorem fgStep?_cases {s t : State} (h : fgStep? s = some t) :
    (∃ ch, s.fg = .recv ch ∧ (s.rb (rxOf ch)).count ≠ 0 ∧ t = recvPop ch { s with fg := .ready }) ∨
    (∃ ch, s.fg = .getFrame ch ∧ t = gfExtract ch s) := by
  unfold fgStep? at h
  split at h
  · cases h
  · rename_i ch hf
    split at h
    · cases h
    · rename_i he
      cases h
      exact .inl ⟨ch, hf, by simpa [Ring.isEmpty] using he, rfl⟩
  · rename_i ch hf
    cases h
    exact .inr ⟨ch, hf, rfl⟩

/-- What SEQ's step does when it has one (spec/41_softtimer.md R126, R130). -/
theorem seqStep?_cases {s t : State} (h : seqStep? s = some t) :
    s.seq.phase = .run ∧ ((s.seq.i < s.seq.n ∧ t = seqVisit s) ∨ (s.seq.i = s.seq.n ∧ t = seqEnd s)) := by
  unfold seqStep? at h
  split at h
  · rename_i hp
    split at h
    · rename_i hi; cases h; exact ⟨hp, .inl ⟨hi, rfl⟩⟩
    · split at h
      · rename_i hi; cases h; exact ⟨hp, .inr ⟨hi, rfl⟩⟩
      · cases h
  · cases h
  · cases h

/-- One step that answers a next state, with `ms` the moves left: nothing changed (no own step, or an event word ignored), FG's
continuing step, SEQ's step, an illegal command word, or the next move's instruction, which its agent could take. -/
theorem step_cases {s t : State} (h : step s = .next t) :
    ∃ ms, t = { s with moves := ms } ∨ fgStep? { s with moves := ms } = some t ∨ seqStep? { s with moves := ms } = some t ∨
      (mayIssue s = true ∧ s.nextInstr? = none ∧ ∃ op, t = raise op .illegalCommand { s with moves := ms }) ∨
      ∃ i, s.nextInstr? = some i ∧ exec i { s with moves := ms } = .next t ∧
        ((portOf i = none ∧ mayIssue s = true) ∨ ∃ port, portOf i = some port ∧ port.enabled s = true) := by
  unfold step at h
  split at h
  · rename_i hm
    refine ⟨[], ?_⟩
    have hs : ({ s with moves := [] } : State) = s := by rw [← hm]
    rw [hs]
    unfold idleStep ownStep? at h
    cases h
    cases hf : fgStep? s with
    | some t => exact .inr (.inl rfl)
    | none =>
      cases hq : seqStep? s with
      | some t => exact .inr (.inr (.inl rfl))
      | none => exact .inl rfl
  · rename_i m rest hm
    refine ⟨rest, ?_⟩
    cases m with
    | command p =>
      simp only [takeMove, issueCommand] at h
      split at h
      · rename_i hi
        split at h
        · rename_i i hd
          exact .inr (.inr (.inr (.inr ⟨i, by simp [State.nextInstr?, hm, hd], h, .inl ⟨portOf_of_decodeCommand hd, hi⟩⟩)))
        · rename_i e hd
          cases h
          exact .inr (.inr (.inr (.inl ⟨hi, by simp [State.nextInstr?, hm, hd], _, rfl⟩)))
      · cases h
    | event port w =>
      simp only [takeMove, deliverEvent] at h
      split at h
      · rename_i i hd
        split at h
        · rename_i hp
          split at h
          · rename_i he
            refine .inr (.inr (.inr (.inr ⟨i, by simp [State.nextInstr?, hm, hd, hp], h, .inr ⟨port, hp, ?_⟩⟩)))
            cases port <;> exact he
          · cases h
        · cases h; exact .inl rfl
      · cases h; exact .inl rfl
    | fg =>
      simp only [takeMove, takeStep] at h
      split at h
      · rename_i t' ht; cases h; exact .inr (.inl ht)
      · cases h
    | seq =>
      simp only [takeMove, takeStep] at h
      split at h
      · rename_i t' ht; cases h; exact .inr (.inr (.inl ht))
      · cases h

/-! The step by the next move. -/

theorem mayIssue_iff (s : State) : mayIssue s = true ↔ s.fg = .ready ∧ s.seq.phase ≠ .run := by
  simp [mayIssue]

theorem step_nil {s : State} (h : s.moves = []) : step s = .next (idleStep s) := by
  unfold step; rw [h]

theorem step_cons {s : State} {m : Move} {rest : List Move} (h : s.moves = m :: rest) :
    step s = takeMove m { s with moves := rest } := by
  unfold step; rw [h]

theorem step_fg {s : State} {rest : List Move} (h : s.moves = .fg :: rest) :
    step s = takeStep .fg (fgStep? { s with moves := rest }) := step_cons h

theorem step_seq {s : State} {rest : List Move} (h : s.moves = .seq :: rest) :
    step s = takeStep .seq (seqStep? { s with moves := rest }) := step_cons h

/-- A packet FG may issue runs the instruction it decodes to. -/
theorem step_command {s : State} {p : Packet} {rest : List Move} {i : Instr} (h : s.moves = .command p :: rest)
    (hm : mayIssue s = true) (hd : decodeCommand p = .ok i) : step s = exec i { s with moves := rest } := by
  rw [step_cons h]
  show issueCommand p _ = _
  have hm' : mayIssue { s with moves := rest } = true := hm
  unfold issueCommand
  rw [if_pos hm', hd]

/-- An event word on its own enabled port runs the event it decodes to. -/
theorem step_event {s : State} {port : Port} {w : Word} {rest : List Move} {i : Instr} (h : s.moves = .event port w :: rest)
    (hd : decodeEvent w = .ok i) (hp : portOf i = some port) (he : port.enabled s = true) :
    step s = exec i { s with moves := rest } := by
  rw [step_cons h]
  show deliverEvent port w _ = _
  have he' : port.enabled { s with moves := rest } = true := by cases port <;> exact he
  simp only [deliverEvent, hd, hp, if_true, he']

theorem fgStep?_ready {s : State} (h : s.fg = .ready) : fgStep? s = none := by
  unfold fgStep?; rw [h]

theorem fgStep?_recv {s : State} {ch : Ch} (h : s.fg = .recv ch) :
    fgStep? s = if (s.rb (rxOf ch)).isEmpty then none else some (recvPop ch { s with fg := .ready }) := by
  unfold fgStep?; rw [h]

theorem fgStep?_getFrame {s : State} {ch : Ch} (h : s.fg = .getFrame ch) : fgStep? s = some (gfExtract ch s) := by
  unfold fgStep?; rw [h]

theorem seqStep?_visit {s : State} (h : s.seq.phase = .run) (hi : s.seq.i < s.seq.n) : seqStep? s = some (seqVisit s) := by
  unfold seqStep?; rw [h]; simp [hi]

theorem seqStep?_end {s : State} (h : s.seq.phase = .run) (hi : s.seq.i = s.seq.n) : seqStep? s = some (seqEnd s) := by
  unfold seqStep?; rw [h]; simp [hi]

theorem seqStep?_holds {s : State} (h : s.seq.phase ≠ .run) : seqStep? s = none := by
  unfold seqStep?; split
  · rename_i hr; exact absurd hr h
  · rfl
  · rfl

/-! Runs. -/

theorem run_succ {M : Host.Core} (k : Nat) {s t : M.State} (h : M.step s = .next t) : M.run (k + 1) s = M.run k t := by
  simp only [Host.Core.run, h]

/-- A run of the block, one step at a time. -/
theorem core_run_succ {s t : State} (k : Nat) (h : step s = .next t) : core.run (k + 1) s = core.run k t :=
  run_succ (M := core) k h

end Sys2Proof.Machine
end

