-- ==== Sys2Proof/Laws/Runs.lean ====
section
/-! SUPPORT. The moves to come are only a list: each meaning, and each step of an agent, does the same whatever moves follow it
(log 1). Runs without end, one step at a time (log 14). -/

namespace Sys2Proof.Machine

/-- The state with another list of moves to come. -/
abbrev State.withMoves (s : State) (ms : List Move) : State := { s with moves := ms }

/-- An outcome with another list of moves to come. -/
def onMoves (ms : List Move) : Host.Outcome State Fault Refusal → Host.Outcome State Fault Refusal
  | .next t => .next (t.withMoves ms)
  | .fault r => .fault r
  | .refused r => .refused r

theorem setRb_withMoves (s : State) (ms : List Move) (b : BufId) (r : Ring) :
    (s.withMoves ms).setRb b r = (s.setRb b r).withMoves ms := by
  rcases b with ⟨⟨⟩, ⟨⟩⟩ <;> rfl

theorem setChn_withMoves (s : State) (ms : List Move) (ch : Ch) (c : Channel) :
    (s.withMoves ms).setChn ch c = (s.setChn ch c).withMoves ms := by
  cases ch <;> rfl

theorem modifySlot_withMoves (s : State) (ms : List Move) (i : Nat) (f : Slot → Slot) :
    (s.withMoves ms).modifySlot i f = (s.modifySlot i f).withMoves ms := by
  unfold State.modifySlot
  dsimp only
  split <;> rfl

theorem rbPush_withMoves (b : BufId) (v : Byte) (s : State) (ms : List Move) :
    rbPush b v (s.withMoves ms) = ((rbPush b v s).1, (rbPush b v s).2.withMoves ms) := by
  rcases rbPush_cases b v s with ⟨h1, e⟩ | ⟨h1, h2, e⟩ | ⟨h1, h2, e⟩ <;> rw [e]
  · exact rbPush_notInitialized v (s := s.withMoves ms) h1
  · exact rbPush_full v (s := s.withMoves ms) h1 h2
  · rw [rbPush_ok v (s := s.withMoves ms) h1 h2, setRb_withMoves]
    rfl

theorem rbPop_withMoves (b : BufId) (s : State) (ms : List Move) :
    rbPop b (s.withMoves ms) = ((rbPop b s).1, (rbPop b s).2.1, (rbPop b s).2.2.withMoves ms) := by
  rcases rbPop_cases b s with ⟨h1, e⟩ | ⟨h1, h2, e⟩ | ⟨h1, h2, e⟩ <;> rw [e]
  · exact rbPop_notInitialized (s := s.withMoves ms) h1
  · exact rbPop_empty (s := s.withMoves ms) h1 h2
  · rw [rbPop_ok (s := s.withMoves ms) h1 h2, setRb_withMoves]
    rfl

theorem rbInit_withMoves (b : BufId) (c : Word) (s : State) (ms : List Move) :
    rbInit b c (s.withMoves ms) = ((rbInit b c s).1, (rbInit b c s).2.withMoves ms) := by
  unfold rbInit
  split
  · rfl
  · rw [setRb_withMoves]
    rfl

theorem recvPop_withMoves (ch : Ch) (s : State) (ms : List Move) :
    recvPop ch (s.withMoves ms) = (recvPop ch s).withMoves ms := by
  unfold recvPop
  rw [rbPop_withMoves]
  rfl

theorem gfFinish_withMoves (ch : Ch) (o : Extraction) (s : State) (ms : List Move) :
    gfFinish ch o (s.withMoves ms) = (gfFinish ch o s).withMoves ms := by
  rw [gfFinish_eq, gfFinish_eq]
  cases ch <;> rfl

theorem gfExtract_withMoves (ch : Ch) (s : State) (ms : List Move) :
    gfExtract ch (s.withMoves ms) = (gfExtract ch s).withMoves ms := by
  unfold gfExtract
  rw [rbPop_withMoves]
  generalize rbPop (rxOf ch) s = p
  obtain ⟨r, v, s1⟩ := p
  cases v with
  | none => exact gfFinish_withMoves _ _ _ _
  | some v =>
    dsimp only
    rw [setChn_withMoves, gfFinish_withMoves, gfFinish_withMoves]
    rw [apply_ite (State.withMoves · ms), apply_ite (State.withMoves · ms)]
    cases ch <;> rfl

theorem seqVisit_withMoves (s : State) (ms : List Move) : seqVisit (s.withMoves ms) = (seqVisit s).withMoves ms := by
  unfold seqVisit
  dsimp only
  split
  · rfl
  · rename_i sl h
    have m1 : ∀ f : Slot → Slot, ({ s with moves := ms, seq := { s.seq with i := s.seq.i + 1 } } : State).modifySlot s.seq.i f =
        (({ s with seq := { s.seq with i := s.seq.i + 1 } } : State).modifySlot s.seq.i f).withMoves ms :=
      fun f => modifySlot_withMoves { s with seq := { s.seq with i := s.seq.i + 1 } } ms _ f
    rw [m1, m1]
    repeat' split
    all_goals rfl

/-- What an instruction does, it does whatever moves are to come. -/
theorem exec_withMoves (i : Instr) (s : State) (ms : List Move) : exec i (s.withMoves ms) = onMoves ms (exec i s) := by
  cases i with
  | rbInit b c => simp only [exec, execRbInit, rbInit_withMoves]; rfl
  | rbPush b v => simp only [exec, execRbPush, rbPush_withMoves]; rfl
  | rbPop b => simp only [exec, execRbPop, rbPop_withMoves]; rfl
  | rbIsEmpty b => simp only [exec, execRbIsEmpty, onMoves]; rw [apply_ite (State.withMoves · ms)]; rfl
  | tmrRegister p cb => simp only [exec, execTmrRegister, onMoves]; rw [apply_ite (State.withMoves · ms)]; rfl
  | tmrStart id => simp only [exec, execTmrStart, onSlot, onMoves, modifySlot_withMoves]; rw [apply_ite (State.withMoves · ms)]; rfl
  | tmrPause id => simp only [exec, execTmrPause, onSlot, onMoves, modifySlot_withMoves]; rw [apply_ite (State.withMoves · ms)]; rfl
  | tmrResume id => simp only [exec, execTmrResume, onSlot, onMoves, modifySlot_withMoves]; rw [apply_ite (State.withMoves · ms)]; rfl
  | tmrAdvance e => simp only [exec, execTmrAdvance, onMoves]; rw [apply_ite (State.withMoves · ms)]; rfl
  | tmrElapsed a b => rfl
  | tickRead => rfl
  | tickDelta a b => rfl
  | cbDone => simp only [exec, execCbDone, onMoves]; rw [apply_ite (State.withMoves · ms)]; rfl
  | chInit ch c =>
    simp only [exec, execChInit, onMoves, rbInit_withMoves, setChn_withMoves]; rw [apply_ite (State.withMoves · ms)]; rfl
  | chSend ch v =>
    simp only [exec, execChSend, onMoves, rbPush_withMoves, State.setArmed, setChn_withMoves]
    rw [← apply_ite (State.withMoves · ms) _ ((rbPush (txOf ch) v s).2.setChn ch _)]
    rfl
  | chRecv ch =>
    simp only [exec, execChRecv, onMoves, recvPop_withMoves]
    rw [apply_ite (State.withMoves · ms), apply_ite (State.withMoves · ms)]
    rfl
  | chGetFrame ch =>
    simp only [exec, execChGetFrame, onMoves, setChn_withMoves]
    rw [apply_ite (State.withMoves · ms), apply_ite (State.withMoves · ms)]
    rfl
  | chPending ch => rfl
  | rxByte ch v =>
    simp only [exec, execRxByte, onMoves, rbPush_withMoves, setChn_withMoves]
    rw [apply_ite (State.withMoves · ms), apply_ite (State.withMoves · ms)]
    rfl
  | txReady ch =>
    simp only [exec, execTxReady, onMoves, rbPop_withMoves, State.setArmed, setChn_withMoves]
    cases (rbPop (txOf ch) s).2.1 <;> rfl
  | tick => rfl

theorem fgStep?_withMoves (s : State) (ms : List Move) : fgStep? (s.withMoves ms) = (fgStep? s).map (State.withMoves · ms) := by
  unfold fgStep?
  dsimp only
  split
  · rfl
  · rename_i ch h
    rw [show ({ s with moves := ms, fg := .ready } : State) = ({ s with fg := .ready } : State).withMoves ms from rfl,
      recvPop_withMoves, apply_ite (Option.map (State.withMoves · ms))]
    rfl
  · rw [gfExtract_withMoves]
    rfl

theorem seqStep?_withMoves (s : State) (ms : List Move) :
    seqStep? (s.withMoves ms) = (seqStep? s).map (State.withMoves · ms) := by
  unfold seqStep?
  dsimp only
  split
  · rw [seqVisit_withMoves, apply_ite (Option.map (State.withMoves · ms)), apply_ite (Option.map (State.withMoves · ms))]
    rfl
  · rfl
  · rfl

/-- What a move does, it does whatever moves are to come after it. -/
theorem takeMove_withMoves (m : Move) (s : State) (ms : List Move) :
    takeMove m (s.withMoves ms) = onMoves ms (takeMove m s) := by
  cases m with
  | command p =>
    simp only [takeMove, issueCommand]
    rw [apply_ite (onMoves ms)]
    cases h : decodeCommand p with
    | ok i => simp only [exec_withMoves]; rfl
    | error e => rfl
  | event port w =>
    simp only [takeMove, deliverEvent]
    cases h : decodeEvent w with
    | ok i =>
      simp only [exec_withMoves]
      rw [apply_ite (onMoves ms), apply_ite (onMoves ms)]
      cases port <;> rfl
    | error e => rfl
  | fg => simp only [takeMove, fgStep?_withMoves]; cases fgStep? s <;> rfl
  | seq => simp only [takeMove, seqStep?_withMoves]; cases seqStep? s <;> rfl

/-- Taking a move leaves the moves to come as they are. -/
theorem moves_takeMove {m : Move} {s t : State} (h : takeMove m s = .next t) : t.moves = s.moves := by
  have e := takeMove_withMoves m s s.moves
  rw [show s.withMoves s.moves = s from rfl, h] at e
  exact congrArg (fun o => match o with | .next u => u.moves | .fault _ => t.moves | .refused _ => t.moves) e

/-! Runs without end. -/

/-- The n-th step of a run is its move, taken in the state before it. -/
theorem IsRun.takeMove {σ : Nat → State} {m : Nat → Move} (h : IsRun σ m) (n : Nat) :
    takeMove (m n) ((σ n).withMoves []) = .next (σ (n + 1)) :=
  (step_cons (s := { σ n with moves := [m n] }) rfl).symm.trans (h n)

/-- A step of a run leaves no move listed. -/
theorem IsRun.moves_succ {σ : Nat → State} {m : Nat → Move} (h : IsRun σ m) (n : Nat) : (σ (n + 1)).moves = [] :=
  moves_takeMove (h.takeMove n)

/-- The n-th step of a run, with any moves listed behind its own. -/
theorem IsRun.step_listed {σ : Nat → State} {m : Nat → Move} (h : IsRun σ m) (n : Nat) (rest : List Move) :
    step { σ n with moves := m n :: rest } = .next { σ (n + 1) with moves := rest } := by
  rw [step_cons (s := { σ n with moves := m n :: rest }) rfl]
  exact (takeMove_withMoves (m n) ((σ n).withMoves []) rest).trans (by rw [h.takeMove n]; rfl)

/-- A step of a run whose move stands for an instruction runs that instruction. -/
theorem IsRun.exec {σ : Nat → State} {m : Nat → Move} (h : IsRun σ m) {n : Nat} {i : Instr} (hi : instrAt σ m n = some i) :
    exec i ((σ n).withMoves []) = .next (σ (n + 1)) := by
  have ht := h.takeMove n
  unfold instrAt State.nextInstr? at hi
  generalize m n = mv at ht hi
  cases mv with
  | command p =>
    simp only [Machine.takeMove, issueCommand] at ht
    dsimp only at hi
    cases hd : decodeCommand p with
    | ok j =>
      rw [hd] at hi ht
      cases hi
      split at ht
      · exact ht
      · cases ht
    | error e => rw [hd] at hi; cases hi
  | event port w =>
    simp only [Machine.takeMove, deliverEvent] at ht
    dsimp only at hi
    cases hd : decodeEvent w with
    | ok j =>
      rw [hd] at hi ht
      dsimp only at hi ht
      split at hi
      · rename_i hp
        cases hi
        rw [if_pos hp] at ht
        split at ht
        · exact ht
        · cases ht
      · cases hi
    | error e => rw [hd] at hi; cases hi
  | fg => cases hi
  | seq => cases hi

/-- What is kept by every step of a run from some step on holds ever after. -/
theorem run_induction {P : Nat → Prop} {n : Nat} (h0 : P n) (hs : ∀ k, n ≤ k → P k → P (k + 1)) : ∀ k, n ≤ k → P k := by
  intro k hk
  induction hk with
  | refl => exact h0
  | step hk ih => exact hs _ hk ih

end Sys2Proof.Machine
end

