-- ==== Sys2Proof/Tests/Slice0.lean ====
section
/-! SUPPORT. Tests. The words and the expected results are those of spec/95_test_vectors.md (its vector is named in each docstring)
or worked by hand from the rule named. The witnesses at the end meet the hypotheses of the statements of
Certificates/Slice0/Obligations.lean. -/

namespace Sys2Proof.Tests

open Sys2Proof.Machine

/-! Well-formedness: the one check, refused and met. -/

/-- No slot 256 has an encoding (R82). -/
theorem test_wf_start_256 : Instr.wellFormed (.tmrStart 256) = false := by decide
theorem test_wf_pause_256 : Instr.wellFormed (.tmrPause 256) = false := by decide
theorem test_wf_resume_256 : Instr.wellFormed (.tmrResume 256) = false := by decide
theorem test_wf_start_255 : Instr.wellFormed (.tmrStart 255) = true := by decide

/-! Decoding, a word of every row. -/

/-- L1-2 line 1. -/
theorem test_decode_rbInit : decodeCommand ⟨0x00000301, 2, 0⟩ = .ok (.rbInit ⟨.modem, .tx⟩ 2) := by decide
/-- ENC-1. -/
theorem test_decode_rbPush : decodeCommand ⟨0x00FF0302, 0, 0⟩ = .ok (.rbPush ⟨.modem, .tx⟩ 0xFF) := by decide
/-- RB-7. -/
theorem test_decode_rbPop : decodeCommand ⟨0x00000203, 0, 0⟩ = .ok (.rbPop ⟨.host, .tx⟩) := by decide
/-- L1-1 line 6; A and B are ignored (R83). -/
theorem test_decode_rbIsEmpty : decodeCommand ⟨0x00000004, 7, 9⟩ = .ok (.rbIsEmpty ⟨.host, .rx⟩) := by decide
/-- L1-3 line 1 and TMR-1. -/
theorem test_decode_tmrRegister : decodeCommand ⟨0x00010010, 0x64, 0⟩ = .ok (.tmrRegister 100 true) ∧
    decodeCommand ⟨0x00000010, 0xA, 0⟩ = .ok (.tmrRegister 10 false) := by decide
/-- ENC-10. -/
theorem test_decode_tmrStart : decodeCommand ⟨0xFF000011, 0, 0⟩ = .ok (.tmrStart 255) := by decide
/-- TMR-3. -/
theorem test_decode_tmrPause : decodeCommand ⟨0x01000012, 0, 0⟩ = .ok (.tmrPause 1) := by decide
/-- TMR-3. -/
theorem test_decode_tmrResume : decodeCommand ⟨0x01000013, 0, 0⟩ = .ok (.tmrResume 1) := by decide
/-- P4 line 9. -/
theorem test_decode_tmrAdvance : decodeCommand ⟨0x00000014, 0xFA, 0⟩ = .ok (.tmrAdvance 250) := by decide
/-- TMR-16. -/
theorem test_decode_tmrElapsed :
    decodeCommand ⟨0x00000015, 0xFFFFFFF0, 0x20⟩ = .ok (.tmrElapsed 0xFFFFFFF0 0x20) := by decide
/-- L1-4. -/
theorem test_decode_tickRead : decodeCommand ⟨0x00000016, 0, 0⟩ = .ok .tickRead := by decide
/-- L1-4 line 1: A is the current tick, B the previous. -/
theorem test_decode_tickDelta :
    decodeCommand ⟨0x00000017, 0x10, 0xFFFFFFF0⟩ = .ok (.tickDelta 0x10 0xFFFFFFF0) := by decide
/-- L1-3 line 5. -/
theorem test_decode_cbDone : decodeCommand ⟨0x00000018, 0, 0⟩ = .ok .cbDone := by decide
/-- L1-6 line 1. -/
theorem test_decode_chInit : decodeCommand ⟨0x00000120, 0x1000, 0⟩ = .ok (.chInit .modem 4096) := by decide
/-- ENC-11. -/
theorem test_decode_chSend : decodeCommand ⟨0x000A0121, 0, 0⟩ = .ok (.chSend .modem 0x0A) := by decide
/-- FC-19. -/
theorem test_decode_chRecv : decodeCommand ⟨0x00000022, 0, 0⟩ = .ok (.chRecv .host) := by decide
/-- L1-6 line 4. -/
theorem test_decode_chGetFrame : decodeCommand ⟨0x00000123, 0, 0⟩ = .ok (.chGetFrame .modem) := by decide
/-- FC-15. -/
theorem test_decode_chPending : decodeCommand ⟨0x00000124, 0, 0⟩ = .ok (.chPending .modem) := by decide
/-- L1-6 line 3. -/
theorem test_decode_rxByte : decodeEvent 0x000A01E0 = .ok (.rxByte .modem 0x0A) := by decide
/-- "Port words". -/
theorem test_decode_txReady : decodeEvent 0x000001E1 = .ok (.txReady .modem) := by decide
/-- "Port words". -/
theorem test_decode_tick : decodeEvent 0x000000E2 = .ok .tick := by decide

/-! Words no row matches, refused by name. -/

/-- ENC-2: a 1 in bit 10. -/
theorem test_reject_reserved : decodeCommand ⟨0x00000402, 0, 0⟩ = .error .reservedBits := by decide
/-- ENC-3, ENC-6, ENC-7, ENC-8, ENC-9: a 1 in a field the row does not use. -/
theorem test_reject_unused : decodeCommand ⟨0x01000002, 0, 0⟩ = .error .unusedField ∧
    decodeCommand ⟨0x00020010, 0, 0⟩ = .error .unusedField ∧ decodeCommand ⟨0x00000111, 0, 0⟩ = .error .unusedField ∧
    decodeCommand ⟨0x00000223, 0, 0⟩ = .error .unusedField ∧ decodeCommand ⟨0x00010014, 0, 0⟩ = .error .unusedField := by
  decide
/-- ENC-4, ENC-12: `OP` values of no row. -/
theorem test_reject_unassigned : decodeCommand ⟨0x00000005, 0, 0⟩ = .error (.unassignedOpcode 0x05) ∧
    decodeCommand ⟨0x00000000, 0, 0⟩ = .error (.unassignedOpcode 0x00) := by decide
/-- ENC-5: an event on the command port; and a command on an event port. -/
theorem test_reject_port : decodeCommand ⟨0x000000E0, 0, 0⟩ = .error (.eventOnCommandPort 0xE0) ∧
    decodeEvent 0x00000002 = .error (.commandOnEventPort 0x02) := by decide
/-- "Port words": DATA set on TICK. -/
theorem test_reject_event : decodeEvent 0x000100E2 = .error .unusedField := by decide

/-! Single steps on small states. -/

/-- A block after reset with two timer slots, every draw a number. -/
def blank : State where
  status  := 0
  result  := 0
  fg      := .ready
  hostRx  := Ring.reset
  hostTx  := Ring.reset
  modemRx := Ring.reset
  modemTx := Ring.reset
  host    := Channel.reset
  modem   := Channel.reset
  tcount  := 0
  slots   := [⟨0, 0, false, false⟩, ⟨0, 0, false, false⟩]
  seq     := ⟨.idle, 0, 0, 0, 0, 0⟩
  tick    := 0xFFFFFFF0
  trace   := []
  moves   := []

/-- An initialized ring. -/
def ring (cap head tail count : Nat) (store : Memory) : Ring := ⟨true, cap, head, tail, count, store⟩

/-- `blank` with a given HOST.RX. -/
def withRx (r : Ring) : State := { blank with hostRx := r }

/-- The state after an instruction, or `blank` where it answers none (every instruction answers one). -/
def after (i : Instr) (s : State) : State :=
  match exec i s with
  | .next t => t
  | .fault _ => blank
  | .refused _ => blank

/-- The state after a step, or `blank` where the step is refused. -/
def stepped (s : State) : State :=
  match step s with
  | .next t => t
  | .fault _ => blank
  | .refused _ => blank

/-- The buffer HOST.RX. -/
abbrev hostRx : BufId := ⟨.host, .rx⟩

/-- STATUS and RESULT. -/
def answer (s : State) : Byte × Word := (s.status, s.result)

/-- RB-3, and RB-2: 2049 is above STORE_SIZE. -/
theorem test_rbInit_legal : answer (after (.rbInit hostRx 2048) blank) = (0x00, 0) ∧
    ((after (.rbInit hostRx 2048) blank).rb hostRx).cap = 2048 := by decide
theorem test_rbInit_above : answer (after (.rbInit hostRx 2049) blank) = (0x06, 0) ∧
    ((after (.rbInit hostRx 2049) blank).rb hostRx).init = false := by decide
/-- RB-13: after the fourth push, `Store(HOST.RX, 0) = 4`, `head = 1`, `Q = [2, 3, 4]`. -/
theorem test_rbPush_wraps :
    (after (.rbPush hostRx 4) (withRx (ring 3 0 1 2 [(0, 1), (1, 2), (2, 3)]))).rb hostRx =
      ring 3 1 1 3 [(0, 4), (1, 2), (2, 3)] := by decide
/-- L1-2 line 4: Full, nothing else changed. -/
theorem test_rbPush_full : after (.rbPush hostRx 0x43) (withRx (ring 2 0 0 2 [(0, 0x41), (1, 0x42)])) =
    { withRx (ring 2 0 0 2 [(0, 0x41), (1, 0x42)]) with status := 0x01, trace := [.resp 0x02 .full 0] } := by decide
/-- P1 line 7: the tail wraps. -/
theorem test_rbPop_wraps : answer (after (.rbPop hostRx) (withRx (ring 2 1 1 2 [(0, 3), (1, 2)]))) = (0x00, 2) ∧
    (after (.rbPop hostRx) (withRx (ring 2 1 1 2 [(0, 3), (1, 2)]))).rb hostRx = ring 2 1 0 1 [(0, 3), (1, 2)] := by decide
/-- L1-2 line 7: Empty. -/
theorem test_rbPop_empty : answer (after (.rbPop hostRx) (withRx (ring 2 0 0 0 []))) = (0x02, 0) := by decide
/-- L1-1 lines 6 and 11. -/
theorem test_rbIsEmpty : answer (after (.rbIsEmpty hostRx) (withRx (ring 4 3 1 2 [(1, 2), (2, 3)]))) = (0x00, 0) ∧
    answer (after (.rbIsEmpty hostRx) (withRx (ring 4 0 0 0 []))) = (0x00, 1) := by decide
/-- RB-6. -/
theorem test_rbIsEmpty_notInitialized : answer (after (.rbIsEmpty hostRx) blank) = (0x0A, 0) := by decide

/-- `blank` with its first slots registered. -/
def withTimers (n : Nat) (sls : List Slot) : State := { blank with tcount := n, slots := sls }

/-- L1-3 line 1. -/
theorem test_tmrRegister : answer (after (.tmrRegister 100 true) blank) = (0x00, 0) ∧
    (after (.tmrRegister 100 true) blank).slots = [⟨100, 0, false, true⟩, ⟨0, 0, false, false⟩] ∧
    (after (.tmrRegister 100 true) blank).tcount = 1 := by decide
/-- TMR-1: the table is full. -/
theorem test_tmrRegister_full :
    answer (after (.tmrRegister 10 false) (withTimers 2 [⟨10, 0, false, false⟩, ⟨10, 0, false, false⟩])) = (0x05, 0) := by
  decide
/-- TMR-15: a second start clears the accumulator. -/
theorem test_tmrStart : (after (.tmrStart 0) (withTimers 1 [⟨100, 60, true, false⟩])).slots = [⟨100, 0, true, false⟩] := by
  decide
/-- TMR-3: the first free id is not registered. -/
theorem test_tmrStart_invalid : answer (after (.tmrStart 1) (withTimers 1 [⟨10, 0, false, false⟩, ⟨7, 7, true, true⟩])) =
    (0x08, 0) := by decide
/-- TMR-7: pause and resume keep the accumulator. -/
theorem test_tmrPause : (after (.tmrPause 0) (withTimers 1 [⟨100, 60, true, true⟩])).slots = [⟨100, 60, false, true⟩] := by
  decide
theorem test_tmrResume : (after (.tmrResume 0) (withTimers 1 [⟨100, 60, false, true⟩])).slots = [⟨100, 60, true, true⟩] := by
  decide
/-- L1-3 line 3: the pass begins and nothing is answered; TMR-10: a nested pass is Busy. -/
theorem test_tmrAdvance : (after (.tmrAdvance 100) (withTimers 1 [⟨100, 0, true, true⟩])).seq = ⟨.run, 0, 1, 100, 0, 0⟩ ∧
    (after (.tmrAdvance 100) (withTimers 1 [⟨100, 0, true, true⟩])).trace = [] ∧
    answer (after (.tmrAdvance 1) { blank with seq := ⟨.waitCb, 1, 1, 10, 1, 0⟩ }) = (0x09, 0) := by decide

/-- A pass of `e` ticks about to visit slot 0 of one timer. -/
def inPass (e : Word) (sl : Slot) : State :=
  { withTimers 1 [sl] with seq := ⟨.run, 0, 1, e, 0, 0⟩, moves := [.seq] }

/-- L1-3b: the overflow discards the excess and triggers once; TMR-9: the sum is exact, a sum modulo 2^32 would not fire; L1-3
line 6: the end of the pass. -/
theorem test_pass : (stepped (inPass 150 ⟨100, 0, true, true⟩)).slots = [⟨100, 0, true, true⟩] ∧
    (stepped (inPass 150 ⟨100, 0, true, true⟩)).trace = [.trig 0] ∧
    (stepped (inPass 150 ⟨100, 0, true, true⟩)).seq = ⟨.waitCb, 1, 1, 150, 1, 0⟩ ∧
    (stepped (inPass 0x20 ⟨0xFFFFFFFF, 0xFFFFFFF0, true, true⟩)).trace = [.trig 0] ∧
    answer (stepped { blank with seq := ⟨.run, 1, 1, 100, 1, 0⟩, moves := [.seq] }) = (0x00, 1) := by decide
/-- L1-3 line 5, and TMR-11. -/
theorem test_cbDone : (after .cbDone { blank with seq := ⟨.waitCb, 1, 1, 100, 1, 0⟩ }).seq = ⟨.run, 1, 1, 100, 1, 0⟩ := by
  decide
theorem test_cbDone_illegal : answer (after .cbDone blank) = (0x07, 0) := by decide
/-- TMR-16 and TMR-17. -/
theorem test_tmrElapsed : answer (after (.tmrElapsed 0xFFFFFFF0 32) { blank with tick := 0x10 }) = (0x00, 1) ∧
    answer (after (.tmrElapsed 0xFFFFFFF0 33) { blank with tick := 0x10 }) = (0x00, 0) := by decide
theorem test_tmrElapsed_wraps : answer (after (.tmrElapsed 6 0xFFFFFFFF) { blank with tick := 5 }) = (0x00, 1) := by decide
/-- L1-4. -/
theorem test_tickRead : answer (after .tickRead blank) = (0x00, 0xFFFFFFF0) := by decide
theorem test_tickDelta : answer (after (.tickDelta 0x10 0xFFFFFFF0) blank) = (0x00, 32) := by decide
/-- TMR-18. -/
theorem test_tickDelta_wraps : answer (after (.tickDelta 0 1) blank) = (0x00, 0xFFFFFFFF) := by decide
/-- TMR-19. -/
theorem test_tick : (after .tick { blank with tick := 0xFFFFFFFF }).tick = 0 := by decide

/-- FC-23: a CH_INIT disarms the channel and empties both buffers; FC-1. -/
theorem test_chInit : (after (.chInit .host 2048) { blank with
      hostTx := ring 2048 1 0 1 [(0, 0x41)], host := { Channel.reset with armed := true, pending := 3 } }).hostTx =
        ring 2048 0 0 0 [(0, 0x41)] ∧
    (after (.chInit .host 2048) { blank with
      hostTx := ring 2048 1 0 1 [(0, 0x41)], host := { Channel.reset with armed := true, pending := 3 } }).host =
        Channel.reset := by decide
theorem test_chInit_sizes : answer (after (.chInit .host 2049) blank) = (0x06, 0) ∧
    answer (after (.chInit .modem 4096) blank) = (0x00, 0) := by decide
/-- FC-21: a send into a full TX arms the channel all the same. -/
theorem test_chSend_full : answer (after (.chSend .host 0x42) { blank with hostTx := ring 1 0 0 1 [(0, 0x41)] }) = (0x01, 0) ∧
    (after (.chSend .host 0x42) { blank with hostTx := ring 1 0 0 1 [(0, 0x41)] }).host.armed = true := by decide
/-- FC-2: a send before the init does not arm. -/
theorem test_chSend_notInitialized : answer (after (.chSend .host 0x41) blank) = (0x0A, 0) ∧
    (after (.chSend .host 0x41) blank).host.armed = false := by decide
/-- FC-19: the hold, and its completion. -/
theorem test_chRecv_holds : (after (.chRecv .host) (withRx (ring 2048 0 0 0 []))).fg = .recv .host ∧
    (after (.chRecv .host) (withRx (ring 2048 0 0 0 []))).trace = [] := by decide
theorem test_chRecv_completes :
    answer (stepped { withRx (ring 2048 1 0 1 [(0, 0x5A)]) with fg := .recv .host, moves := [.fg] }) = (0x00, 0x5A) ∧
    (stepped { withRx (ring 2048 1 0 1 [(0, 0x5A)]) with fg := .recv .host, moves := [.fg] }).fg = .ready := by decide

/-- A channel with a pending frame. -/
def onePending : Channel := { Channel.reset with pending := 1 }

/-- L1-5 line 8, and L1-7a line 6. -/
theorem test_chGetFrame_issue : (after (.chGetFrame .host) { withRx (ring 2048 1 0 1 [(0, 0x0D)]) with
      host := { onePending with gfK := 9 } }).fg = .getFrame .host ∧
    (after (.chGetFrame .host) { withRx (ring 2048 1 0 1 [(0, 0x0D)]) with
      host := { onePending with gfK := 9 } }).host.gfK = 0 ∧
    answer (after (.chGetFrame .host) (withRx (ring 2048 2 2 0 [(0, 0x41), (1, 0x42)]))) = (0x03, 0) := by decide

/-- FC-17's last extraction step: MODEM has stored "OK" and CR and meets the LF. -/
def lastStep : State := { blank with
  fg := .getFrame .modem, moves := [.fg], modemRx := ring 4096 4 3 1 [(0, 0x4F), (1, 0x4B), (2, 0x0D), (3, 0x0A)],
  modem := { onePending with frameBuf := [(0, 0x4F), (1, 0x4B), (2, 0x0D), (3, 0x77), (4, 0x77)], gfK := 3 } }

/-- FC-17: the frame is the three bytes, 0x00 behind them, and what lay above is no longer known; L1-6 line 6: a single CR is
filtered; FC-13: the second of two stored bytes reaches `cap = 2` without a terminator; L1-7b line 9: RX is empty. -/
theorem test_extraction : answer (stepped lastStep) = (0x00, 3) ∧ (stepped lastStep).modem.frameLen = 3 ∧
    (stepped lastStep).modem.frameBuf = [(0, 0x4F), (1, 0x4B), (2, 0x0D), (3, 0x00)] ∧
    (stepped lastStep).modem.pending = 0 ∧
    answer (stepped { lastStep with modem := { onePending with frameBuf := [(0, 0x0D)], gfK := 1 } }) = (0x03, 0) ∧
    answer (stepped { withRx (ring 2 1 0 1 [(0, 0x42)]) with
      fg := .getFrame .host, moves := [.fg], host := { onePending with frameBuf := [(0, 0x41)], gfK := 1 } }) = (0x04, 0) ∧
    answer (stepped { withRx (ring 2048 3 3 0 []) with
      fg := .getFrame .host, moves := [.fg], host := onePending }) = (0x04, 0) := by decide
/-- FC-2: CH_PENDING before CH_INIT. -/
theorem test_chPending : answer (after (.chPending .host) { blank with host := onePending }) = (0x00, 1) ∧
    answer (after (.chPending .host) blank) = (0x00, 0) := by decide
/-- L1-6 line 3: LF is the MODEM's terminator, CR is not. -/
theorem test_rxByte_terminator : (after (.rxByte .modem 0x0A) { blank with modemRx := ring 4 0 0 0 [] }).modem.pending = 1 ∧
    (after (.rxByte .modem 0x0D) { blank with modemRx := ring 4 0 0 0 [] }).modem.pending = 0 := by decide
/-- FC-4: a terminator that does not fit is dropped and not counted. -/
theorem test_rxByte_drop : after (.rxByte .host 0x0D) (withRx (ring 2 0 0 2 [(0, 0x41), (1, 0x42)])) =
    { withRx (ring 2 0 0 2 [(0, 0x41), (1, 0x42)]) with trace := [.rxDrop .host 0x0D] } := by decide
/-- FC-21: the oldest byte, then idle. -/
theorem test_txReady_sends : (after (.txReady .host) { blank with
    hostTx := ring 1 0 0 1 [(0, 0x41)], host := { Channel.reset with armed := true } }).trace = [.tx .host 0x41] := by decide
theorem test_txReady_idle : (after (.txReady .host) { blank with
      hostTx := ring 1 0 0 0 [], host := { Channel.reset with armed := true } }).trace = [.txIdle .host] ∧
    (after (.txReady .host) { blank with
      hostTx := ring 1 0 0 0 [], host := { Channel.reset with armed := true } }).host.armed = false := by decide

/-- EX-2: in a callback, a TMR_ADVANCE word with CH = 1 is IllegalCommand, not Busy. -/
theorem test_illegal_before_busy : answer (stepped { blank with
    seq := ⟨.waitCb, 1, 1, 10, 1, 0⟩, moves := [.command ⟨0x00000114, 0, 0⟩] }) = (0x07, 0) := by decide
/-- EX-5: a reserved bit before the capacity check. -/
theorem test_illegal_before_capacity : answer (stepped { blank with moves := [.command ⟨0x00001001, 0, 0⟩] }) = (0x07, 0) := by
  decide
/-- R207: no command while FG holds, no TX_READY while the channel is not armed. -/
theorem test_no_move : step { blank with fg := .recv .host, moves := [.command ⟨0x00000016, 0, 0⟩] } =
      .refused (.notEnabled .fg) ∧
    step { blank with moves := [.event (.txt .host) 0x000000E1] } = .refused (.notEnabled (.txt .host)) := by
  constructor <;> rfl

/-! Witnesses: concrete states and operands that meet the hypotheses of the statements, clause by clause. -/

/-- HOST is armed and has a pending frame, MODEM a pending frame "CR LF", two timers run. -/
def busy (rx tx : Ring) : State := { blank with
  hostRx := rx, hostTx := tx, modemRx := ring 4 2 0 2 [(0, 0x0D), (1, 0x0A)], modemTx := ring 2 0 0 0 [],
  host := { onePending with armed := true }, modem := onePending,
  tcount := 2, slots := [⟨100, 60, true, true⟩, ⟨50, 0, true, false⟩] }

/-- "A", CR, "B". -/
def frameRing : Ring := ring 4 3 0 3 [(0, 0x41), (1, 0x0D), (2, 0x42)]

/-- "A", without a terminator. -/
def desyncRing : Ring := ring 4 1 0 1 [(0, 0x41)]

/-- Full, without a terminator; the head has wrapped. -/
def fullRing : Ring := ring 2 1 1 2 [(0, 0x42), (1, 0x41)]

theorem frameRing_inv : RingInv 2048 frameRing := by
  constructor <;> decide

theorem desyncRing_inv : RingInv 2048 desyncRing := by
  constructor <;> decide

theorem fullRing_inv : RingInv 2048 fullRing := by
  constructor <;> decide

/-- One byte to send. -/
def txRing : Ring := ring 2 1 0 1 [(0, 0x58)]

/-- Nothing to send. -/
def sentRing : Ring := ring 2 1 1 0 [(0, 0x58)]

theorem txRing_inv : RingInv 2048 txRing := by
  constructor <;> decide

theorem sentRing_inv : RingInv 2048 sentRing := by
  constructor <;> decide

theorem crLf_inv : RingInv 4096 (ring 4 2 0 2 [(0, 0x0D), (1, 0x0A)]) := by
  constructor <;> decide

theorem empty_inv : RingInv 4096 (ring 2 0 0 0 []) := by
  constructor <;> decide

/-- `busy` meets the invariant of the block. -/
theorem busy_inv {rx tx : Ring} (hr : RingInv 2048 rx) (ht : RingInv 2048 tx) (hi : tx.init = true) :
    BlockInv (busy rx tx) where
  rings := by
    rintro ⟨⟨⟩, ⟨⟩⟩
    · exact hr
    · exact ht
    · exact crLf_inv
    · exact empty_inv
  channels := by
    rintro ⟨⟩
    · exact ⟨rfl, nofun, Nat.zero_lt_succ 2047, Nat.zero_le _, fun _ => hi, nofun, nofun⟩
    · exact ⟨rfl, nofun, Nat.zero_lt_succ 4095, Nat.zero_le _, nofun, nofun, nofun⟩
  timers := by
    refine ⟨Nat.le_succ 1, (by decide : 2 ≤ 256), Nat.le_refl 2, ?_⟩
    intro j hj sl hs
    change j < 2 at hj
    match j, hj with
    | 0, _ => cases hs; decide
    | 1, _ => cases hs; decide
  sequencer := ⟨Nat.zero_le _, Nat.zero_le _, Nat.zero_le _, Nat.zero_lt_succ 1, fun h => absurd rfl h, nofun, nofun⟩
  response := ⟨.ok, rfl, fun h => absurd rfl h⟩

/-- DecodeOfEncodeIsTheInstruction, EncodeOfDecodeIsTheWord, WordDecodesAsRowIffMaskedWordMatches. -/
theorem witness_encoding : Instr.wellFormed (.tmrResume 255) = true ∧
    decodeCommand ⟨0x00FF0302, 5, 6⟩ = .ok (.rbPush ⟨.modem, .tx⟩ 0xFF) ∧ decodeEvent 0x000A01E0 = .ok (.rxByte .modem 0x0A) ∧
    (0x00FF0302 : Word) &&& Opcode.rbPush.mask = Opcode.rbPush.pattern := by decide

/-- StepRunsTheDecodedInstruction, its four clauses; the first in the idle phase and in a callback. -/
theorem witness_StepRuns :
    (decodeCommand ⟨0x00000016, 0, 0⟩ = .ok .tickRead ∧ blank.fg = .ready ∧ blank.seq.phase = .idle ∧
      { blank with seq := ⟨.waitCb, 1, 1, 0, 1, 0⟩ }.seq.phase = .waitCb) ∧
    decodeEvent 0x00FF01E0 = .ok (.rxByte .modem 0xFF) ∧
    (decodeEvent 0x000000E1 = .ok (.txReady .host) ∧ ((busy frameRing txRing).chn .host).armed = true) ∧
    decodeEvent 0x000000E2 = .ok .tick := by decide

/-- StepWithNoMoveTakesTheBlocksOwnStep, its three clauses. -/
theorem witness_StepWithNoMove :
    (∃ t, fgStep? { busy frameRing txRing with fg := .getFrame .host } = some t) ∧
    (fgStep? { blank with seq := ⟨.run, 0, 0, 0, 0, 0⟩ } = none ∧
      ∃ t, seqStep? { blank with seq := ⟨.run, 0, 0, 0, 0, 0⟩ } = some t) ∧
    (blank.moves = [] ∧ fgStep? blank = none ∧ seqStep? blank = none) :=
  ⟨⟨_, rfl⟩, ⟨rfl, _, rfl⟩, rfl, rfl, rfl⟩

/-- StepRefusesWhatHasNoMove, its clauses. -/
theorem witness_StepRefuses :
    ({ blank with fg := .recv .host }.fg ≠ .ready ∧ { blank with seq := ⟨.run, 0, 0, 0, 0, 0⟩ }.seq.phase = .run) ∧
    (decodeEvent 0x000001E1 = .ok (.txReady .modem) ∧ (blank.chn .modem).armed = false) ∧
    (blank.fg = .ready ∧ { blank with fg := .recv .host }.fg = .recv .host ∧ (blank.rb (rxOf .host)).count = 0) ∧
    (blank.seq.phase = .idle ∧ { blank with seq := ⟨.waitCb, 1, 1, 0, 1, 0⟩ }.seq.phase = .waitCb) := by decide

/-- IllegalCommandChangesOnlyTheResponse: ENC-12 and ENC-2 match no command row. -/
theorem witness_IllegalCommand : blank.fg = .ready ∧ blank.seq.phase ≠ .run ∧ blank.seq.phase ≠ .waitCb ∧
    (∀ o : Opcode, o.isEvent = false → (0x00000000 : Word) &&& o.mask ≠ o.pattern) ∧
    ∀ o : Opcode, o.isEvent = false → (0x00000402 : Word) &&& o.mask ≠ o.pattern := by
  refine ⟨rfl, by decide, by decide, ?_, ?_⟩ <;> intro o <;> cases o <;> decide

/-- UnmatchedEventWordIsIgnored: DATA set on TICK matches no event row. -/
theorem witness_UnmatchedEvent : ∀ o : Opcode, o.isEvent = true → (0x000100E2 : Word) &&& o.mask ≠ o.pattern := by
  intro o
  cases o <;> decide

/-- RbInitResult and ChInitResult: the capacities at the edges of the legal range. -/
theorem witness_capacities :
    Config.storeSize .host < (2049 : Word).toNat ∧ Config.storeSize .modem < (4097 : Word).toNat ∧
    ((1 : Word) ≠ 0 ∧ (1 : Word).toNat ≤ Config.storeSize .host) ∧
    ((2048 : Word) ≠ 0 ∧ (2048 : Word).toNat ≤ Config.storeSize .host) ∧
    ((4096 : Word) ≠ 0 ∧ (4096 : Word).toNat ≤ Config.storeSize .modem) := by decide

/-- RbPushResult, RbPopResult, RbIsEmptyResult, ChRecvResult, RxByteResult, AfterReset: a buffer that is uninitialized, full, empty, and
neither. -/
theorem witness_rings :
    (blank.rb hostRx).init = false ∧
    (((withRx fullRing).rb hostRx).init = true ∧ ((withRx fullRing).rb hostRx).count = ((withRx fullRing).rb hostRx).cap) ∧
    (((withRx (ring 2 0 0 0 [])).rb hostRx).init = true ∧ ((withRx (ring 2 0 0 0 [])).rb hostRx).count = 0) ∧
    (((withRx frameRing).rb hostRx).init = true ∧ ((withRx frameRing).rb hostRx).count ≠ 0 ∧
      ((withRx frameRing).rb hostRx).count ≠ ((withRx frameRing).rb hostRx).cap) := by decide

/-- ChSendResult, TxReadyResult: the same of a TX buffer. -/
theorem witness_txRings :
    (blank.rb (txOf .host)).init = false ∧
    ({ blank with hostTx := fullRing }.rb (txOf .host)).count = ({ blank with hostTx := fullRing }.rb (txOf .host)).cap ∧
    ({ blank with hostTx := ring 2 0 0 0 [] }.rb (txOf .host)).count = 0 ∧
    (((busy frameRing txRing).rb (txOf .host)).init = true ∧ ((busy frameRing txRing).rb (txOf .host)).count ≠ 0 ∧
      ((busy frameRing txRing).rb (txOf .host)).count ≠ ((busy frameRing txRing).rb (txOf .host)).cap) := by decide

/-- PushAppendsAndPopRemovesTheOldest, RingBufferIsFifo. -/
theorem witness_queue : RingInv (Config.storeSize .host) ((withRx frameRing).rb hostRx) ∧
    ((withRx frameRing).rb hostRx).init = true ∧
    ((withRx frameRing).rb hostRx).count < ((withRx frameRing).rb hostRx).cap ∧
    (withRx frameRing).queue hostRx = [0x41, 0x0D, 0x42] :=
  ⟨frameRing_inv, rfl, by decide, rfl⟩

/-- RingBufferIsFifo, its last clauses: from an empty buffer of capacity 1, a push fills it and a pop empties it. -/
theorem witness_fifo : RingInv (Config.storeSize .host) ((withRx (ring 1 0 0 0 [])).rb hostRx) ∧
    (withRx (ring 1 0 0 0 [])).queue hostRx = [] ∧
    ((runRbOps hostRx [.push 7] (withRx (ring 1 0 0 0 []))).final.rb hostRx).isFull = true ∧
    ((runRbOps hostRx [.push 7, .pop] (withRx (ring 1 0 0 0 []))).final.rb hostRx).isEmpty = true :=
  ⟨by constructor <;> decide, rfl, by decide, by decide⟩

/-- RingCommandFrame: each of its instructions answers a next state, RB_PUSH on a buffer that admits its byte and on a full one. -/
theorem witness_ringFrame :
    (∃ t, exec (.rbInit hostRx 3) (busy frameRing txRing) = .next t) ∧
    (∃ t, exec (.rbPush hostRx 1) (busy frameRing txRing) = .next t) ∧
    ((busy frameRing txRing).rb hostRx).count ≠ ((busy frameRing txRing).rb hostRx).cap ∧
    (∃ t, exec (.rbPush hostRx 1) (busy fullRing txRing) = .next t) ∧
    ((busy fullRing txRing).rb hostRx).count = ((busy fullRing txRing).rb hostRx).cap ∧
    ∃ t, exec (.rbPop hostRx) (busy frameRing txRing) = .next t :=
  ⟨⟨_, rfl⟩, ⟨_, rfl⟩, by decide, ⟨_, rfl⟩, by decide, _, rfl⟩

/-- TimerCommandFrame: each of its instructions. -/
theorem witness_timerFrame : ∀ i ∈ [Instr.tmrRegister 7 true, .tmrStart 1, .tmrPause 1, .tmrResume 1, .tmrAdvance 5, .cbDone,
    .tmrElapsed 1 2, .tickRead, .tickDelta 1 2], channelOf i = none ∧ i ≠ .tick ∧ ∃ t, exec i (busy frameRing txRing) = .next t := by
  simp only [List.forall_mem_cons, List.not_mem_nil, false_implies, implies_true, and_true]
  exact ⟨⟨rfl, nofun, _, rfl⟩, ⟨rfl, nofun, _, rfl⟩, ⟨rfl, nofun, _, rfl⟩, ⟨rfl, nofun, _, rfl⟩, ⟨rfl, nofun, _, rfl⟩,
    ⟨rfl, nofun, _, rfl⟩, ⟨rfl, nofun, _, rfl⟩, ⟨rfl, nofun, _, rfl⟩, rfl, nofun, _, rfl⟩

/-- ChannelInstructionFrame, ChannelsAndTimersShareNoState: each instruction of a channel. -/
theorem witness_channelFrame : ∀ i ∈ [Instr.chInit .host 3, .chSend .host 1, .chRecv .host, .chGetFrame .host, .chPending .host,
    .rxByte .host 1, .txReady .host], channelOf i = some .host ∧ ∃ t, exec i (busy frameRing txRing) = .next t := by
  simp only [List.forall_mem_cons, List.not_mem_nil, false_implies, implies_true, and_true]
  exact ⟨⟨rfl, _, rfl⟩, ⟨rfl, _, rfl⟩, ⟨rfl, _, rfl⟩, ⟨rfl, _, rfl⟩, ⟨rfl, _, rfl⟩, ⟨rfl, _, rfl⟩, rfl, _, rfl⟩

/-- TmrRegisterResult, UnregisteredTimerIdIsInvalid, TmrStartPauseResumeResult: a full table and one that is not; the first id that is not
registered and the last that is. -/
theorem witness_timers : (busy frameRing txRing).tcount = (busy frameRing txRing).nTimers ∧ blank.tcount < blank.nTimers ∧
    (busy frameRing txRing).tcount ≤ 2 ∧ 1 < (busy frameRing txRing).tcount ∧
    (busy frameRing txRing).slots[1]? = some ⟨50, 0, true, false⟩ := by decide

/-- TmrAdvanceIssueResult, CbDoneResult: both phases. -/
theorem witness_phases : blank.seq.phase = .idle ∧ blank.seq.phase ≠ .waitCb ∧
    { blank with seq := ⟨.waitCb, 1, 1, 0, 1, 0⟩ }.seq.phase = .waitCb := by decide

/-- SeqVisitResult: the four kinds of slot, at and just below the period. -/
theorem witness_SeqVisit :
    ((inPass 40 ⟨100, 60, true, true⟩).moves = .seq :: [] ∧ (inPass 40 ⟨100, 60, true, true⟩).seq.phase = .run ∧
      (inPass 40 ⟨100, 60, true, true⟩).seq.i < (inPass 40 ⟨100, 60, true, true⟩).seq.n ∧
      (inPass 40 ⟨100, 60, true, true⟩).slots[0]? = some ⟨100, 60, true, true⟩) ∧
    (⟨100, 60, false, true⟩ : Slot).active = false ∧
    (⟨100, 60, true, true⟩ : Slot).acc.toNat + (39 : Word).toNat < (⟨100, 60, true, true⟩ : Slot).period.toNat ∧
    ((⟨100, 60, true, false⟩ : Slot).period.toNat ≤ (⟨100, 60, true, false⟩ : Slot).acc.toNat + (40 : Word).toNat ∧
      (⟨100, 60, true, false⟩ : Slot).cbEn = false) ∧
    ((⟨100, 60, true, true⟩ : Slot).period.toNat ≤ (⟨100, 60, true, true⟩ : Slot).acc.toNat + (40 : Word).toNat ∧
      (⟨100, 60, true, true⟩ : Slot).cbEn = true) := by decide

/-- SeqEndResult. -/
theorem witness_SeqEnd : { blank with seq := ⟨.run, 1, 1, 5, 1, 0⟩ }.seq.phase = .run ∧
    { blank with seq := ⟨.run, 1, 1, 5, 1, 0⟩ }.seq.i = { blank with seq := ⟨.run, 1, 1, 5, 1, 0⟩ }.seq.n := by decide

/-- TriggersComeOnlyFromAPass. -/
theorem witness_Triggers : ∃ t, step (inPass 150 ⟨100, 0, true, true⟩) = .next t ∧
    t.trace = (inPass 150 ⟨100, 0, true, true⟩).trace ++ [.trig 0] :=
  ⟨_, rfl, rfl⟩

/-- The schedule of a pass of 40 ticks in `busy frameRing txRing`: slot 0 reaches its period, slot 1 does not. -/
def passState : State := { busy frameRing txRing with
  moves := [.command ⟨0x00000014, 40, 0⟩, .seq, .command ⟨0x00000018, 0, 0⟩, .seq, .seq] }

/-- WholePassAdvancesEveryTimerOnce. -/
theorem witness_WholePass : BlockInv passState ∧ passState.fg = .ready ∧ passState.seq.phase = .idle ∧
    passState.moves = .command (encode (.tmrAdvance 40)) :: passMoves 40 (passState.slots.take passState.tcount) ++ [] ∧
    triggered 40 0 (passState.slots.take passState.tcount) = [0] :=
  ⟨(busy_inv frameRing_inv txRing_inv rfl).setMoves _, rfl, rfl, by decide, by decide⟩

/-- TmrElapsedResult: the threshold reached, and one above. -/
theorem witness_TmrElapsed :
    ((32 : Word).toNat ≤ (({ blank with tick := 0x10 }).tick.toNat + (2 ^ 32 - (0xFFFFFFF0 : Word).toNat)) % 2 ^ 32) ∧
    (({ blank with tick := 0x10 }).tick.toNat + (2 ^ 32 - (0xFFFFFFF0 : Word).toNat)) % 2 ^ 32 < (33 : Word).toNat := by decide

/-- ChRecvResult, its last clause. -/
theorem witness_ChRecv : { busy frameRing txRing with fg := .recv .host, moves := [.fg] }.fg = .recv .host ∧
    ({ busy frameRing txRing with fg := .recv .host, moves := [.fg] }.rb (rxOf .host)).init = true ∧
    ({ busy frameRing txRing with fg := .recv .host, moves := [.fg] }.rb (rxOf .host)).count ≠ 0 := by decide

/-- ChGetFrameIssueResult: no frame pending, and one. -/
theorem witness_ChGetFrame : ((withRx frameRing).rb (rxOf .host)).init = true ∧ ((withRx frameRing).chn .host).pending = 0 ∧
    ((busy frameRing txRing).rb (rxOf .host)).init = true ∧ ((busy frameRing txRing).chn .host).pending ≠ 0 := by decide

/-- An extraction at cursor k of HOST.RX, with CR stored at cursor 0. -/
def extracting (rx : Ring) (k : Nat) : State := { busy rx txRing with
  fg := .getFrame .host, moves := [.fg], host := { onePending with frameBuf := [(0, 0x41)], gfK := k } }

/-- ExtractionStepStoresThePayloadByte. -/
theorem witness_ExtractionStores : (extracting frameRing 1).moves = .fg :: [] ∧ (extracting frameRing 1).fg = .getFrame .host ∧
    ((extracting frameRing 1).rb (rxOf .host)).init = true ∧ ((extracting frameRing 1).rb (rxOf .host)).count ≠ 0 ∧
    (extracting frameRing 1).storeByte (rxOf .host) ((extracting frameRing 1).rb (rxOf .host)).tail ≠ Config.term .host ∧
    ((extracting frameRing 1).chn .host).gfK + 1 ≠ ((extracting frameRing 1).rb (rxOf .host)).cap := by decide

/-- ExtractionStepFinishesWithFrameError: RX empty, and the last byte of the bound. -/
theorem witness_ExtractionError : ((extracting (ring 4 0 0 0 []) 1).rb (rxOf .host)).init = true ∧
    ((extracting (ring 4 0 0 0 []) 1).rb (rxOf .host)).count = 0 ∧
    (extracting fullRing 1).storeByte (rxOf .host) ((extracting fullRing 1).rb (rxOf .host)).tail ≠ Config.term .host ∧
    ((extracting fullRing 1).chn .host).gfK + 1 = ((extracting fullRing 1).rb (rxOf .host)).cap := by decide

/-- A MODEM extraction that has stored a CR and meets the LF. -/
def filtering : State := { busy frameRing txRing with
  fg := .getFrame .modem, moves := [.fg], modemRx := ring 4 2 1 1 [(0, 0x0D), (1, 0x0A)],
  modem := { onePending with frameBuf := [(0, 0x0D)], gfK := 1 } }

/-- ExtractionStepFinishesTheFrame: a frame kept (HOST), and a single CR on the filtering channel (MODEM). -/
theorem witness_ExtractionFinishes :
    (((extracting (ring 4 2 1 1 [(0, 0x41), (1, 0x0D)]) 1).rb (rxOf .host)).count ≠ 0 ∧
      (extracting (ring 4 2 1 1 [(0, 0x41), (1, 0x0D)]) 1).storeByte (rxOf .host) 1 = Config.term .host ∧
      Config.filterCr .host = false) ∧
    (filtering.moves = .fg :: [] ∧ filtering.fg = .getFrame .modem ∧ (filtering.rb (rxOf .modem)).init = true ∧
      (filtering.rb (rxOf .modem)).count ≠ 0 ∧
      filtering.storeByte (rxOf .modem) (filtering.rb (rxOf .modem)).tail = Config.term .modem ∧
      (filtering.chn .modem).gfK = 1 ∧ Config.filterCr .modem = true ∧ filtering.frameByte .modem 0 = 0x0D) := by decide

/-- What arrives between the extraction steps of `witness_GetFrame`: a byte, a poll of the armed TX and a tick. -/
def interleaved : List Move := [.fg, .event (.rxt .host) 0x005800E0, txPoll .host, .event .tick 0x000000E2, .fg]

/-- GetFrameReturnsTheFirstFrameUnderEveryInterleaving: HOST, "A" CR, with port events between the steps (FC-11); and the filtered
clause, MODEM, CR LF. -/
theorem witness_GetFrame :
    (BlockInv { busy frameRing txRing with moves := .command (encode (.chGetFrame .host)) :: interleaved ++ [] } ∧
      (busy frameRing txRing).fg = .ready ∧ (busy frameRing txRing).seq.phase ≠ .run ∧ ((busy frameRing txRing).chn .host).pending ≠ 0 ∧
      (busy frameRing txRing).queue (rxOf .host) = [0x41] ++ Config.term .host :: [0x42] ∧ Config.term .host ∉ [(0x41 : Byte)] ∧
      (∀ m ∈ interleaved, m = .fg ∨ m.isPortEvent = true) ∧ interleaved.count .fg = [(0x41 : Byte)].length + 1 ∧
      interleaved.count (txPoll .host) ≤ pollsLeft .host (busy frameRing txRing) ∧
      interleaved.count (txPoll .modem) ≤ pollsLeft .modem (busy frameRing txRing)) ∧
    ((busy frameRing txRing).queue (rxOf .modem) = [0x0D] ++ Config.term .modem :: [] ∧ Config.term .modem ∉ [(0x0D : Byte)] ∧
      ((busy frameRing txRing).chn .modem).pending ≠ 0 ∧ Config.filterCr .modem = true) :=
  ⟨⟨(busy_inv frameRing_inv txRing_inv rfl).setMoves _, by decide, by decide, by decide, by decide, by decide, by decide, by decide,
    by decide, by decide⟩, by decide⟩

/-- DesynchronizedGetFrameDrainsAndHeals: RX with room left and RX full. -/
theorem witness_Desynchronized :
    (BlockInv (busy desyncRing txRing) ∧ (busy desyncRing txRing).fg = .ready ∧ (busy desyncRing txRing).seq.phase ≠ .run ∧
      ((busy desyncRing txRing).rb (rxOf .host)).init = true ∧ ((busy desyncRing txRing).chn .host).pending ≠ 0 ∧
      Config.term .host ∉ (busy desyncRing txRing).queue (rxOf .host) ∧
      ((busy desyncRing txRing).rb (rxOf .host)).count ≠ ((busy desyncRing txRing).rb (rxOf .host)).cap) ∧
    (BlockInv (busy fullRing txRing) ∧ Config.term .host ∉ (busy fullRing txRing).queue (rxOf .host) ∧
      ((busy fullRing txRing).rb (rxOf .host)).count = ((busy fullRing txRing).rb (rxOf .host)).cap) :=
  ⟨⟨busy_inv desyncRing_inv txRing_inv rfl, by decide, by decide, by decide, by decide, by decide, by decide⟩,
    busy_inv fullRing_inv txRing_inv rfl, by decide, by decide⟩

/-- NoLostTransmitWakeup, its three clauses. -/
theorem witness_NoLostWakeup : BlockInv { busy frameRing txRing with moves := [.event .tick 0x000000E2] } ∧
    (((busy frameRing txRing).rb (txOf .host)).init = true ∧
      ((busy frameRing txRing).rb (txOf .host)).count ≠ ((busy frameRing txRing).rb (txOf .host)).cap) ∧
    ((busy frameRing txRing).chn .host).armed = true ∧ (busy frameRing txRing).queue (txOf .host) = 0x58 :: [] ∧
    (∃ t, step { busy frameRing txRing with moves := [.event .tick 0x000000E2] } = .next t) ∧
    { busy frameRing txRing with moves := [.event .tick 0x000000E2] }.nextInstr? = some .tick :=
  ⟨(busy_inv frameRing_inv txRing_inv rfl).setMoves _, by decide, by decide, by decide, ⟨_, rfl⟩, by decide⟩

/-- ArmedFlagHasThreeWriters: a CH_SEND arms MODEM, a TX_READY that finds TX empty disarms HOST. -/
theorem witness_Armed :
    (BlockInv { busy frameRing sentRing with moves := [.command ⟨0x00410121, 0, 0⟩] } ∧
      ((busy frameRing sentRing).chn .modem).armed = false ∧
      ∃ t, step { busy frameRing sentRing with moves := [.command ⟨0x00410121, 0, 0⟩] } = .next t ∧
        (t.chn .modem).armed = true) ∧
    BlockInv { busy frameRing sentRing with moves := [.event (.txt .host) 0x000000E1] } ∧
      ((busy frameRing sentRing).chn .host).armed = true ∧
      ∃ t, step { busy frameRing sentRing with moves := [.event (.txt .host) 0x000000E1] } = .next t ∧
        (t.chn .host).armed = false :=
  ⟨⟨(busy_inv frameRing_inv sentRing_inv rfl).setMoves _, rfl, _, rfl, rfl⟩,
    (busy_inv frameRing_inv sentRing_inv rfl).setMoves _, rfl, _, rfl, rfl⟩

/-- ArmedTransmitQueueIsSentInOrder. -/
theorem witness_ArmedQueue : BlockInv { busy frameRing txRing with moves := [.event (.txt .host) 0x000000E1, .event (.txt .host) 0x000000E1] } ∧
    ((busy frameRing txRing).chn .host).armed = true ∧
    [Move.event (.txt .host) 0x000000E1, .event (.txt .host) 0x000000E1] =
      List.replicate (((busy frameRing txRing).queue (txOf .host)).length + 1) (.event (.txt .host) (encode (.txReady .host)).cmd) ++ [] :=
  ⟨(busy_inv frameRing_inv txRing_inv rfl).setMoves _, rfl, by decide⟩

/-- PendingCounterHasThreeWriters, ResponseRegistersChangeOnlyWithAResponse, PortEventsLeaveTheTimerTable, RegisteredTimersKeepTheirPeriod,
EveryStepKeepsTheInvariant: a step from a state that meets the invariant answers a next state; a registered slot. -/
theorem witness_steps : BlockInv { busy frameRing txRing with moves := [.event (.rxt .host) 0x000D00E0] } ∧
    (∃ t, step { busy frameRing txRing with moves := [.event (.rxt .host) 0x000D00E0] } = .next t ∧ (t.chn .host).pending = 2) ∧
    { busy frameRing txRing with moves := [.event (.rxt .host) 0x000D00E0] }.nextInstr? ≠ some .tick ∧
    (busy frameRing txRing).tcount ≤ (busy frameRing txRing).nTimers ∧
    (1 < (busy frameRing txRing).tcount ∧ (busy frameRing txRing).slots[1]? = some ⟨50, 0, true, false⟩) :=
  ⟨(busy_inv frameRing_inv txRing_inv rfl).setMoves _, ⟨_, rfl, rfl⟩, by decide, by decide, by decide⟩

/-- EveryInstructionAnswersANextState: a step that is refused. -/
theorem witness_refused : step { blank with moves := [.seq] } = .refused (.notEnabled .seq) := rfl

/-! A fair run. -/

/-- A pass with a callback, a frame extraction, and the polls that empty HOST.TX; then ticks for ever. -/
def fairMoves : List Move := [.command ⟨0x00000014, 40, 0⟩, .seq, .command ⟨0x00000018, 0, 0⟩, .seq, .seq, .command ⟨0x00000023, 0, 0⟩,
  .fg, .fg, .event (.txt .host) 0x000000E1, .event (.txt .host) 0x000000E1]

/-- The n-th move of the run. -/
def fairMove (n : Nat) : Move := (fairMoves[n]?).getD (.event .tick 0x000000E2)

/-- The states of the run, worked by hand from the rules: after the issue of the pass, in the callback of timer 0, and after it. -/
def fair1 : State := { busy frameRing txRing with seq := ⟨.run, 0, 2, 40, 0, 0⟩ }
def fair2 : State := { fair1 with
  slots := [⟨100, 0, true, true⟩, ⟨50, 0, true, false⟩], seq := ⟨.waitCb, 1, 2, 40, 1, 0⟩, trace := [.trig 0] }
def fair3 : State := { fair2 with seq := ⟨.run, 1, 2, 40, 1, 0⟩, trace := [.trig 0, .resp 0x18 .ok 0] }
def fair4 : State := { fair3 with slots := [⟨100, 0, true, true⟩, ⟨50, 40, true, false⟩], seq := ⟨.run, 2, 2, 40, 1, 0⟩ }

/-- The pass has ended; CH_GETFRAME extracts "A" and CR. -/
def fair5 : State := { fair4 with seq := ⟨.idle, 2, 2, 40, 1, 0⟩, result := 1, trace := fair3.trace ++ [.resp 0x14 .ok 1] }
def fair6 : State := { fair5 with fg := .getFrame .host }
def fair7 : State := { fair6 with
  hostRx := { frameRing with tail := 1, count := 2 }, host := { fair6.host with frameBuf := [(0, 0x41)], gfK := 1 } }
def fair8 : State := { fair7 with
  hostRx := { frameRing with tail := 2, count := 1 }, fg := .ready, trace := fair5.trace ++ [.resp 0x23 .ok 1],
  host := { fair7.host with pending := 0, frameBuf := [(0, 0x41), (1, 0x00)], frameLen := 1, draws := 1 } }

/-- HOST.TX is sent, and HOST disarmed. -/
def fair9 : State := { fair8 with hostTx := { txRing with tail := 1, count := 0 }, trace := fair8.trace ++ [.tx .host 0x58] }
def fair10 : State := { fair9 with host := { fair9.host with armed := false }, trace := fair9.trace ++ [.txIdle .host] }

/-- The state before the n-th step of the run. -/
def fairState : Nat → State
  | 0 => busy frameRing txRing
  | 1 => fair1
  | 2 => fair2
  | 3 => fair3
  | 4 => fair4
  | 5 => fair5
  | 6 => fair6
  | 7 => fair7
  | 8 => fair8
  | 9 => fair9
  | 10 => fair10
  | k + 11 => { fairState (k + 10) with tick := (fairState (k + 10)).tick + 1, moves := [] }

/-- No agent but RXT and TICK has a step. -/
def Quiet (s : State) : Prop :=
  (∀ ch, (s.chn ch).armed = false) ∧ s.fg = .ready ∧ s.seq.phase = .idle

theorem fairMove_tail (k : Nat) : fairMove (k + 10) = .event .tick 0x000000E2 := rfl

theorem fairState_tail (k : Nat) : Quiet (fairState (k + 10)) := by
  induction k with
  | zero => exact ⟨by rintro ⟨⟩ <;> decide, by decide, by decide⟩
  | succ k ih => exact ih

/-- A step that is enabled no more is taken fairly. -/
theorem fair_of_quiet {enabled taken : Nat → Prop} (h : ∀ k, ¬enabled (k + 10)) : WeaklyFair enabled taken :=
  fun n he => absurd (he (n + 10) (Nat.le_add_right n 10)) (h n)

theorem fairRun : FairRun fairState fairMove where
  run n := by
    match n with
    | 0 => rfl
    | 1 => rfl
    | 2 => rfl
    | 3 => rfl
    | 4 => rfl
    | 5 => rfl
    | 6 => rfl
    | 7 => rfl
    | 8 => rfl
    | 9 => rfl
    | k + 10 => rfl
  transmit ch := fair_of_quiet fun k h => by rw [(fairState_tail k).1 ch] at h; cases h
  ticks n _ := ⟨n + 10, Nat.le_add_right n 10, by show instrAt fairState fairMove (n + 10) = some .tick; unfold instrAt; rw [fairMove_tail]; rfl⟩
  callbacks n h := by
    match n with
    | 0 => exact absurd h (by decide)
    | 1 => exact absurd h (by decide)
    | 2 => exact ⟨2, Nat.le_refl 2, by decide⟩
    | 3 => exact absurd h (by decide)
    | 4 => exact absurd h (by decide)
    | 5 => exact absurd h (by decide)
    | 6 => exact absurd h (by decide)
    | 7 => exact absurd h (by decide)
    | 8 => exact absurd h (by decide)
    | 9 => exact absurd h (by decide)
    | k + 10 => rw [(fairState_tail k).2.2] at h; cases h
  sequencer := fair_of_quiet fun k h => by
    unfold seqStep? at h
    rw [(fairState_tail k).2.2] at h
    cases h
  extraction ch := fair_of_quiet fun k h => by rw [(fairState_tail k).2.1] at h; cases h

/-- RunAgreesWithListedMoves, EveryPassEndsInAFairRun, EveryExtractionEndsInAFairRun, QueuedBytesAreSentInAFairRun: a fair run with a pass
in its step 1, a callback in its step 2, an extraction in its step 6, and a byte in the TX of an armed channel. -/
theorem witness_fairRun : FairRun fairState fairMove ∧ BlockInv (fairState 0) ∧ (fairState 1).seq.phase = .run ∧
    (fairState 2).seq.phase = .waitCb ∧ (fairState 6).fg = .getFrame .host ∧ ((fairState 0).chn .host).armed = true ∧
    (fairState 0).queue (txOf .host) = [0x58] :=
  ⟨fairRun, busy_inv frameRing_inv txRing_inv rfl, by decide, by decide, by decide, by decide, by decide⟩

end Sys2Proof.Tests
end

/-! The step and the schedule (spec/00_scope.md R10, R11): a step runs the instruction of its move, and a run without end is what the
machine does with its moves listed. -/

namespace Sys2Proof.Machine

/-- While FG is ready and no pass is under way, or in a callback, FG may issue (spec/10_state.md R23). -/
theorem mayIssue_of_idle_or_waitCb {s : State} (hf : s.fg = .ready) (hp : s.seq.phase = .idle ∨ s.seq.phase = .waitCb) :
    mayIssue s = true := by
  refine (mayIssue_iff s).mpr ⟨hf, ?_⟩
  rcases hp with hp | hp <;> simp [hp]

/-- Settles O5: a packet by `step_command`, and each event word by `step_event` on its own port, of which RXT and TICK are always enabled. -/
theorem stepRunsTheDecodedInstruction : Obligations.StepRunsTheDecodedInstruction := by
  refine ⟨?command, ?rxByte, ?txReady, ?tick⟩
  case command =>
    intro s p rest i hm hd hf hp
    exact step_command hm (mayIssue_of_idle_or_waitCb hf hp) hd
  case rxByte =>
    intro s w rest ch v hm hd
    exact step_event hm hd rfl rfl
  case txReady =>
    intro s w rest ch hm hd harmed
    exact step_event hm hd rfl harmed
  case tick =>
    intro s w rest hm hd
    exact step_event hm hd rfl rfl

/-- The k steps of a run from its j-th state are the machine's k steps with the moves of that stretch listed. -/
theorem IsRun.core_run_listed {σ : Nat → State} {m : Nat → Move} (h : IsRun σ m) (k j : Nat) :
    core.run k { σ j with moves := (List.range' j k).map m } = .next { σ (j + k) with moves := [] } := by
  induction k generalizing j with
  | zero => rfl
  | succ k ih =>
    have hstep : step { σ j with moves := (List.range' j (k + 1)).map m } =
        .next { σ (j + 1) with moves := (List.range' (j + 1) k).map m } :=
      h.step_listed j _
    rw [core_run_succ k hstep, ih (j + 1), Nat.add_right_comm, Nat.add_assoc]

/-- Settles O56: the stretch from the first state, of `IsRun.core_run_listed`. -/
theorem runAgreesWithListedMoves : Obligations.RunAgreesWithListedMoves := by
  intro σ m h n
  have hrun := h.core_run_listed n 0
  rwa [← List.range_eq_range', Nat.zero_add] at hrun

end Sys2Proof.Machine

/-! What the operations that several meanings share leave of the state, and what a visit and an extraction step come to: the forms
the whole-machine rules of spec/10_state.md are derived from. -/

namespace Sys2Proof.Machine

/-! The ring-buffer subroutines change one buffer and nothing else. -/

theorem State.setRb_self (s : State) (b : BufId) : s.setRb b (s.rb b) = s := by
  rcases b with ⟨⟨⟩, ⟨⟩⟩ <;> rfl

theorem rbInit_eq_setRb (b : BufId) (c : Word) (s : State) : ∃ r, (rbInit b c s).2 = s.setRb b r := by
  rcases rbInit_cases b c s with ⟨-, e⟩ | ⟨-, -, e⟩ <;> rw [e]
  · exact ⟨_, (s.setRb_self b).symm⟩
  · exact ⟨_, rfl⟩

theorem rbPush_eq_setRb (b : BufId) (v : Byte) (s : State) : ∃ r, (rbPush b v s).2 = s.setRb b r := by
  rcases rbPush_cases b v s with ⟨-, e⟩ | ⟨-, -, e⟩ | ⟨-, -, e⟩ <;> rw [e]
  · exact ⟨_, (s.setRb_self b).symm⟩
  · exact ⟨_, (s.setRb_self b).symm⟩
  · exact ⟨_, rfl⟩

theorem rbPop_eq_setRb (b : BufId) (s : State) : ∃ r, (rbPop b s).2.2 = s.setRb b r := by
  rcases rbPop_cases b s with ⟨-, e⟩ | ⟨-, -, e⟩ | ⟨-, -, e⟩ <;> rw [e]
  · exact ⟨_, (s.setRb_self b).symm⟩
  · exact ⟨_, (s.setRb_self b).symm⟩
  · exact ⟨_, rfl⟩

@[simp] theorem rbInit_fg (b : BufId) (c : Word) (s : State) : (rbInit b c s).2.fg = s.fg := by
  obtain ⟨r, e⟩ := rbInit_eq_setRb b c s; simp [e]

@[simp] theorem rbInit_slots (b : BufId) (c : Word) (s : State) : (rbInit b c s).2.slots = s.slots := by
  obtain ⟨r, e⟩ := rbInit_eq_setRb b c s; simp [e]

@[simp] theorem rbInit_tcount (b : BufId) (c : Word) (s : State) : (rbInit b c s).2.tcount = s.tcount := by
  obtain ⟨r, e⟩ := rbInit_eq_setRb b c s; simp [e]

@[simp] theorem rbInit_seq (b : BufId) (c : Word) (s : State) : (rbInit b c s).2.seq = s.seq := by
  obtain ⟨r, e⟩ := rbInit_eq_setRb b c s; simp [e]

@[simp] theorem rbInit_status (b : BufId) (c : Word) (s : State) : (rbInit b c s).2.status = s.status := by
  obtain ⟨r, e⟩ := rbInit_eq_setRb b c s; simp [e]

@[simp] theorem rbInit_result (b : BufId) (c : Word) (s : State) : (rbInit b c s).2.result = s.result := by
  obtain ⟨r, e⟩ := rbInit_eq_setRb b c s; simp [e]

@[simp] theorem rbInit_trace (b : BufId) (c : Word) (s : State) : (rbInit b c s).2.trace = s.trace := by
  obtain ⟨r, e⟩ := rbInit_eq_setRb b c s; simp [e]

@[simp] theorem chn_rbInit (b : BufId) (c : Word) (s : State) (ch : Ch) : (rbInit b c s).2.chn ch = s.chn ch := by
  obtain ⟨r, e⟩ := rbInit_eq_setRb b c s; simp [e]

@[simp] theorem rbPush_fg (b : BufId) (v : Byte) (s : State) : (rbPush b v s).2.fg = s.fg := by
  obtain ⟨r, e⟩ := rbPush_eq_setRb b v s; simp [e]

@[simp] theorem rbPush_slots (b : BufId) (v : Byte) (s : State) : (rbPush b v s).2.slots = s.slots := by
  obtain ⟨r, e⟩ := rbPush_eq_setRb b v s; simp [e]

@[simp] theorem rbPush_tcount (b : BufId) (v : Byte) (s : State) : (rbPush b v s).2.tcount = s.tcount := by
  obtain ⟨r, e⟩ := rbPush_eq_setRb b v s; simp [e]

@[simp] theorem rbPush_seq (b : BufId) (v : Byte) (s : State) : (rbPush b v s).2.seq = s.seq := by
  obtain ⟨r, e⟩ := rbPush_eq_setRb b v s; simp [e]

@[simp] theorem rbPush_status (b : BufId) (v : Byte) (s : State) : (rbPush b v s).2.status = s.status := by
  obtain ⟨r, e⟩ := rbPush_eq_setRb b v s; simp [e]

@[simp] theorem rbPush_result (b : BufId) (v : Byte) (s : State) : (rbPush b v s).2.result = s.result := by
  obtain ⟨r, e⟩ := rbPush_eq_setRb b v s; simp [e]

@[simp] theorem rbPush_trace (b : BufId) (v : Byte) (s : State) : (rbPush b v s).2.trace = s.trace := by
  obtain ⟨r, e⟩ := rbPush_eq_setRb b v s; simp [e]

@[simp] theorem chn_rbPush (b : BufId) (v : Byte) (s : State) (ch : Ch) : (rbPush b v s).2.chn ch = s.chn ch := by
  obtain ⟨r, e⟩ := rbPush_eq_setRb b v s; simp [e]

@[simp] theorem rbPop_fg (b : BufId) (s : State) : (rbPop b s).2.2.fg = s.fg := by
  obtain ⟨r, e⟩ := rbPop_eq_setRb b s; simp [e]

@[simp] theorem rbPop_slots (b : BufId) (s : State) : (rbPop b s).2.2.slots = s.slots := by
  obtain ⟨r, e⟩ := rbPop_eq_setRb b s; simp [e]

@[simp] theorem rbPop_tcount (b : BufId) (s : State) : (rbPop b s).2.2.tcount = s.tcount := by
  obtain ⟨r, e⟩ := rbPop_eq_setRb b s; simp [e]

@[simp] theorem rbPop_seq (b : BufId) (s : State) : (rbPop b s).2.2.seq = s.seq := by
  obtain ⟨r, e⟩ := rbPop_eq_setRb b s; simp [e]

@[simp] theorem rbPop_status (b : BufId) (s : State) : (rbPop b s).2.2.status = s.status := by
  obtain ⟨r, e⟩ := rbPop_eq_setRb b s; simp [e]

@[simp] theorem rbPop_result (b : BufId) (s : State) : (rbPop b s).2.2.result = s.result := by
  obtain ⟨r, e⟩ := rbPop_eq_setRb b s; simp [e]

@[simp] theorem rbPop_trace (b : BufId) (s : State) : (rbPop b s).2.2.trace = s.trace := by
  obtain ⟨r, e⟩ := rbPop_eq_setRb b s; simp [e]

@[simp] theorem chn_rbPop (b : BufId) (s : State) (ch : Ch) : (rbPop b s).2.2.chn ch = s.chn ch := by
  obtain ⟨r, e⟩ := rbPop_eq_setRb b s; simp [e]

theorem rbPush_init_of_init {b : BufId} (v : Byte) {s : State} (h : (s.rb b).init = true) :
    ((rbPush b v s).2.rb b).init = true := by
  rcases rbPush_cases b v s with ⟨-, e⟩ | ⟨-, -, e⟩ | ⟨-, -, e⟩ <;> rw [e]
  · exact h
  · exact h
  · simpa [Ring.pushed] using h

/-- The capacities CH_INIT accepts (R151). -/
theorem legalCapacity_iff (ch : Ch) (c : Word) : legalCapacity ch c = true ↔ c ≠ 0 ∧ c.toNat ≤ Config.storeSize ch := by
  simp [legalCapacity]

/-- RESULT is 0 with every status of a pop other than OK (R102, R157). -/
theorem popResult_rbPop_eq_zero {b : BufId} {s : State} (h : (rbPop b s).1 ≠ .ok) : popResult (rbPop b s).2.1 = 0 := by
  rcases rbPop_cases b s with ⟨-, e⟩ | ⟨-, -, e⟩ | ⟨-, -, e⟩ <;> rw [e] at h ⊢
  · rfl
  · rfl
  · exact absurd rfl h

/-! The channel instructions, outcome by outcome (spec/42_framechannel.md R151 to R158). -/

theorem exec_chInit_cases (ch : Ch) (c : Word) (s : State) :
    (legalCapacity ch c = false ∧ exec (.chInit ch c) s = .next (respond Opcode.chInit.code .invalidConfiguration 0 s)) ∨
    (c ≠ 0 ∧ c.toNat ≤ Config.storeSize ch ∧ exec (.chInit ch c) s = .next (respond Opcode.chInit.code .ok 0
      ((rbInit (txOf ch) c (rbInit (rxOf ch) c s).2).2.setChn ch { s.chn ch with pending := 0, armed := false }))) := by
  cases hl : legalCapacity ch c with
  | false => exact .inl ⟨rfl, by simp [exec, execChInit, hl]⟩
  | true =>
    obtain ⟨h0, h1⟩ := (legalCapacity_iff ch c).mp hl
    exact .inr ⟨h0, h1, by simp [exec, execChInit, hl]⟩

theorem exec_chSend_cases (ch : Ch) (v : Byte) (s : State) :
    ((s.rb (txOf ch)).init = false ∧ exec (.chSend ch v) s = .next (respond Opcode.chSend.code .notInitialized 0 s)) ∨
    ((s.rb (txOf ch)).init = true ∧ exec (.chSend ch v) s = .next (respond Opcode.chSend.code (rbPush (txOf ch) v s).1 0
      ((rbPush (txOf ch) v s).2.setArmed ch true))) := by
  rcases rbPush_cases (txOf ch) v s with ⟨hi, e⟩ | ⟨hi, -, e⟩ | ⟨hi, -, e⟩
  · exact .inl ⟨hi, by simp [exec, execChSend, e]⟩
  · exact .inr ⟨hi, by simp [exec, execChSend, e]⟩
  · exact .inr ⟨hi, by simp [exec, execChSend, e]⟩

theorem exec_rxByte_cases (ch : Ch) (v : Byte) (s : State) :
    exec (.rxByte ch v) s = .next (emit (.rxDrop ch v) s) ∨
    ((s.rb (rxOf ch)).init = true ∧ (s.rb (rxOf ch)).count ≠ (s.rb (rxOf ch)).cap ∧
      ((v ≠ Config.term ch ∧ exec (.rxByte ch v) s = .next (rbPush (rxOf ch) v s).2) ∨
       (v = Config.term ch ∧ exec (.rxByte ch v) s = .next
          ((rbPush (rxOf ch) v s).2.setChn ch { s.chn ch with pending := (s.chn ch).pending + 1 })))) := by
  rcases rbPush_cases (rxOf ch) v s with ⟨-, e⟩ | ⟨-, -, e⟩ | ⟨hi, hc, e⟩
  · exact .inl (by simp [exec, execRxByte, e])
  · exact .inl (by simp [exec, execRxByte, e])
  · refine .inr ⟨hi, hc, ?_⟩
    by_cases hv : v = Config.term ch
    · exact .inr ⟨hv, by simp only [exec, execRxByte, e, if_pos hv, if_true, State.chn_setRb]⟩
    · exact .inl ⟨hv, by simp [exec, execRxByte, e, hv]⟩

theorem exec_txReady_cases (ch : Ch) (s : State) :
    (((s.rb (txOf ch)).init = false ∨ (s.rb (txOf ch)).count = 0) ∧
      exec (.txReady ch) s = .next (emit (.txIdle ch) (s.setArmed ch false))) ∨
    (∃ v, exec (.txReady ch) s = .next (emit (.tx ch v) (rbPop (txOf ch) s).2.2)) := by
  rcases rbPop_cases (txOf ch) s with ⟨hi, e⟩ | ⟨-, hc, e⟩ | ⟨-, -, e⟩
  · exact .inl ⟨.inl hi, by simp [exec, execTxReady, e]⟩
  · exact .inl ⟨.inr hc, by simp [exec, execTxReady, e]⟩
  · exact .inr ⟨s.storeByte (txOf ch) (s.rb (txOf ch)).tail, by simp only [exec, execTxReady, e]⟩

theorem exec_chRecv_cases (ch : Ch) (s : State) :
    exec (.chRecv ch) s = .next (respond Opcode.chRecv.code .notInitialized 0 s) ∨
    ((s.rb (rxOf ch)).init = true ∧ exec (.chRecv ch) s = .next { s with fg := .recv ch }) ∨
    exec (.chRecv ch) s = .next (recvPop ch s) := by
  cases hi : (s.rb (rxOf ch)).init with
  | false => exact .inl (by simp [exec, execChRecv, hi])
  | true =>
    cases he : (s.rb (rxOf ch)).isEmpty with
    | true => exact .inr (.inl ⟨rfl, by simp [exec, execChRecv, hi, he]⟩)
    | false => exact .inr (.inr (by simp [exec, execChRecv, hi, he]))

theorem exec_chGetFrame_cases (ch : Ch) (s : State) :
    (∃ st, st ≠ .ok ∧ exec (.chGetFrame ch) s = .next (respond Opcode.chGetFrame.code st 0 s)) ∨
    ((s.rb (rxOf ch)).init = true ∧
      exec (.chGetFrame ch) s = .next { s.setChn ch { s.chn ch with gfK := 0 } with fg := .getFrame ch }) := by
  cases hi : (s.rb (rxOf ch)).init with
  | false => exact .inl ⟨.notInitialized, by decide, by simp [exec, execChGetFrame, hi]⟩
  | true =>
    by_cases hp : (s.chn ch).pending = 0
    · exact .inl ⟨.noFrameAvailable, by decide, by simp [exec, execChGetFrame, hi, hp]⟩
    · exact .inr ⟨rfl, by simp only [exec, execChGetFrame]; rw [if_neg (by simp [hi]), if_neg hp]⟩

/-! The visit of a slot (spec/41_softtimer.md R126, R127). -/

/-- The state after the visit of the slot at the cursor, but for the trigger. -/
def visited (s : State) : State :=
  ({ s with seq := { s.seq with i := s.seq.i + 1 } } : State).modifySlot s.seq.i (Slot.advance s.seq.e)

theorem State.modifySlot_of_slot {s : State} {i : Nat} {sl : Slot} (f : Slot → Slot) (h : s.slots[i]? = some sl) :
    s.modifySlot i f = { s with slots := s.slots.set i (f sl) } := by
  simp [State.modifySlot, h]

theorem seqVisit_of_none {s : State} (h : s.slots[s.seq.i]? = none) : seqVisit s = visited s := by
  simp [seqVisit, visited, State.modifySlot, h]

theorem seqVisit_of_slot {s : State} {sl : Slot} (h : s.slots[s.seq.i]? = some sl) :
    seqVisit s = if sl.fires s.seq.e then callbackEntry s.seq.i (visited s) else visited s := by
  have hset : s.slots.set s.seq.i sl = s.slots := by
    obtain ⟨hlt, rfl⟩ := List.getElem?_eq_some_iff.mp h
    exact List.set_getElem_self hlt
  have hs (f : Slot → Slot) : ({ s with seq := { s.seq with i := s.seq.i + 1 } } : State).modifySlot s.seq.i f =
      { s with seq := { s.seq with i := s.seq.i + 1 }, slots := s.slots.set s.seq.i (f sl) } :=
    State.modifySlot_of_slot f h
  unfold seqVisit visited
  simp only [h, hs]
  by_cases ha : sl.active = true
  · by_cases hp : sl.period.toNat ≤ sl.acc.toNat + s.seq.e.toNat
    · simp [ha, hp, Slot.fires, Slot.advance]
    · simp [ha, hp, Slot.fires, Slot.advance]
  · simp [ha, Slot.fires, Slot.advance, hset]

/-- A visit advances one slot, and may call back (R126, R127). -/
theorem seqVisit_cases (s : State) : seqVisit s = visited s ∨ seqVisit s = callbackEntry s.seq.i (visited s) := by
  cases h : s.slots[s.seq.i]? with
  | none => exact .inl (seqVisit_of_none h)
  | some sl =>
    rw [seqVisit_of_slot h]
    split
    · exact .inr rfl
    · exact .inl rfl

@[simp] theorem visited_seq (s : State) : (visited s).seq = { s.seq with i := s.seq.i + 1 } := by simp [visited]

@[simp] theorem visited_fg (s : State) : (visited s).fg = s.fg := by simp [visited]

@[simp] theorem visited_tcount (s : State) : (visited s).tcount = s.tcount := by simp [visited]

@[simp] theorem visited_nTimers (s : State) : (visited s).nTimers = s.nTimers :=
  State.modifySlot_nTimers _ _ _

@[simp] theorem visited_status (s : State) : (visited s).status = s.status := by simp [visited]

@[simp] theorem visited_result (s : State) : (visited s).result = s.result := by simp [visited]

@[simp] theorem visited_trace (s : State) : (visited s).trace = s.trace := by simp [visited]

@[simp] theorem rb_visited (s : State) (b : BufId) : (visited s).rb b = s.rb b := by simp [visited]

@[simp] theorem chn_visited (s : State) (ch : Ch) : (visited s).chn ch = s.chn ch := by simp [visited]

theorem visited_slots (s : State) : (visited s).slots = (s.modifySlot s.seq.i (Slot.advance s.seq.e)).slots := by
  unfold visited State.modifySlot
  dsimp only
  split <;> rfl

theorem Slot.advance_period (e : Word) (sl : Slot) : (sl.advance e).period = sl.period := by
  unfold Slot.advance
  split_ifs <;> rfl

theorem Slot.advance_cbEn (e : Word) (sl : Slot) : (sl.advance e).cbEn = sl.cbEn := by
  unfold Slot.advance
  split_ifs <;> rfl

/-- A timer that has not reached its period, or was just reset, is so after a visit: at its period it is reset (R126, R137). -/
theorem Slot.advance_acc_below (e : Word) {sl : Slot} (h : sl.acc.toNat < sl.period.toNat ∨ sl.acc = 0) :
    (sl.advance e).acc.toNat < (sl.advance e).period.toNat ∨ (sl.advance e).acc = 0 := by
  unfold Slot.advance
  split_ifs with ha hp
  · exact .inr rfl
  · refine .inl (Nat.lt_of_le_of_lt ?_ (Nat.lt_of_not_le hp))
    rw [BitVec.toNat_ofNat]
    exact Nat.mod_le _ _
  · exact h

/-! The extraction step (spec/42_framechannel.md R159). -/

theorem gfExtract_notInitialized {ch : Ch} {s : State} (hi : (s.rb (rxOf ch)).init = false) :
    gfExtract ch s = gfFinish ch .frameError s := by
  unfold gfExtract
  rw [rbPop_notInitialized hi]

/-- An extraction step stores one payload byte, or finishes: with RX as it was, popped, or with the last byte stored. -/
theorem gfExtract_cases (ch : Ch) (s : State) :
    gfExtract ch s = storePayload ch (s.storeByte (rxOf ch) (s.rb (rxOf ch)).tail) s ∨
    gfExtract ch s = gfFinish ch .frameError s ∨
    gfExtract ch s = gfFinish ch (.frame (s.chn ch).gfK) (s.setRb (rxOf ch) (s.rb (rxOf ch)).popped) ∨
    gfExtract ch s = gfFinish ch .frameError (storePayload ch (s.storeByte (rxOf ch) (s.rb (rxOf ch)).tail) s) := by
  cases hi : (s.rb (rxOf ch)).init with
  | false => exact .inr (.inl (gfExtract_notInitialized hi))
  | true =>
    by_cases hc : (s.rb (rxOf ch)).count = 0
    · exact .inr (.inl (gfExtract_drained hi hc))
    by_cases hv : s.storeByte (rxOf ch) (s.rb (rxOf ch)).tail = Config.term ch
    · exact .inr (.inr (.inl (gfExtract_terminator hi hc hv)))
    by_cases hk : (s.chn ch).gfK + 1 = (s.rb (rxOf ch)).cap
    · exact .inr (.inr (.inr (gfExtract_overlong hi hc hv hk)))
    · exact .inl (gfExtract_payload hi hc hv hk)

/-- A finish does not look at the FG phase: it sets it. -/
theorem gfFinish_with_fg (ch : Ch) (o : Extraction) (s : State) (f : FgPhase) :
    gfFinish ch o { s with fg := f } = gfFinish ch o s := by
  rw [gfFinish_eq, gfFinish_eq]
  cases ch <;> rfl

end Sys2Proof.Machine

/-! The invariant of the block (spec/10_state.md R27 to R42): every meaning and every step keeps it. -/

namespace Sys2Proof.Machine

/-! The pieces of state a meaning writes. -/

/-- The pending counter and the transmit-enable flag are changed, the flag only to a value an initialized TX allows (R25). -/
theorem BlockInv.setFlags {s : State} (h : BlockInv s) (ch : Ch) (p : Word) (a : Bool)
    (ha : a = true → (s.rb (txOf ch)).init = true) :
    BlockInv (s.setChn ch { s.chn ch with pending := p, armed := a }) where
  rings b := by simpa using h.rings b
  channels ch' := by
    have c := h.channels ch'
    by_cases e : ch' = ch
    · subst e
      constructor
      · simpa using c.frameWf
      · simpa using c.frameInRange
      · simpa using c.frameLen
      · simpa using c.cursor
      · simpa using ha
      · simpa using c.extracting
      · simpa using c.receiving
    · have hn : (s.setChn ch { s.chn ch with pending := p, armed := a }).chn ch' = s.chn ch' := s.chn_setChn_ne _ e
      constructor
      · rw [hn]; exact c.frameWf
      · rw [hn]; exact c.frameInRange
      · rw [hn]; exact c.frameLen
      · rw [hn]; exact c.cursor
      · rw [hn]; simpa using c.armedInit
      · rw [hn]; simpa using c.extracting
      · simpa using c.receiving
  timers := h.timers.congr (by simp) (by simp)
  sequencer := h.sequencer.congr (by simp [State.nTimers]) (by simp) (by simp) (by simp)
  response := h.response.congr (by simp) (by simp)

/-- A channel's own state and the FG phase are changed, the phase to none or to an extraction of that channel or a CH_RECV. -/
theorem BlockInv.setChnWithFg {s : State} (h : BlockInv s) (ch : Ch) (c : Channel) (f : FgPhase)
    (hwf : c.frameBuf.wf = true) (hin : ∀ x ∈ c.frameBuf, x.1 < Config.storeSize ch)
    (hlen : c.frameLen < Config.storeSize ch) (hcur : c.gfK ≤ Config.storeSize ch)
    (ha : c.armed = true → (s.rb (txOf ch)).init = true)
    (he : ∀ ch', f = .getFrame ch' → ch' = ch ∧ (s.rb (rxOf ch)).init = true ∧ c.gfK < (s.rb (rxOf ch)).cap ∧
      ∀ i < c.gfK, (c.frameBuf.get? i).isSome = true)
    (hr : ∀ ch', f = .recv ch' → (s.rb (rxOf ch')).init = true) (hs : s.seq.phase = .run → f = .ready) :
    BlockInv { s.setChn ch c with fg := f } :=
  h.setChnFg ch c f (fun b => s.rb_setChn ch c b) (s.chn_setChn_same ch c) (fun _ e => s.chn_setChn_ne c e) rfl
    (s.setChn_tcount ch c) (s.setChn_slots ch c) (s.setChn_seq ch c) (s.setChn_status ch c) (s.setChn_result ch c)
    hwf hin hlen hcur ha he hr hs

/-- FG takes up or puts down a command that leaves the channels alone. -/
theorem BlockInv.setFg {s : State} (h : BlockInv s) (f : FgPhase) (he : ∀ ch, f ≠ .getFrame ch)
    (hr : ∀ ch, f = .recv ch → (s.rb (rxOf ch)).init = true) (hs : s.seq.phase = .run → f = .ready) :
    BlockInv { s with fg := f } :=
  have c := h.channels .host
  h.setChnFg .host (s.chn .host) f (fun _ => rfl) rfl (fun _ _ => rfl) rfl rfl rfl rfl rfl rfl c.frameWf c.frameInRange
    c.frameLen c.cursor c.armedInit (fun ch hf => absurd hf (he ch)) hr hs

theorem BlockInv.setFgReady {s : State} (h : BlockInv s) : BlockInv { s with fg := .ready } :=
  h.setFg .ready (fun _ hf => by cases hf) (fun _ hf => by cases hf) (fun _ => rfl)

/-- While FG has a command outstanding, SEQ does not run (R12). -/
theorem BlockInv.seq_not_run {s : State} (h : BlockInv s) (hf : s.fg ≠ .ready) : s.seq.phase ≠ .run :=
  fun hp => hf (h.sequencer.fgIdle hp)

/-! CH_RECV and CH_GETFRAME. -/

theorem recvPop_keeps_blockInv {s : State} (h : BlockInv s) (ch : Ch) : BlockInv (recvPop ch s) :=
  (h.rbPop (rxOf ch)).respond _ _ _ popResult_rbPop_eq_zero

/-- The frame output keeps the ranges of R37, whatever its length in the array. -/
theorem output_inRange {c : Channel} {size n : Nat} (hc : ∀ x ∈ c.frameBuf, x.1 < size) (hn : n < size) :
    ∀ x ∈ (c.output n).frameBuf, x.1 < size := by
  intro x hx
  rcases Memory.mem_set (Memory.mem_keepUpTo hx) with rfl | hx
  · exact hn
  · exact hc x hx

theorem gfFinish_keeps_blockInv {s : State} (h : BlockInv s) (ch : Ch) (o : Extraction)
    (hn : outputLen ch o s < Config.storeSize ch) : BlockInv (gfFinish ch o s) := by
  have c := h.channels ch
  have hresult : outputStatus ch o s ≠ .ok → BitVec.ofNat 32 (outputLen ch o s) = 0 := by
    cases o with
    | frameError => intro _; rfl
    | frame n =>
      simp only [outputStatus, outputLen]
      split
      · intro _; rfl
      · intro hne; exact absurd rfl hne
  rw [gfFinish_eq]
  refine BlockInv.respond ?_ _ _ _ hresult
  exact h.setChnWithFg ch _ .ready (Memory.keepUpTo_wf _ (Memory.set_wf _ _ c.frameWf)) (output_inRange c.frameInRange hn)
    hn c.cursor c.armedInit (fun _ hf => by cases hf) (fun _ hf => by cases hf) (fun _ => rfl)

/-- Storing a payload byte keeps the invariant if FG is left in a phase the new cursor allows: none, or the extraction below
its bound. -/
theorem storePayload_keeps_blockInv {s : State} {ch : Ch} (h : BlockInv s) (hf : s.fg = .getFrame ch)
    (hc : (s.rb (rxOf ch)).count ≠ 0) (v : Byte) (f : FgPhase)
    (hphase : f = .ready ∨ f = .getFrame ch ∧ (s.chn ch).gfK + 1 ≠ (s.rb (rxOf ch)).cap) :
    BlockInv { storePayload ch v s with fg := f } := by
  have c := h.channels ch
  obtain ⟨hi, hk, hw⟩ := c.extracting hf
  have hcap : (s.rb (rxOf ch)).cap ≤ Config.storeSize ch := (h.rings (rxOf ch)).capHigh hi
  have hrun : s.seq.phase ≠ .run := h.seq_not_run (by rw [hf]; exact FgPhase.noConfusion)
  have hwritten : ∀ i < (s.chn ch).gfK + 1, (((s.chn ch).frameBuf.set (s.chn ch).gfK v).get? i).isSome = true := by
    intro i hlt
    rw [Memory.get?_set]
    split
    · rfl
    · exact hw i (by omega)
  have hpop : BlockInv (s.setRb (rxOf ch) (s.rb (rxOf ch)).popped) :=
    h.setRb _ _ ((h.rings _).popped hi hc) (fun _ => hi) (fun _ _ => rfl)
  refine hpop.setChnWithFg ch _ f ?wf ?inRange c.frameLen ?cursor ?armed ?extracting ?receiving ?ready
  case wf => exact Memory.set_wf _ _ c.frameWf
  case inRange =>
    intro x hx
    rcases Memory.mem_set hx with rfl | hx
    · exact Nat.lt_of_lt_of_le hk hcap
    · exact c.frameInRange x hx
  case cursor => exact Nat.le_trans hk hcap
  case armed => rw [State.rb_setRb_ne _ _ (by simp)]; exact c.armedInit
  case extracting =>
    rintro ch' rfl
    obtain ⟨he, hne⟩ := hphase.resolve_left FgPhase.noConfusion
    cases he
    rw [State.rb_setRb_same]
    exact ⟨rfl, hi, Nat.lt_of_le_of_ne hk hne, hwritten⟩
  case receiving =>
    rintro ch' rfl
    rcases hphase with he | ⟨he, -⟩ <;> cases he
  case ready => rw [State.setRb_seq]; exact fun hp => absurd hp hrun

/-- Each outcome of an extraction step keeps the invariant; below its bound the cursor stays below it (R38, R159). -/
theorem gfExtract_keeps_blockInv {s : State} {ch : Ch} (h : BlockInv s) (hf : s.fg = .getFrame ch) :
    BlockInv (gfExtract ch s) := by
  obtain ⟨hi, hk, -⟩ := (h.channels ch).extracting hf
  have hcap : (s.rb (rxOf ch)).cap ≤ Config.storeSize ch := (h.rings (rxOf ch)).capHigh hi
  have hpos : 0 < Config.storeSize ch := by omega
  by_cases hc : (s.rb (rxOf ch)).count = 0
  · rw [gfExtract_drained hi hc]
    exact gfFinish_keeps_blockInv h ch .frameError hpos
  by_cases hv : s.storeByte (rxOf ch) (s.rb (rxOf ch)).tail = Config.term ch
  · rw [gfExtract_terminator hi hc hv]
    refine gfFinish_keeps_blockInv (h.setRb _ _ ((h.rings _).popped hi hc) (fun _ => hi) (fun _ _ => rfl)) ch _ ?_
    simp only [outputLen]
    split <;> omega
  by_cases hend : (s.chn ch).gfK + 1 = (s.rb (rxOf ch)).cap
  · rw [gfExtract_overlong hi hc hv hend, ← gfFinish_with_fg ch .frameError _ .ready]
    exact gfFinish_keeps_blockInv (storePayload_keeps_blockInv h hf hc _ .ready (.inl rfl)) ch .frameError hpos
  · rw [gfExtract_payload hi hc hv hend]
    have hstay (v : Byte) : { storePayload ch v s with fg := .getFrame ch } = storePayload ch v s := by
      have hfg : (storePayload ch v s).fg = .getFrame ch := by simp [storePayload, hf]
      rw [← hfg]
    rw [← hstay]
    exact storePayload_keeps_blockInv h hf hc _ _ (.inr ⟨rfl, hend⟩)

theorem fgStep?_keeps_blockInv {s t : State} (h : BlockInv s) (ht : fgStep? s = some t) : BlockInv t := by
  rcases fgStep?_cases ht with ⟨ch, -, -, rfl⟩ | ⟨ch, hf, rfl⟩
  · exact recvPop_keeps_blockInv h.setFgReady ch
  · exact gfExtract_keeps_blockInv h hf

/-! SEQ's steps. -/

/-- The cursor goes on by one, within the slots latched (R126). -/
theorem SeqInv.visited {s : State} (h : SeqInv s) (hp : s.seq.phase = .run) (hi : s.seq.i < s.seq.n) :
    SeqInv (visited s) := by
  obtain ⟨-, hn, hfired⟩ := h.inPass (by simp [hp])
  have hsize := h.nRange
  constructor <;> simp only [visited_seq, visited_nTimers, visited_tcount, visited_fg]
  case iRange => omega
  case nRange => exact hsize
  case firedRange => exact h.firedRange
  case cbIdRange => exact h.cbIdRange
  case inPass => exact fun _ => ⟨hi, hn, by omega⟩
  case inCallback => simp [hp]
  case fgIdle => exact h.fgIdle

/-- A trigger counts one more slot fired, of those visited, and saves the one just visited (R127, R198). -/
theorem SeqInv.triggered {s : State} (h : SeqInv s) (hp : s.seq.phase = .run) (hi : s.seq.i < s.seq.n) :
    SeqInv (callbackEntry s.seq.i (Machine.visited s)) := by
  obtain ⟨-, hn, hfired⟩ := h.inPass (by simp [hp])
  have hsize := h.nRange
  have hsame : (callbackEntry s.seq.i (Machine.visited s)).nTimers = s.nTimers := visited_nTimers s
  constructor <;> simp only [callbackEntry_seq, callbackEntry_tcount, callbackEntry_fg, visited_seq, visited_tcount, hsame]
  case iRange => omega
  case nRange => exact hsize
  case firedRange => omega
  case cbIdRange => omega
  case inPass => exact fun _ => ⟨hi, hn, by omega⟩
  case inCallback => exact fun _ => trivial
  case fgIdle => exact fun hr => SeqPhase.noConfusion hr

theorem seqVisit_keeps_blockInv {s : State} (h : BlockInv s) (hp : s.seq.phase = .run) (hi : s.seq.i < s.seq.n) :
    BlockInv (seqVisit s) := by
  have ht : TimerInv (visited s) :=
    (h.timers.congr (t := { s with seq := { s.seq with i := s.seq.i + 1 } }) rfl rfl).modifySlot _ _
      (fun _ => Slot.advance_acc_below s.seq.e)
  rcases seqVisit_cases s with e | e <;> rw [e]
  · exact h.timer (by simp) (by simp) (by simp) ht (h.sequencer.visited hp hi) (h.response.congr (by simp) (by simp))
  · exact h.timer (by simp) (by simp) (by simp) (ht.congr rfl rfl) (h.sequencer.triggered hp hi)
      (h.response.congr (by simp) (by simp))

/-- The sequencer is outside a pass, whatever position and latches it leaves. -/
theorem SeqInv.idle {s : State} (h : SeqInv s) : SeqInv { s with seq := { s.seq with phase := .idle } } where
  iRange := h.iRange
  nRange := h.nRange
  firedRange := h.firedRange
  cbIdRange := h.cbIdRange
  inPass := fun hne => absurd rfl hne
  inCallback := fun hw => SeqPhase.noConfusion hw
  fgIdle := fun hr => SeqPhase.noConfusion hr

/-- SEQ begins a pass over the registered slots (R125). -/
theorem SeqInv.begun {s : State} (h : SeqInv s) (htc : s.tcount ≤ s.nTimers) (hf : s.fg = .ready) (e : Word) :
    SeqInv { s with seq := { s.seq with phase := .run, i := 0, n := s.tcount, e := e, fired := 0 } } where
  iRange := Nat.zero_le _
  nRange := htc
  firedRange := Nat.zero_le _
  cbIdRange := h.cbIdRange
  inPass := fun _ => ⟨Nat.zero_le _, Nat.le_refl _, Nat.le_refl _⟩
  inCallback := fun hw => SeqPhase.noConfusion hw
  fgIdle := fun _ => hf

/-- SEQ goes on with the pass after a callback (R129). -/
theorem SeqInv.returned {s : State} (h : SeqInv s) (hp : s.seq.phase = .waitCb) (hf : s.fg = .ready) :
    SeqInv (callbackReturn s) where
  iRange := h.iRange
  nRange := h.nRange
  firedRange := h.firedRange
  cbIdRange := h.cbIdRange
  inPass := fun _ => h.inPass (by simp [hp])
  inCallback := fun hw => SeqPhase.noConfusion hw
  fgIdle := fun _ => hf

/-- The sequencer alone is changed. -/
theorem BlockInv.setSeq {s : State} (h : BlockInv s) (q : Seq) (hq : SeqInv { s with seq := q }) :
    BlockInv { s with seq := q } :=
  h.timer (fun _ => rfl) (fun _ => rfl) rfl (h.timers.congr rfl rfl) hq h.response

theorem seqStep?_keeps_blockInv {s t : State} (h : BlockInv s) (ht : seqStep? s = some t) : BlockInv t := by
  obtain ⟨hp, ⟨hi, rfl⟩ | ⟨-, rfl⟩⟩ := seqStep?_cases ht
  · exact seqVisit_keeps_blockInv h hp hi
  · exact (h.setSeq _ h.sequencer.idle).respond _ _ _ (fun hne => absurd rfl hne)

/-! The instructions. -/

/-- The slot TMR_REGISTER fills has just been reset, and the registered ones are as they were (R120, R137). -/
theorem TimerInv.register {s : State} (h : TimerInv s) (hne : s.tcount ≠ s.nTimers) (period : Word) (cb : Bool) :
    TimerInv { s with slots := s.slots.set s.tcount ⟨period, 0, false, cb⟩, tcount := s.tcount + 1 } := by
  have hn : ({ s with slots := s.slots.set s.tcount ⟨period, 0, false, cb⟩, tcount := s.tcount + 1 } : State).nTimers =
      s.nTimers := by simp [State.nTimers]
  constructor
  case sizeLow => rw [hn]; exact h.sizeLow
  case sizeHigh => rw [hn]; exact h.sizeHigh
  case tcount => rw [hn]; exact Nat.lt_of_le_of_ne h.tcount hne
  case accBelow =>
    intro j hj sl hs
    rcases Nat.lt_succ_iff_lt_or_eq.mp hj with hj | rfl
    · rw [List.getElem?_set_ne (Nat.ne_of_gt hj)] at hs
      exact h.accBelow j hj sl hs
    · rw [List.getElem?_set_self' ] at hs
      obtain ⟨_, -, rfl⟩ := Option.map_eq_some_iff.mp hs
      exact .inr rfl

theorem BlockInv.onSlot {s : State} (h : BlockInv s) (op : Byte) (id : Nat) (f : Slot → Slot)
    (hf : ∀ sl, (sl.acc.toNat < sl.period.toNat ∨ sl.acc = 0) →
      ((f sl).acc.toNat < (f sl).period.toNat ∨ (f sl).acc = 0)) : BlockInv (onSlot op id f s) := by
  rcases Nat.lt_or_ge id s.tcount with hid | hid
  · rw [onSlot_registered f hid]
    refine BlockInv.respond ?_ _ _ _ (fun _ => rfl)
    exact h.timer (by simp) (by simp) (by simp) (h.timers.modifySlot id f hf)
      (h.sequencer.congr (by simp) (by simp) (by simp) (by simp)) (h.response.congr (by simp) (by simp))
  · rw [onSlot_invalid f hid]
    exact h.respond _ _ _ (fun _ => rfl)

/-- Every instruction keeps the invariant where its agent may take it; a command is issued while FG is ready and SEQ does not
run (R23). -/
theorem exec_keeps_blockInv {i : Instr} {s t : State} (h : BlockInv s) (hm : portOf i = none → mayIssue s = true)
    (he : exec i s = .next t) : BlockInv t := by
  rw [mayIssue_iff] at hm
  cases i with
  | rbInit b c => cases he; exact (h.rbInit b c (hm rfl).1).respond _ _ _ (fun _ => rfl)
  | rbPush b v => cases he; exact (h.rbPush b v).respond _ _ _ (fun _ => rfl)
  | rbPop b => cases he; exact (h.rbPop b).respond _ _ _ popResult_rbPop_eq_zero
  | rbIsEmpty b =>
    cases he
    split
    · exact h.respond _ _ _ (fun _ => rfl)
    · exact h.respond _ _ _ (fun hne => absurd rfl hne)
  | tmrRegister period cb =>
    cases he
    split
    · exact h.respond _ _ _ (fun _ => rfl)
    · rename_i hne
      refine BlockInv.respond ?_ _ _ _ (fun hne => absurd rfl hne)
      exact h.timer (fun _ => rfl) (fun _ => rfl) rfl (h.timers.register hne period cb)
        (h.sequencer.congr (by simp [State.nTimers]) (Nat.le_succ _) rfl rfl) h.response
  | tmrStart id => cases he; exact h.onSlot _ _ _ (fun _ _ => .inr rfl)
  | tmrPause id => cases he; exact h.onSlot _ _ _ (fun _ hsl => hsl)
  | tmrResume id => cases he; exact h.onSlot _ _ _ (fun _ hsl => hsl)
  | tmrAdvance e =>
    cases he
    split
    · exact h.respond _ _ _ (fun _ => rfl)
    · exact h.setSeq _ (h.sequencer.begun h.timers.tcount (hm rfl).1 e)
  | tmrElapsed start threshold => cases he; exact h.respond _ _ _ (fun hne => absurd rfl hne)
  | tickRead => cases he; exact h.respond _ _ _ (fun hne => absurd rfl hne)
  | tickDelta cur prev => cases he; exact h.respond _ _ _ (fun hne => absurd rfl hne)
  | cbDone =>
    cases he
    split
    · exact h.respond _ _ _ (fun _ => rfl)
    · rename_i hp
      exact (h.setSeq _ (h.sequencer.returned (Decidable.not_not.mp hp) (hm rfl).1)).respond _ _ _ (fun _ => rfl)
  | chInit ch c =>
    rcases exec_chInit_cases ch c s with ⟨-, e⟩ | ⟨-, -, e⟩ <;> cases e.symm.trans he
    · exact h.respond _ _ _ (fun _ => rfl)
    · have hrings := (h.rbInit (rxOf ch) c (hm rfl).1).rbInit (txOf ch) c (by rw [rbInit_fg]; exact (hm rfl).1)
      have hflags := hrings.setFlags ch 0 false (fun hf => Bool.noConfusion hf)
      rw [chn_rbInit, chn_rbInit] at hflags
      exact hflags.respond _ _ _ (fun _ => rfl)
  | chSend ch v =>
    rcases exec_chSend_cases ch v s with ⟨-, e⟩ | ⟨hi, e⟩ <;> cases e.symm.trans he
    · exact h.respond _ _ _ (fun _ => rfl)
    · exact ((h.rbPush (txOf ch) v).setFlags ch _ true (fun _ => rbPush_init_of_init v hi)).respond _ _ _ (fun _ => rfl)
  | chRecv ch =>
    rcases exec_chRecv_cases ch s with e | ⟨hi, e⟩ | e <;> cases e.symm.trans he
    · exact h.respond _ _ _ (fun _ => rfl)
    · refine h.setFg (.recv ch) (fun _ => FgPhase.noConfusion) ?_ (fun hp => absurd hp (hm rfl).2)
      rintro ch' ⟨⟩
      exact hi
    · exact recvPop_keeps_blockInv h ch
  | chGetFrame ch =>
    rcases exec_chGetFrame_cases ch s with ⟨st, -, e⟩ | ⟨hi, e⟩ <;> cases e.symm.trans he
    · exact h.respond _ _ _ (fun _ => rfl)
    · have c := h.channels ch
      refine h.setChnWithFg ch _ (.getFrame ch) c.frameWf c.frameInRange c.frameLen (Nat.zero_le _) c.armedInit ?_
        (fun _ hf => FgPhase.noConfusion hf) (fun hp => absurd hp (hm rfl).2)
      rintro ch' ⟨⟩
      exact ⟨rfl, hi, (h.rings (rxOf ch)).capLow hi, fun _ hlt => absurd hlt (Nat.not_lt_zero _)⟩
  | chPending ch => cases he; exact h.respond _ _ _ (fun hne => absurd rfl hne)
  | rxByte ch v =>
    have hpush := h.rbPush (rxOf ch) v
    rcases exec_rxByte_cases ch v s with e | ⟨-, -, ⟨-, e⟩ | ⟨-, e⟩⟩ <;> cases e.symm.trans he
    · exact h.emit _
    · exact hpush
    · rw [← chn_rbPush (rxOf ch) v s ch]
      exact hpush.setFlags ch _ _ (hpush.channels ch).armedInit
  | txReady ch =>
    rcases exec_txReady_cases ch s with ⟨-, e⟩ | ⟨v, e⟩ <;> cases e.symm.trans he
    · exact (h.setFlags ch _ false (fun hf => Bool.noConfusion hf)).emit _
    · exact (h.rbPop (txOf ch)).emit _
  | tick => cases he; exact h.congr (fun _ => rfl) (fun _ => rfl) rfl rfl rfl rfl h.response

/-- Settles O55: each way a step can go, of `step_cases`, keeps the invariant. -/
theorem everyStepKeepsTheInvariant : Obligations.EveryStepKeepsTheInvariant := by
  intro s t h hstep
  obtain ⟨ms, rfl | hf | hq | ⟨-, -, op, rfl⟩ | ⟨i, -, he, hm⟩⟩ := step_cases hstep
  · exact h.setMoves ms
  · exact fgStep?_keeps_blockInv (h.setMoves ms) hf
  · exact seqStep?_keeps_blockInv (h.setMoves ms) hq
  · exact (h.setMoves ms).respond _ _ _ (fun _ => rfl)
  · refine exec_keeps_blockInv (h.setMoves ms) (fun hport => ?_) he
    rcases hm with ⟨-, hmay⟩ | ⟨port, hport', -⟩
    · exact hmay
    · rw [hport] at hport'; cases hport'

end Sys2Proof.Machine

/-! Who writes what (spec/10_state.md R25, R35, R40, R41, R44): the channel's counter and flag, the response registers, the timer
table; and the queue content and the reset state (R29, R220). -/

namespace Sys2Proof.Machine

/-! The counter and the flag of a channel. -/

@[simp] theorem fg_gfFinish (ch : Ch) (o : Extraction) (s : State) : (gfFinish ch o s).fg = .ready := by
  rw [gfFinish_eq, respond_fg]

theorem pending_gfFinish (ch ch' : Ch) (o : Extraction) (s : State) :
    ((gfFinish ch o s).chn ch').pending = if ch' = ch then (s.chn ch').pending - 1 else (s.chn ch').pending := by
  split
  · rename_i e; subst e; rw [chn_gfFinish]; rfl
  · rename_i e; rw [chn_gfFinish_ne _ _ _ e]

@[simp] theorem armed_gfFinish (ch ch' : Ch) (o : Extraction) (s : State) :
    ((gfFinish ch o s).chn ch').armed = (s.chn ch').armed := by
  by_cases e : ch' = ch
  · subst e; rw [chn_gfFinish]; rfl
  · rw [chn_gfFinish_ne _ _ _ e]

@[simp] theorem pending_storePayload (ch ch' : Ch) (v : Byte) (s : State) :
    ((storePayload ch v s).chn ch').pending = (s.chn ch').pending := by
  rw [storePayload, State.chn_setChn]
  split
  · rename_i e; subst e; rfl
  · rw [State.chn_setRb]

@[simp] theorem armed_storePayload (ch ch' : Ch) (v : Byte) (s : State) :
    ((storePayload ch v s).chn ch').armed = (s.chn ch').armed := by
  rw [storePayload, State.chn_setChn]
  split
  · rename_i e; subst e; rfl
  · rw [State.chn_setRb]

/-- An extraction step that takes the counter down finishes, and is of that channel (R70, R160). -/
theorem pending_gfExtract (ch ch' : Ch) (s : State) :
    ((gfExtract ch s).chn ch').pending = (s.chn ch').pending ∨
    (ch' = ch ∧ (gfExtract ch s).fg = .ready ∧ ((gfExtract ch s).chn ch').pending = (s.chn ch').pending - 1) := by
  by_cases hch : ch' = ch
  · rcases gfExtract_cases ch s with e | e | e | e <;> rw [e]
    · exact .inl (pending_storePayload ..)
    · exact .inr ⟨hch, by simp, by simp [pending_gfFinish, hch]⟩
    · exact .inr ⟨hch, by simp, by simp [pending_gfFinish, hch]⟩
    · exact .inr ⟨hch, by simp, by simp [pending_gfFinish, hch]⟩
  · rcases gfExtract_cases ch s with e | e | e | e <;> rw [e] <;> simp [pending_gfFinish, hch]

theorem armed_gfExtract (ch ch' : Ch) (s : State) : ((gfExtract ch s).chn ch').armed = (s.chn ch').armed := by
  rcases gfExtract_cases ch s with e | e | e | e <;> rw [e] <;> simp

/-- How an instruction can leave channel `ch`: as it was, or with the counter, the flag or the cursor written (R25, R35, R38). -/
inductive ChannelWrite (ch : Ch) (s : State) : Instr → Channel → Prop
  | kept (i : Instr) : ChannelWrite ch s i (s.chn ch)
  | initialized (c : Word) (h0 : c ≠ 0) (h1 : c.toNat ≤ Config.storeSize ch) :
      ChannelWrite ch s (.chInit ch c) { s.chn ch with pending := 0, armed := false }
  | armed (v : Byte) : ChannelWrite ch s (.chSend ch v) { s.chn ch with armed := true }
  | frameBegun : ChannelWrite ch s (.chGetFrame ch) { s.chn ch with gfK := 0 }
  | frameArrived (hi : (s.rb (rxOf ch)).init = true) (hc : (s.rb (rxOf ch)).count ≠ (s.rb (rxOf ch)).cap) :
      ChannelWrite ch s (.rxByte ch (Config.term ch)) { s.chn ch with pending := (s.chn ch).pending + 1 }
  | disarmed (h : (s.rb (txOf ch)).init = false ∨ (s.rb (txOf ch)).count = 0) :
      ChannelWrite ch s (.txReady ch) { s.chn ch with armed := false }

/-- A channel kept, said by an equation. -/
theorem ChannelWrite.of_eq {ch : Ch} {s : State} {i : Instr} {c : Channel} (h : c = s.chn ch) : ChannelWrite ch s i c :=
  h ▸ .kept i

/-- An instruction that writes `c` into channel `ch'` writes it there, and keeps the other channel. -/
theorem ChannelWrite.of_setChn {ch ch' : Ch} {s u : State} {i : Instr} {c : Channel} (hu : ∀ ch, u.chn ch = s.chn ch)
    (h : ChannelWrite ch' s i c) : ChannelWrite ch s i ((u.setChn ch' c).chn ch) := by
  by_cases e : ch = ch'
  · subst e; rwa [State.chn_setChn_same]
  · exact .of_eq ((u.chn_setChn_ne c e).trans (hu ch))

theorem chn_onSlot (op : Byte) (id : Nat) (f : Slot → Slot) (s : State) (ch : Ch) : (onSlot op id f s).chn ch = s.chn ch := by
  unfold onSlot
  split <;> simp

theorem exec_channelWrite {i : Instr} {s t : State} (he : exec i s = .next t) (ch : Ch) : ChannelWrite ch s i (t.chn ch) := by
  cases i with
  | rbInit b c => cases he; exact .of_eq (chn_rbInit b c s ch)
  | rbPush b v => cases he; exact .of_eq (chn_rbPush b v s ch)
  | rbPop b => cases he; exact .of_eq (chn_rbPop b s ch)
  | rbIsEmpty b => cases he; split <;> exact .kept _
  | tmrRegister period cb => cases he; split <;> exact .kept _
  | tmrStart id => cases he; exact .of_eq (chn_onSlot ..)
  | tmrPause id => cases he; exact .of_eq (chn_onSlot ..)
  | tmrResume id => cases he; exact .of_eq (chn_onSlot ..)
  | tmrAdvance e => cases he; split <;> exact .kept _
  | tmrElapsed start threshold => cases he; exact .kept _
  | tickRead => cases he; exact .kept _
  | tickDelta cur prev => cases he; exact .kept _
  | cbDone => cases he; split <;> exact .kept _
  | chInit ch' c =>
    rcases exec_chInit_cases ch' c s with ⟨-, e⟩ | ⟨h0, h1, e⟩ <;> cases e.symm.trans he
    · exact .kept _
    · exact .of_setChn (by simp) (.initialized c h0 h1)
  | chSend ch' v =>
    rcases exec_chSend_cases ch' v s with ⟨-, e⟩ | ⟨-, e⟩ <;> cases e.symm.trans he
    · exact .kept _
    · refine .of_setChn (by simp) ?_
      rw [chn_rbPush]
      exact .armed v
  | chRecv ch' =>
    rcases exec_chRecv_cases ch' s with e | ⟨-, e⟩ | e <;> cases e.symm.trans he
    · exact .kept _
    · exact .kept _
    · exact .of_eq (chn_rbPop (rxOf ch') s ch)
  | chGetFrame ch' =>
    rcases exec_chGetFrame_cases ch' s with ⟨st, -, e⟩ | ⟨-, e⟩ <;> cases e.symm.trans he
    · exact .kept _
    · exact .of_setChn (fun _ => rfl) .frameBegun
  | chPending ch' => cases he; exact .kept _
  | rxByte ch' v =>
    rcases exec_rxByte_cases ch' v s with e | ⟨hi, hc, ⟨-, e⟩ | ⟨rfl, e⟩⟩ <;> cases e.symm.trans he
    · exact .kept _
    · exact .of_eq (chn_rbPush (rxOf ch') v s ch)
    · exact .of_setChn (by simp) (.frameArrived hi hc)
  | txReady ch' =>
    rcases exec_txReady_cases ch' s with ⟨h, e⟩ | ⟨v, e⟩ <;> cases e.symm.trans he
    · exact .of_setChn (fun _ => rfl) (.disarmed h)
    · exact .of_eq (chn_rbPop (txOf ch') s ch)
  | tick => cases he; exact .kept _

theorem seqStep?_chn {s t : State} (h : seqStep? s = some t) (ch : Ch) : t.chn ch = s.chn ch := by
  obtain ⟨-, ⟨-, rfl⟩ | ⟨-, rfl⟩⟩ := seqStep?_cases h
  · rcases seqVisit_cases s with e | e <;> rw [e] <;> simp
  · rfl

/-- Settles O45: of the instructions RX_BYTE and CH_INIT, and beside them a finished extraction. -/
theorem pendingCounterHasThreeWriters : Obligations.PendingCounterHasThreeWriters := by
  intro s t ch hstep
  obtain ⟨ms, rfl | hf | hq | ⟨-, -, op, rfl⟩ | ⟨i, hi, he, -⟩⟩ := step_cases hstep
  · exact .inl rfl
  · rcases fgStep?_cases hf with ⟨ch', -, -, rfl⟩ | ⟨ch', hfg, rfl⟩
    · exact .inl (congrArg Channel.pending (chn_rbPop (rxOf ch') _ ch))
    · rcases pending_gfExtract ch' ch { s with moves := ms } with e | ⟨rfl, hready, e⟩
      · exact .inl e
      · exact .inr (.inr (.inl ⟨hfg, hready, e⟩))
  · exact .inl (congrArg Channel.pending (seqStep?_chn hq ch))
  · exact .inl rfl
  · have hw := exec_channelWrite he ch
    generalize t.chn ch = c at hw
    cases hw with
    | kept => exact .inl rfl
    | initialized c h0 h1 => exact .inr (.inr (.inr ⟨c, hi, h0, h1, rfl⟩))
    | armed v => exact .inl rfl
    | frameBegun => exact .inl rfl
    | frameArrived hinit hc => exact .inr (.inl ⟨hi, hinit, hc, rfl⟩)
    | disarmed _ => exact .inl rfl

/-- What a step does to the flag of a channel, in every state: of the instructions CH_SEND, TX_READY and CH_INIT write it. -/
theorem step_armed_cases {s t : State} (hstep : step s = .next t) (ch : Ch) :
    (t.chn ch).armed = (s.chn ch).armed ∨
    ((t.chn ch).armed = true ∧ ∃ v, s.nextInstr? = some (.chSend ch v)) ∨
    ((t.chn ch).armed = false ∧ s.nextInstr? = some (.txReady ch) ∧
      ((s.rb (txOf ch)).init = false ∨ (s.rb (txOf ch)).count = 0)) ∨
    ((t.chn ch).armed = false ∧ ∃ c, s.nextInstr? = some (.chInit ch c) ∧ c ≠ 0 ∧ c.toNat ≤ Config.storeSize ch) := by
  obtain ⟨ms, rfl | hf | hq | ⟨-, -, op, rfl⟩ | ⟨i, hi, he, -⟩⟩ := step_cases hstep
  · exact .inl rfl
  · rcases fgStep?_cases hf with ⟨ch', -, -, rfl⟩ | ⟨ch', -, rfl⟩
    · exact .inl (congrArg Channel.armed (chn_rbPop (rxOf ch') _ ch))
    · exact .inl (armed_gfExtract ch' ch _)
  · exact .inl (congrArg Channel.armed (seqStep?_chn hq ch))
  · exact .inl rfl
  · have hw := exec_channelWrite he ch
    generalize t.chn ch = c at hw
    cases hw with
    | kept => exact .inl rfl
    | initialized c h0 h1 => exact .inr (.inr (.inr ⟨rfl, c, hi, h0, h1⟩))
    | armed v => exact .inr (.inl ⟨rfl, v, hi⟩)
    | frameBegun => exact .inl rfl
    | frameArrived _ _ => exact .inl rfl
    | disarmed hempty => exact .inr (.inr (.inl ⟨rfl, hi, hempty⟩))

/-- Settles O46: by `step_armed_cases`; the TX of an armed channel is initialized, so TX_READY finds it empty. -/
theorem armedFlagHasThreeWriters : Obligations.ArmedFlagHasThreeWriters := by
  intro s t ch h hstep
  constructor
  · intro hoff hon
    rcases step_armed_cases hstep ch with e | ⟨-, hsend⟩ | ⟨e, -⟩ | ⟨e, -⟩
    · exact absurd (hon.symm.trans (e.trans hoff)) (by decide)
    · exact hsend
    · exact absurd (hon.symm.trans e) (by decide)
    · exact absurd (hon.symm.trans e) (by decide)
  · intro hon hoff
    rcases step_armed_cases hstep ch with e | ⟨e, -⟩ | ⟨-, hi, hempty⟩ | ⟨-, hinit⟩
    · exact absurd (hon.symm.trans (e.symm.trans hoff)) (by decide)
    · exact absurd (e.symm.trans hoff) (by decide)
    · have htx : (s.rb (txOf ch)).init = true := (h.channels ch).armedInit hon
      exact .inl ⟨hi, hempty.resolve_left (by simp [htx])⟩
    · exact .inr hinit

/-! The response registers and the trace. -/

/-- At most one event is appended, and the response registers change only to what a RESP event among it says (R21, R44). -/
def AnswersOnce (s t : State) : Prop :=
  ∃ es : List TraceEvent, t.trace = s.trace ++ es ∧ es.length ≤ 1 ∧
    ((∀ op st r, TraceEvent.resp op st r ∉ es) → t.status = s.status ∧ t.result = s.result) ∧
    ∀ op st r, TraceEvent.resp op st r ∈ es → t.status = st.code ∧ t.result = r

theorem AnswersOnce.of_kept {s t : State} (htrace : t.trace = s.trace) (hstatus : t.status = s.status)
    (hresult : t.result = s.result) : AnswersOnce s t :=
  ⟨[], by simp [htrace], by simp, fun _ => ⟨hstatus, hresult⟩, by simp⟩

theorem AnswersOnce.of_respond {s u : State} (op : Byte) (st : Status) (r : Word) (htrace : u.trace = s.trace) :
    AnswersOnce s (respond op st r u) :=
  ⟨[.resp op st r], by simp [htrace], by simp, fun hno => absurd List.mem_cons_self (hno op st r), by
    intro op' st' r' hmem
    cases List.mem_singleton.mp hmem
    exact ⟨rfl, rfl⟩⟩

theorem AnswersOnce.of_emit {s u : State} {e : TraceEvent} (he : ∀ op st r, .resp op st r ≠ e) (htrace : u.trace = s.trace)
    (hstatus : u.status = s.status) (hresult : u.result = s.result) : AnswersOnce s (emit e u) :=
  ⟨[e], by simp [htrace], by simp, fun _ => ⟨hstatus, hresult⟩,
    fun op st r hmem => absurd (List.mem_singleton.mp hmem) (he op st r)⟩

theorem answersOnce_onSlot (op : Byte) (id : Nat) (f : Slot → Slot) (s : State) : AnswersOnce s (onSlot op id f s) := by
  unfold onSlot
  split
  · exact .of_respond _ _ _ (by simp)
  · exact .of_respond _ _ _ rfl

theorem answersOnce_recvPop {s u : State} (ch : Ch) (htrace : u.trace = s.trace) : AnswersOnce s (recvPop ch u) :=
  .of_respond _ _ _ ((rbPop_trace ..).trans htrace)

theorem answersOnce_gfFinish {s u : State} (ch : Ch) (o : Extraction) (htrace : u.trace = s.trace) :
    AnswersOnce s (gfFinish ch o u) := by
  rw [gfFinish_eq]
  exact .of_respond _ _ _ ((State.setChn_trace ..).trans htrace)

theorem answersOnce_gfExtract (ch : Ch) (s : State) : AnswersOnce s (gfExtract ch s) := by
  rcases gfExtract_cases ch s with e | e | e | e <;> rw [e]
  · exact .of_kept (by simp [storePayload]) (by simp [storePayload]) (by simp [storePayload])
  · exact answersOnce_gfFinish ch _ rfl
  · exact answersOnce_gfFinish ch _ (by simp)
  · exact answersOnce_gfFinish ch _ (by simp [storePayload])

theorem answersOnce_seqVisit (s : State) : AnswersOnce s (seqVisit s) := by
  rcases seqVisit_cases s with e | e <;> rw [e]
  · exact .of_kept (by simp) (by simp) (by simp)
  · exact .of_emit (fun _ _ _ => TraceEvent.noConfusion) (visited_trace s) (visited_status s) (visited_result s)

theorem exec_answersOnce {i : Instr} {s t : State} (he : exec i s = .next t) : AnswersOnce s t := by
  cases i with
  | rbInit b c => cases he; exact .of_respond _ _ _ (rbInit_trace b c s)
  | rbPush b v => cases he; exact .of_respond _ _ _ (rbPush_trace b v s)
  | rbPop b => cases he; exact .of_respond _ _ _ (rbPop_trace b s)
  | rbIsEmpty b => cases he; split <;> exact .of_respond _ _ _ rfl
  | tmrRegister period cb => cases he; split <;> exact .of_respond _ _ _ rfl
  | tmrStart id => cases he; exact answersOnce_onSlot ..
  | tmrPause id => cases he; exact answersOnce_onSlot ..
  | tmrResume id => cases he; exact answersOnce_onSlot ..
  | tmrAdvance e =>
    cases he
    split
    · exact .of_respond _ _ _ rfl
    · exact .of_kept rfl rfl rfl
  | tmrElapsed start threshold => cases he; exact .of_respond _ _ _ rfl
  | tickRead => cases he; exact .of_respond _ _ _ rfl
  | tickDelta cur prev => cases he; exact .of_respond _ _ _ rfl
  | cbDone => cases he; split <;> exact .of_respond _ _ _ rfl
  | chInit ch c =>
    rcases exec_chInit_cases ch c s with ⟨-, e⟩ | ⟨-, -, e⟩ <;> cases e.symm.trans he
    · exact .of_respond _ _ _ rfl
    · exact .of_respond _ _ _ (by simp)
  | chSend ch v =>
    rcases exec_chSend_cases ch v s with ⟨-, e⟩ | ⟨-, e⟩ <;> cases e.symm.trans he
    · exact .of_respond _ _ _ rfl
    · exact .of_respond _ _ _ (by simp)
  | chRecv ch =>
    rcases exec_chRecv_cases ch s with e | ⟨-, e⟩ | e <;> cases e.symm.trans he
    · exact .of_respond _ _ _ rfl
    · exact .of_kept rfl rfl rfl
    · exact answersOnce_recvPop ch rfl
  | chGetFrame ch =>
    rcases exec_chGetFrame_cases ch s with ⟨st, -, e⟩ | ⟨-, e⟩ <;> cases e.symm.trans he
    · exact .of_respond _ _ _ rfl
    · exact .of_kept (by simp) (by simp) (by simp)
  | chPending ch => cases he; exact .of_respond _ _ _ rfl
  | rxByte ch v =>
    rcases exec_rxByte_cases ch v s with e | ⟨-, -, ⟨-, e⟩ | ⟨-, e⟩⟩ <;> cases e.symm.trans he
    · exact .of_emit (fun _ _ _ => TraceEvent.noConfusion) rfl rfl rfl
    · exact .of_kept (by simp) (by simp) (by simp)
    · exact .of_kept (by simp) (by simp) (by simp)
  | txReady ch =>
    rcases exec_txReady_cases ch s with ⟨-, e⟩ | ⟨v, e⟩ <;> cases e.symm.trans he
    · exact .of_emit (fun _ _ _ => TraceEvent.noConfusion) (by simp) (by simp) (by simp)
    · exact .of_emit (fun _ _ _ => TraceEvent.noConfusion) (by simp) (by simp) (by simp)
  | tick => cases he; exact .of_kept rfl rfl rfl

/-- Settles O47: every way a step can go answers once, or not at all. -/
theorem responseRegistersChangeOnlyWithAResponse : Obligations.ResponseRegistersChangeOnlyWithAResponse := by
  intro s t hstep
  show AnswersOnce s t
  obtain ⟨ms, rfl | hf | hq | ⟨-, -, op, rfl⟩ | ⟨i, -, he, -⟩⟩ := step_cases hstep
  · exact .of_kept rfl rfl rfl
  · rcases fgStep?_cases hf with ⟨ch, -, -, rfl⟩ | ⟨ch, -, rfl⟩
    · exact answersOnce_recvPop ch rfl
    · exact answersOnce_gfExtract ch { s with moves := ms }
  · obtain ⟨-, ⟨-, rfl⟩ | ⟨-, rfl⟩⟩ := seqStep?_cases hq
    · exact answersOnce_seqVisit { s with moves := ms }
    · exact .of_respond _ _ _ rfl
  · exact .of_respond _ _ _ rfl
  · exact exec_answersOnce (s := { s with moves := ms }) he

/-! The timer table. -/

theorem SameTimers.refl (s : State) : SameTimers s s := ⟨rfl, rfl, rfl⟩

theorem SameTimers.respond {s u : State} (h : SameTimers s u) (op : Byte) (st : Status) (r : Word) :
    SameTimers s (respond op st r u) := h

theorem SameTimers.emit {s u : State} (h : SameTimers s u) (e : TraceEvent) : SameTimers s (emit e u) := h

theorem SameTimers.setChn {s u : State} (h : SameTimers s u) (ch : Ch) (c : Channel) : SameTimers s (u.setChn ch c) := by
  simpa [SameTimers] using h

theorem SameTimers.rbInit {s u : State} (h : SameTimers s u) (b : BufId) (c : Word) : SameTimers s (rbInit b c u).2 := by
  simpa [SameTimers] using h

theorem SameTimers.rbPush {s u : State} (h : SameTimers s u) (b : BufId) (v : Byte) : SameTimers s (rbPush b v u).2 := by
  simpa [SameTimers] using h

theorem SameTimers.rbPop {s u : State} (h : SameTimers s u) (b : BufId) : SameTimers s (rbPop b u).2.2 := by
  simpa [SameTimers] using h

theorem SameTimers.gfFinish {s u : State} (h : SameTimers s u) (ch : Ch) (o : Extraction) : SameTimers s (gfFinish ch o u) := by
  rw [gfFinish_eq]
  exact h.setChn ch _

theorem sameTimers_gfExtract (ch : Ch) (s : State) : SameTimers s (gfExtract ch s) := by
  rcases gfExtract_cases ch s with e | e | e | e <;> rw [e]
  · simp [SameTimers, storePayload]
  · exact (SameTimers.refl s).gfFinish ch _
  · exact SameTimers.gfFinish (by simp [SameTimers]) ch _
  · exact SameTimers.gfFinish (by simp [SameTimers, storePayload]) ch _

theorem fgStep?_sameTimers {s t : State} (h : fgStep? s = some t) : SameTimers s t := by
  rcases fgStep?_cases h with ⟨ch, -, -, rfl⟩ | ⟨ch, -, rfl⟩
  · exact (show SameTimers s { s with fg := .ready } from .refl s).rbPop (rxOf ch)
  · exact sameTimers_gfExtract ch s

/-- An instruction of a channel leaves the timer unit alone (R204). -/
theorem exec_channel_sameTimers {i : Instr} {s t : State} (hch : channelOf i ≠ none) (he : exec i s = .next t) :
    SameTimers s t := by
  have same := SameTimers.refl s
  cases i with
  | rbInit b c => cases he; exact same.rbInit b c
  | rbPush b v => cases he; exact same.rbPush b v
  | rbPop b => cases he; exact same.rbPop b
  | rbIsEmpty b => cases he; split <;> exact same
  | chInit ch c =>
    rcases exec_chInit_cases ch c s with ⟨-, e⟩ | ⟨-, -, e⟩ <;> cases e.symm.trans he
    · exact same
    · exact (((same.rbInit _ c).rbInit _ c).setChn ch _).respond _ _ _
  | chSend ch v =>
    rcases exec_chSend_cases ch v s with ⟨-, e⟩ | ⟨-, e⟩ <;> cases e.symm.trans he
    · exact same
    · exact ((same.rbPush _ v).setChn ch _).respond _ _ _
  | chRecv ch =>
    rcases exec_chRecv_cases ch s with e | ⟨-, e⟩ | e <;> cases e.symm.trans he
    · exact same
    · exact same
    · exact same.rbPop (rxOf ch)
  | chGetFrame ch =>
    rcases exec_chGetFrame_cases ch s with ⟨st, -, e⟩ | ⟨-, e⟩ <;> cases e.symm.trans he
    · exact same
    · exact same.setChn ch _
  | chPending ch => cases he; exact same
  | rxByte ch v =>
    rcases exec_rxByte_cases ch v s with e | ⟨-, -, ⟨-, e⟩ | ⟨-, e⟩⟩ <;> cases e.symm.trans he
    · exact same
    · exact same.rbPush _ v
    · exact (same.rbPush _ v).setChn ch _
  | txReady ch =>
    rcases exec_txReady_cases ch s with ⟨-, e⟩ | ⟨v, e⟩ <;> cases e.symm.trans he
    · exact (same.setChn ch _).emit _
    · exact (same.rbPop _).emit _
  | _ => exact absurd rfl hch

/-- The table keeps its size and every registered slot its period and its callback bit (R40, R41). -/
def KeepsRegistrations (s t : State) : Prop :=
  t.nTimers = s.nTimers ∧ ∀ j < s.tcount, ∀ sl, s.slots[j]? = some sl →
    ∃ sl', t.slots[j]? = some sl' ∧ sl'.period = sl.period ∧ sl'.cbEn = sl.cbEn

theorem KeepsRegistrations.of_slots {s t : State} (h : t.slots = s.slots) : KeepsRegistrations s t := by
  refine ⟨by simp [State.nTimers, h], fun j _ sl hsl => ⟨sl, ?_, rfl, rfl⟩⟩
  rw [h, hsl]

theorem KeepsRegistrations.of_modifySlot {s t : State} {id : Nat} {f : Slot → Slot}
    (h : t.slots = (s.modifySlot id f).slots) (hperiod : ∀ sl, (f sl).period = sl.period)
    (hcb : ∀ sl, (f sl).cbEn = sl.cbEn) : KeepsRegistrations s t := by
  refine ⟨(congrArg List.length h).trans (s.modifySlot_nTimers id f), fun j _ sl hsl => ?_⟩
  rw [h, State.modifySlot_slot, hsl]
  split
  · exact ⟨f sl, rfl, hperiod sl, hcb sl⟩
  · exact ⟨sl, rfl, rfl, rfl⟩

/-- A slot that is not registered yet is filled (R120). -/
theorem KeepsRegistrations.of_register {s t : State} {sl : Slot} (h : t.slots = s.slots.set s.tcount sl) :
    KeepsRegistrations s t := by
  refine ⟨by simp [State.nTimers, h], fun j hj sl' hsl => ⟨sl', ?_, rfl, rfl⟩⟩
  rw [h, List.getElem?_set_ne (Nat.ne_of_gt hj), hsl]

/-- The registrations are kept, and `i` adds one at most, as TMR_REGISTER alone does (R120). -/
def RegistersOnly (i : Option Instr) (s t : State) : Prop :=
  (t.tcount = s.tcount ∨ (t.tcount = s.tcount + 1 ∧ ∃ period cb, i = some (.tmrRegister period cb))) ∧
    KeepsRegistrations s t

theorem SameTimers.registersOnly {s t : State} (h : SameTimers s t) (i : Option Instr) : RegistersOnly i s t :=
  ⟨.inl h.1, .of_slots h.2.1⟩

theorem registersOnly_onSlot (i : Option Instr) (op : Byte) (id : Nat) (f : Slot → Slot) (s : State)
    (hperiod : ∀ sl, (f sl).period = sl.period) (hcb : ∀ sl, (f sl).cbEn = sl.cbEn) :
    RegistersOnly i s (onSlot op id f s) := by
  unfold onSlot
  split
  · exact ⟨.inl (s.modifySlot_tcount id f), .of_modifySlot rfl hperiod hcb⟩
  · exact ⟨.inl rfl, .of_slots rfl⟩

theorem exec_registersOnly {i : Instr} {s t : State} (he : exec i s = .next t) : RegistersOnly (some i) s t := by
  cases i with
  | tmrRegister period cb =>
    cases he
    split
    · exact ⟨.inl rfl, .of_slots rfl⟩
    · exact ⟨.inr ⟨rfl, period, cb, rfl⟩, .of_register rfl⟩
  | tmrStart id => cases he; exact registersOnly_onSlot _ _ _ _ _ (fun _ => rfl) (fun _ => rfl)
  | tmrPause id => cases he; exact registersOnly_onSlot _ _ _ _ _ (fun _ => rfl) (fun _ => rfl)
  | tmrResume id => cases he; exact registersOnly_onSlot _ _ _ _ _ (fun _ => rfl) (fun _ => rfl)
  | tmrAdvance e => cases he; split <;> exact ⟨.inl rfl, .of_slots rfl⟩
  | tmrElapsed start threshold => cases he; exact ⟨.inl rfl, .of_slots rfl⟩
  | tickRead => cases he; exact ⟨.inl rfl, .of_slots rfl⟩
  | tickDelta cur prev => cases he; exact ⟨.inl rfl, .of_slots rfl⟩
  | cbDone => cases he; split <;> exact ⟨.inl rfl, .of_slots rfl⟩
  | tick => cases he; exact ⟨.inl rfl, .of_slots rfl⟩
  | _ => exact (exec_channel_sameTimers (by simp [channelOf]) he).registersOnly _

theorem seqStep?_registersOnly {s t : State} (h : seqStep? s = some t) (i : Option Instr) : RegistersOnly i s t := by
  obtain ⟨-, ⟨-, rfl⟩ | ⟨-, rfl⟩⟩ := seqStep?_cases h
  · have hkeeps : RegistersOnly i s (visited s) :=
      ⟨.inl (visited_tcount s), .of_modifySlot (visited_slots s) (Slot.advance_period s.seq.e) (Slot.advance_cbEn s.seq.e)⟩
    rcases seqVisit_cases s with e | e <;> rw [e]
    · exact hkeeps
    · exact hkeeps
  · exact ⟨.inl rfl, .of_slots rfl⟩

/-- Settles O49: TMR_REGISTER fills a slot past the registered ones; every other write of a slot keeps its period and
callback bit. -/
theorem registeredTimersKeepTheirPeriod : Obligations.RegisteredTimersKeepTheirPeriod := by
  intro s t hstep _
  suffices h : RegistersOnly s.nextInstr? s t by
    obtain ⟨hcount, hsize, hslots⟩ := h
    exact ⟨hsize, hcount, hslots⟩
  obtain ⟨ms, rfl | hf | hq | ⟨-, -, op, rfl⟩ | ⟨i, hi, he, -⟩⟩ := step_cases hstep
  · exact ⟨.inl rfl, .of_slots rfl⟩
  · exact (fgStep?_sameTimers hf).registersOnly _
  · exact seqStep?_registersOnly hq _
  · exact ⟨.inl rfl, .of_slots rfl⟩
  · rw [hi]; exact exec_registersOnly (s := { s with moves := ms }) he

/-! The queue content. -/

theorem exec_rbPush (b : BufId) (v : Byte) (s : State) :
    exec (.rbPush b v) s = .next (respond Opcode.rbPush.code (rbPush b v s).1 0 (rbPush b v s).2) := rfl

theorem exec_rbPop (b : BufId) (s : State) :
    exec (.rbPop b) s = .next (respond Opcode.rbPop.code (rbPop b s).1 (popResult (rbPop b s).2.1) (rbPop b s).2.2) := rfl

/-- Settles O14: the queue of the one buffer by `queue_pushed` and `queue_popped`; the others are as they were. -/
theorem pushAppendsAndPopRemovesTheOldest : Obligations.PushAppendsAndPopRemovesTheOldest := by
  intro b s h hi
  constructor
  · intro v hlt
    have hne : (s.rb b).count ≠ (s.rb b).cap := Nat.ne_of_lt hlt
    refine ⟨_, exec_rbPush b v s, ?_⟩
    rw [rbPush_ok v hi hne]
    exact ⟨queue_pushed v h hi hne, fun b' hb => queue_congr (s.rb_setRb_ne _ hb)⟩
  · intro v q hq
    have hne : (s.rb b).count ≠ 0 := fun hc => by rw [queue_of_count_zero hc] at hq; cases hq
    obtain ⟨rfl, rfl⟩ := List.cons.inj (hq.symm.trans (queue_popped h hi hne))
    refine ⟨_, exec_rbPop b s, ?_⟩
    rw [rbPop_ok hi hne]
    exact ⟨rfl, rfl, rfl, fun b' hb => queue_congr (s.rb_setRb_ne _ hb)⟩

/-! The reset state. -/

theorem length_freeSlots (k i : Nat) : (freeSlots k i).length = k := by
  induction k generalizing i with
  | zero => rfl
  | succ k ih => simp [freeSlots, ih]

theorem nTimers_reset : State.reset.nTimers = Config.nTimers := length_freeSlots _ _

theorem rb_reset (b : BufId) : State.reset.rb b = Ring.reset := by
  rcases b with ⟨⟨⟩, ⟨⟩⟩ <;> rfl

theorem chn_reset (ch : Ch) : State.reset.chn ch = Channel.reset := by
  cases ch <;> rfl

theorem storeSize_pos (ch : Ch) : 0 < Config.storeSize ch := by
  cases ch <;> decide

/-- Settles O54: nothing is initialized, registered or under way at reset, and N_TIMERS is in 1..256 whatever its draw. -/
theorem resetMeetsTheInvariant : Obligations.ResetMeetsTheInvariant where
  rings b := by rw [rb_reset]; exact RingInv.reset _
  channels ch := by
    constructor
    case frameWf => rw [chn_reset]; rfl
    case frameInRange => rw [chn_reset]; intro c hc; cases hc
    case frameLen => rw [chn_reset]; exact storeSize_pos ch
    case cursor => rw [chn_reset]; exact Nat.zero_le _
    case armedInit => rw [chn_reset]; exact fun hf => Bool.noConfusion hf
    case extracting => exact fun hf => FgPhase.noConfusion hf
    case receiving => exact fun hf => FgPhase.noConfusion hf
  timers := by
    constructor
    case sizeLow => rw [nTimers_reset]; exact Nat.le_add_left 1 _
    case sizeHigh => rw [nTimers_reset]; exact Config.spareTimers.isLt
    case tcount => exact Nat.zero_le _
    case accBelow => exact fun j hj => absurd hj (Nat.not_lt_zero j)
  sequencer := by
    constructor
    case iRange => exact Nat.zero_le _
    case nRange => exact Nat.zero_le _
    case firedRange => exact Nat.zero_le _
    case cbIdRange => rw [nTimers_reset]; exact Nat.succ_pos _
    case inPass => exact fun hne => absurd rfl hne
    case inCallback => exact fun hw => SeqPhase.noConfusion hw
    case fgIdle => exact fun _ => rfl
  response := ⟨.ok, rfl, fun hne => absurd rfl hne⟩

end Sys2Proof.Machine

/-! CH_GETFRAME beside the port events (spec/20_memory.md R72; spec/42_framechannel.md R158 to R164): what a port event leaves of an
extraction, what an extraction step does to its progress, and the run of any mix of the two. -/

namespace Sys2Proof.Machine

/-! Ring buffers: the subroutines leave the other buffers, and only an initialized one holds bytes. -/

theorem rb_rbPush_ne {b b' : BufId} (v : Byte) (s : State) (h : b' ≠ b) : (rbPush b v s).2.rb b' = s.rb b' := by
  obtain ⟨r, e⟩ := rbPush_eq_setRb b v s
  rw [e, s.rb_setRb_ne r h]

theorem rb_rbPop_ne {b b' : BufId} (s : State) (h : b' ≠ b) : (rbPop b s).2.2.rb b' = s.rb b' := by
  obtain ⟨r, e⟩ := rbPop_eq_setRb b s
  rw [e, s.rb_setRb_ne r h]

/-- A buffer that holds bytes is initialized (R27). -/
theorem RingInv.init_of_count_ne_zero {size : Nat} {r : Ring} (h : RingInv size r) (hc : r.count ≠ 0) : r.init = true := by
  by_contra hno
  obtain ⟨-, -, -, hzero⟩ := h.fresh (by simpa using hno)
  exact hc hzero

/-! The event words of a port. -/

/-- The instructions of each port (spec/30_encoding.md R85). -/
theorem portOf_eq_some_iff {i : Instr} {port : Port} :
    portOf i = some port ↔ (∃ ch v, i = .rxByte ch v ∧ port = .rxt ch) ∨ (∃ ch, i = .txReady ch ∧ port = .txt ch) ∨
      (i = .tick ∧ port = .tick) := by
  cases i <;> simp [portOf, eq_comm]

/-- A channel has one TX_READY word: its row leaves only the `CH` bit free (R81, R86). -/
theorem eq_encode_of_decodeEvent_txReady {w : Word} {ch : Ch} (h : decodeEvent w = .ok (.txReady ch)) :
    w = (encode (.txReady ch)).cmd := by
  obtain ⟨o, -, -, hr⟩ := decodeEvent_eq_ok.mp h
  obtain ⟨hmatch, hi⟩ := Opcode.read_eq_ok.mp hr
  have ho : o = .txReady := by rw [← Opcode.opcode_instr o ⟨w, 0, 0⟩, ← hi]; rfl
  subst ho
  cases hi
  have hbit : w &&& ~~~Opcode.txReady.mask = if w.getLsbD 8 then BitVec.twoPow 32 8 else 0#32 := BitVec.and_twoPow w 8
  have hsplit : w = Opcode.txReady.pattern ||| (w &&& ~~~Opcode.txReady.mask) := by
    rw [← hmatch, ← BitVec.and_or_distrib_left,
      show Opcode.txReady.mask ||| ~~~Opcode.txReady.mask = BitVec.allOnes 32 by decide, BitVec.and_allOnes]
  rw [hbit] at hsplit
  unfold chField
  split at hsplit
  · rename_i hb; rw [if_pos hb, hsplit]; decide
  · rename_i hb; rw [if_neg hb, hsplit]; decide

/-- An event word that is no event of its port is ignored (R87). -/
theorem step_event_ignored {s : State} {port : Port} {w : Word} {rest : List Move} (h : s.moves = .event port w :: rest)
    (hi : ∀ i, decodeEvent w = .ok i → portOf i ≠ some port) : step s = .next { s with moves := rest } := by
  rw [step_cons h]
  simp only [takeMove, deliverEvent]
  split
  · rename_i i hd; exact if_neg (hi i hd)
  · rfl

/-! What a port event leaves of an extraction under way and of its output. -/

/-- RX of every channel keeps its capacity and its bytes; more may have arrived. -/
def RxGrows (s t : State) : Prop :=
  ∀ ch, (t.rb (rxOf ch)).cap = (s.rb (rxOf ch)).cap ∧ ∃ bytes, t.queue (rxOf ch) = s.queue (rxOf ch) ++ bytes

theorem RxGrows.of_rb {s t : State} (h : ∀ ch, t.rb (rxOf ch) = s.rb (rxOf ch)) : RxGrows s t :=
  fun ch => ⟨by rw [h], [], by rw [queue_congr (h ch), List.append_nil]⟩

/-- An admitted byte is appended to the RX of its channel. -/
theorem RxGrows.of_pushed {s t : State} (h : BlockInv s) {ch : Ch} {v : Byte} (hi : (s.rb (rxOf ch)).init = true)
    (hc : (s.rb (rxOf ch)).count ≠ (s.rb (rxOf ch)).cap)
    (ht : ∀ b, t.rb b = (s.setRb (rxOf ch) ((s.rb (rxOf ch)).pushed v)).rb b) : RxGrows s t := by
  intro ch'
  rw [ht, queue_congr (ht (rxOf ch'))]
  by_cases e : ch' = ch
  · subst e
    rw [State.rb_setRb_same]
    exact ⟨rfl, [v], queue_pushed v (h.rings _) hi hc⟩
  · have hne : (s.setRb (rxOf ch) ((s.rb (rxOf ch)).pushed v)).rb (rxOf ch') = s.rb (rxOf ch') :=
      s.rb_setRb_ne _ (by simpa using e)
    rw [hne, queue_congr hne]
    exact ⟨rfl, [], (List.append_nil _).symm⟩

/-- What every port event leaves: the FG phase, the response, the bytes of RX and, of a channel's own state, all but the counter and the
flag. -/
structure PortEffect (s t : State) : Prop where
  fg      : t.fg = s.fg
  status  : t.status = s.status
  result  : t.result = s.result
  rx      : RxGrows s t
  channel : ∀ ch, ∃ p a, t.chn ch = { s.chn ch with pending := p, armed := a }

/-- An event writes the counter and the flag of a channel only (R25, R35). -/
theorem chn_of_exec_event {i : Instr} {s t : State} (hi : portOf i ≠ none) (he : exec i s = .next t) (ch : Ch) :
    ∃ p a, t.chn ch = { s.chn ch with pending := p, armed := a } := by
  have hw := exec_channelWrite he ch
  generalize t.chn ch = c at hw
  cases hw with
  | kept => exact ⟨_, _, rfl⟩
  | initialized c h0 h1 => exact absurd rfl hi
  | armed v => exact absurd rfl hi
  | frameBegun => exact absurd rfl hi
  | frameArrived _ _ => exact ⟨_, _, rfl⟩
  | disarmed _ => exact ⟨_, _, rfl⟩

/-- Each port event has that effect: RX_BYTE pushes into RX or drops, TX_READY pops TX or disarms, TICK counts (R133, R153, R154). -/
theorem exec_event_portEffect {i : Instr} {port : Port} {s t : State} (h : BlockInv s) (hp : portOf i = some port)
    (he : exec i s = .next t) : PortEffect s t := by
  have hchn := chn_of_exec_event (by simp [hp]) he
  rcases portOf_eq_some_iff.mp hp with ⟨ch, v, rfl, -⟩ | ⟨ch, rfl, -⟩ | ⟨rfl, -⟩
  · rcases exec_rxByte_cases ch v s with e | ⟨hi, hc, ⟨-, e⟩ | ⟨-, e⟩⟩ <;> cases e.symm.trans he
    · exact ⟨rfl, rfl, rfl, .of_rb fun _ => rfl, hchn⟩
    · exact ⟨by simp, by simp, by simp, .of_pushed h hi hc (fun _ => by rw [rbPush_ok v hi hc]), hchn⟩
    · exact ⟨by simp, by simp, by simp, .of_pushed h hi hc (fun _ => by rw [rbPush_ok v hi hc, State.rb_setChn]), hchn⟩
  · rcases exec_txReady_cases ch s with ⟨-, e⟩ | ⟨v, e⟩ <;> cases e.symm.trans he
    · exact ⟨by simp, by simp, by simp, .of_rb (by simp), hchn⟩
    · exact ⟨by simp, by simp, by simp, .of_rb fun _ => rb_rbPop_ne s (by simp), hchn⟩
  · cases he
    exact ⟨rfl, rfl, rfl, .of_rb fun _ => rfl, hchn⟩

/-! How many polls a channel can still take. -/

theorem pollsLeft_congr {s t : State} {ch : Ch} (ha : (t.chn ch).armed = (s.chn ch).armed) (hr : t.rb (txOf ch) = s.rb (txOf ch)) :
    pollsLeft ch t = pollsLeft ch s := by
  unfold pollsLeft
  rw [ha, hr]

/-- A poll of an armed channel takes one from the polls it can still take, and nothing from the other channel's (R154). -/
theorem pollsLeft_exec_txReady {s t : State} (h : BlockInv s) {ch : Ch} (ha : (s.chn ch).armed = true)
    (he : exec (.txReady ch) s = .next t) (ch' : Ch) : pollsLeft ch' s = pollsLeft ch' t + if ch' = ch then 1 else 0 := by
  have hi : (s.rb (txOf ch)).init = true := (h.channels ch).armedInit ha
  by_cases hc : (s.rb (txOf ch)).count = 0
  · simp only [exec, execTxReady, rbPop_empty hi hc] at he
    cases he
    split
    · rename_i e; subst e
      simp [pollsLeft, ha, hc]
    · rename_i e
      exact (pollsLeft_congr (by simp [State.chn_setArmed_ne s _ e]) (by simp)).symm
  · simp only [exec, execTxReady, rbPop_ok hi hc] at he
    cases he
    split
    · rename_i e; subst e
      simp [pollsLeft, ha, Ring.popped, Nat.sub_add_cancel (Nat.one_le_iff_ne_zero.mpr hc)]
    · rename_i e
      exact (pollsLeft_congr (by simp) (by rw [rb_emit, State.rb_setRb_ne _ _ (by simpa using e)])).symm

/-- An event takes one of a channel's polls if it is a poll of that channel, and none otherwise. -/
theorem pollsLeft_exec_event {i : Instr} {port : Port} {s t : State} (h : BlockInv s) (hp : portOf i = some port)
    (hen : port.enabled s = true) (he : exec i s = .next t) (ch : Ch) :
    pollsLeft ch s = pollsLeft ch t + if i = .txReady ch then 1 else 0 := by
  rcases portOf_eq_some_iff.mp hp with ⟨ch', v, rfl, -⟩ | ⟨ch', rfl, rfl⟩ | ⟨rfl, -⟩
  · rcases exec_rxByte_cases ch' v s with e | ⟨-, -, ⟨-, e⟩ | ⟨-, e⟩⟩ <;> cases e.symm.trans he
    · rfl
    · exact (pollsLeft_congr (by simp) (rb_rbPush_ne v s (by simp))).symm
    · refine (pollsLeft_congr ?_ ?_).symm
      · rw [State.chn_setChn]
        split
        · rename_i e'; subst e'; rfl
        · rw [chn_rbPush]
      · rw [State.rb_setChn]
        exact rb_rbPush_ne v s (by simp)
  · rw [pollsLeft_exec_txReady h hen he ch]
    simp [eq_comm]
  · cases he; rfl

/-- Every instruction answers a next state (spec/60_exceptions.md R191). -/
theorem exec_answers_next (i : Instr) (s : State) : ∃ t, exec i s = .next t := by
  cases i <;> exact ⟨_, rfl⟩

/-- A port event as the next move: a poll needs one left, and any other event can be taken at any time (R85, R152). -/
theorem step_portEvent {s : State} {port : Port} {w : Word} {rest : List Move} (h : BlockInv s)
    (hm : s.moves = .event port w :: rest) (hpoll : ∀ ch, .event port w = txPoll ch → 0 < pollsLeft ch s) :
    ∃ t, step s = .next t ∧ PortEffect s t ∧
      ∀ ch, pollsLeft ch s ≤ pollsLeft ch t + if .event port w = txPoll ch then 1 else 0 := by
  by_cases hi : ∃ i, decodeEvent w = .ok i ∧ portOf i = some port
  · obtain ⟨i, hd, hp⟩ := hi
    have hpolled : ∀ ch, i = .txReady ch → .event port w = txPoll ch := by
      rintro ch rfl
      cases hp
      exact congrArg _ (eq_encode_of_decodeEvent_txReady hd)
    have hen : port.enabled s = true := by
      rcases portOf_eq_some_iff.mp hp with ⟨ch, v, rfl, rfl⟩ | ⟨ch, rfl, rfl⟩ | ⟨rfl, rfl⟩
      · rfl
      · have hleft := hpoll ch (hpolled ch rfl)
        by_contra ha
        simp [pollsLeft, show (s.chn ch).armed ≠ true from ha] at hleft
      · rfl
    have hstep := step_event hm hd hp hen
    obtain ⟨t, ht⟩ := exec_answers_next i { s with moves := rest }
    refine ⟨t, hstep.trans ht, ?_, fun ch => ?_⟩
    · have heffect := exec_event_portEffect (h.setMoves rest) hp ht
      exact ⟨heffect.fg, heffect.status, heffect.result, heffect.rx, heffect.channel⟩
    · have hcount : pollsLeft ch s = pollsLeft ch t + if i = .txReady ch then 1 else 0 :=
        pollsLeft_exec_event (h.setMoves rest) hp (by cases port <;> exact hen) ht ch
      rw [hcount]
      split
      · rename_i e; rw [if_pos (hpolled ch e)]
      · omega
  · push Not at hi
    exact ⟨_, step_event_ignored hm hi, ⟨rfl, rfl, rfl, .of_rb fun _ => rfl, fun _ => ⟨_, _, rfl⟩⟩, fun _ => Nat.le_add_right _ _⟩

/-! The extraction. -/

theorem rb_gfExtract_ne (ch : Ch) (s : State) {b : BufId} (h : b ≠ rxOf ch) : (gfExtract ch s).rb b = s.rb b := by
  rcases gfExtract_cases ch s with e | e | e | e <;> rw [e] <;>
    simp only [rb_gfFinish, storePayload, State.rb_setChn, State.rb_setRb_ne _ _ h]

/-- A filtered frame leaves a zero-length output and NoFrameAvailable (R162). -/
theorem gfFinish_filtered {ch : Ch} {n : Nat} {s : State} (hf : crFiltered ch n s = true) :
    ((gfFinish ch (.frame n) s).chn ch).frameLen = 0 ∧ (gfFinish ch (.frame n) s).frameByte ch 0 = 0x00 ∧
    (gfFinish ch (.frame n) s).status = 0x03 ∧ (gfFinish ch (.frame n) s).result = 0 := by
  have hlen : outputLen ch (.frame n) s = 0 := if_pos hf
  have hstatus : outputStatus ch (.frame n) s = .noFrameAvailable := if_pos hf
  refine ⟨?_, ?_, ?_, ?_⟩
  · rw [chn_gfFinish, hlen]; rfl
  · rw [State.frameByte, chn_gfFinish, hlen, get?_output]; rfl
  · rw [gfFinish_eq, hstatus]; rfl
  · rw [gfFinish_eq, hlen]; rfl

/-- Any other frame is the bytes stored, with its length, a 0x00 behind them and OK (R160). -/
theorem gfFinish_unfiltered {ch : Ch} {n : Nat} {s : State} (hf : ¬crFiltered ch n s = true) :
    ((gfFinish ch (.frame n) s).chn ch).frameLen = n ∧
    (∀ j < n, ((gfFinish ch (.frame n) s).chn ch).frameBuf.get? j = (s.chn ch).frameBuf.get? j) ∧
    (gfFinish ch (.frame n) s).frameByte ch n = 0x00 ∧
    (gfFinish ch (.frame n) s).status = 0x00 ∧ (gfFinish ch (.frame n) s).result = BitVec.ofNat 32 n := by
  have hlen : outputLen ch (.frame n) s = n := if_neg hf
  have hstatus : outputStatus ch (.frame n) s = .ok := if_neg hf
  refine ⟨?_, fun j hj => ?_, ?_, ?_, ?_⟩
  · rw [chn_gfFinish, hlen]; rfl
  · rw [chn_gfFinish, hlen, get?_output_lt _ hj]
  · rw [State.frameByte, chn_gfFinish, hlen, get?_output]; rfl
  · rw [gfFinish_eq, hstatus]; rfl
  · rw [gfFinish_eq, hlen]; rfl

/-- A CH_GETFRAME under way that has stored `done` and has `left` and then the terminator before it: RX holds those, `later` and what has
arrived (R159). -/
structure Extracting (ch : Ch) (done left later : List Byte) (s : State) : Prop where
  fg     : s.fg = .getFrame ch
  cursor : (s.chn ch).gfK = done.length
  stored : ∀ j < done.length, (s.chn ch).frameBuf.get? j = done[j]?
  bound  : done.length + left.length < (s.rb (rxOf ch)).cap
  queue  : ∃ arrived, s.queue (rxOf ch) = left ++ Config.term ch :: (later ++ arrived)

/-- A CH_GETFRAME that has returned the frame `pay`, or has discarded it as a single CR, with `later` and what has arrived left in RX
(R160, R162). -/
structure FrameReturned (ch : Ch) (pay later : List Byte) (s : State) : Prop where
  fg        : s.fg = .ready
  queue     : ∃ arrived, s.queue (rxOf ch) = later ++ arrived
  discarded : Config.filterCr ch = true ∧ pay = [0x0D] →
    (s.chn ch).frameLen = 0 ∧ s.frameByte ch 0 = 0x00 ∧ s.status = 0x03 ∧ s.result = 0
  kept      : ¬(Config.filterCr ch = true ∧ pay = [0x0D]) →
    (s.chn ch).frameLen = pay.length ∧ (∀ j (h : j < pay.length), s.frameByte ch j = pay[j]) ∧
    s.frameByte ch pay.length = 0x00 ∧ s.status = 0x00 ∧ s.result = BitVec.ofNat 32 pay.length

theorem Extracting.portEffect {ch : Ch} {done left later : List Byte} {s t : State} (h : Extracting ch done left later s)
    (he : PortEffect s t) : Extracting ch done left later t := by
  obtain ⟨hcap, bytes, hbytes⟩ := he.rx ch
  obtain ⟨p, a, hchn⟩ := he.channel ch
  obtain ⟨arrived, hq⟩ := h.queue
  constructor
  case fg => rw [he.fg, h.fg]
  case cursor => rw [hchn]; exact h.cursor
  case stored => rw [hchn]; exact h.stored
  case bound => rw [hcap]; exact h.bound
  case queue => exact ⟨arrived ++ bytes, by rw [hbytes, hq]; simp⟩

theorem FrameReturned.portEffect {ch : Ch} {pay later : List Byte} {s t : State} (h : FrameReturned ch pay later s)
    (he : PortEffect s t) : FrameReturned ch pay later t := by
  obtain ⟨-, bytes, hbytes⟩ := he.rx ch
  obtain ⟨p, a, hchn⟩ := he.channel ch
  obtain ⟨arrived, hq⟩ := h.queue
  have hlen : (t.chn ch).frameLen = (s.chn ch).frameLen := by rw [hchn]
  have hbyte (j : Nat) : t.frameByte ch j = s.frameByte ch j := frameByte_congr (by rw [hchn]) (by rw [hchn]) j
  constructor
  case fg => rw [he.fg, h.fg]
  case queue => exact ⟨arrived ++ bytes, by rw [hbytes, hq, List.append_assoc]⟩
  case discarded => simpa only [hlen, hbyte, he.status, he.result] using h.discarded
  case kept => simpa only [hlen, hbyte, he.status, he.result] using h.kept

section
variable {ch : Ch} {done left later : List Byte} {s : State}

/-- RX holds at least the terminator while a frame is extracted. -/
theorem Extracting.rx_ready (h : Extracting ch done left later s) (hinv : BlockInv s) :
    (s.rb (rxOf ch)).init = true ∧ (s.rb (rxOf ch)).count ≠ 0 := by
  obtain ⟨arrived, hq⟩ := h.queue
  refine ⟨((hinv.channels ch).extracting h.fg).1, fun hc => ?_⟩
  rw [queue_of_count_zero hc] at hq
  exact absurd hq.symm (by simp)

/-- An extraction step at a payload byte moves it from RX to the frame output (R159). -/
theorem Extracting.payload {v : Byte} (h : Extracting ch done (v :: left) later s) (hinv : BlockInv s) (hv : v ≠ Config.term ch) :
    Extracting ch (done ++ [v]) left later (gfExtract ch s) := by
  obtain ⟨hi, hc⟩ := h.rx_ready hinv
  obtain ⟨arrived, hq⟩ := h.queue
  obtain ⟨rfl, htail⟩ := List.cons.inj (hq.symm.trans (queue_popped (hinv.rings _) hi hc))
  have hb := h.bound
  rw [List.length_cons] at hb
  rw [gfExtract_payload hi hc hv (by rw [h.cursor]; omega)]
  constructor
  case fg => simpa [storePayload] using h.fg
  case cursor => simp [storePayload, h.cursor]
  case stored =>
    intro j hj
    rw [List.length_append, List.length_singleton] at hj
    simp only [storePayload, State.chn_setChn_same, Memory.get?_set, h.cursor]
    split
    · rename_i e; subst e; simp
    · rw [h.stored j (by omega), List.getElem?_append_left (by omega)]
  case bound =>
    simp only [storePayload, State.rb_setChn, State.rb_setRb_same, Ring.popped, List.length_append, List.length_singleton]
    omega
  case queue => exact ⟨arrived, (queue_congr (State.rb_setChn ..)).trans htail.symm⟩

/-- A state with the payload stored in its frame output reads it there. -/
theorem frameByte_of_stored {j : Nat} (hj : j < done.length) (h : (s.chn ch).frameBuf.get? j = done[j]?) :
    s.frameByte ch j = done[j] := by
  simp [State.frameByte, h, List.getElem?_eq_getElem hj]

/-- The CR filter applies exactly to the payload of one CR (R162). -/
theorem Extracting.crFiltered_iff (h : Extracting ch done left later s) :
    crFiltered ch done.length s = true ↔ Config.filterCr ch = true ∧ done = [0x0D] := by
  simp only [crFiltered, Bool.and_eq_true, decide_eq_true_eq, and_assoc, and_congr_right_iff]
  intro _
  constructor
  · rintro ⟨hlen, hcr⟩
    obtain ⟨v, rfl⟩ := List.length_eq_one_iff.mp hlen
    rw [frameByte_of_stored Nat.one_pos (h.stored 0 Nat.one_pos)] at hcr
    exact congrArg (fun v => [v]) hcr
  · rintro rfl
    exact ⟨rfl, frameByte_of_stored Nat.one_pos (h.stored 0 Nat.one_pos)⟩

/-- An extraction step at the terminator returns the frame (R159, R160, R162). -/
theorem Extracting.terminator (h : Extracting ch done [] later s) (hinv : BlockInv s) :
    FrameReturned ch done later (gfExtract ch s) := by
  obtain ⟨hi, hc⟩ := h.rx_ready hinv
  obtain ⟨arrived, hq⟩ := h.queue
  obtain ⟨hv, htail⟩ := List.cons.inj (hq.symm.trans (queue_popped (hinv.rings _) hi hc))
  have hfilter : crFiltered ch done.length (s.setRb (rxOf ch) (s.rb (rxOf ch)).popped) = true ↔
      Config.filterCr ch = true ∧ done = [0x0D] := by
    rw [← h.crFiltered_iff]
    simp [crFiltered]
  rw [gfExtract_terminator hi hc hv.symm, h.cursor]
  constructor
  case fg => simp
  case queue => exact ⟨arrived, (queue_congr (rb_gfFinish ..)).trans htail.symm⟩
  case discarded => exact fun hcr => gfFinish_filtered (hfilter.mpr hcr)
  case kept =>
    intro hcr
    obtain ⟨hlen, hbytes, hend, hstatus, hresult⟩ := gfFinish_unfiltered (fun hf => hcr (hfilter.mp hf))
    refine ⟨hlen, fun j hj => frameByte_of_stored hj ?_, hend, hstatus, hresult⟩
    rw [hbytes j hj, State.chn_setRb, h.stored j hj]

end

/-! The run. -/

/-- Where a CH_GETFRAME of the frame `pay` stands, by the number of extraction steps it still has to take. -/
inductive GetFrameProgress (ch : Ch) (pay later : List Byte) : Nat → State → Prop
  | extracting {done left : List Byte} {s : State} (hpay : done ++ left = pay) (h : Extracting ch done left later s) :
      GetFrameProgress ch pay later (left.length + 1) s
  | returned {s : State} (h : FrameReturned ch pay later s) : GetFrameProgress ch pay later 0 s

theorem GetFrameProgress.portEffect {ch : Ch} {pay later : List Byte} {k : Nat} {s t : State} (h : GetFrameProgress ch pay later k s)
    (he : PortEffect s t) : GetFrameProgress ch pay later k t := by
  cases h with
  | extracting hpay h => exact .extracting hpay (h.portEffect he)
  | returned h => exact .returned (h.portEffect he)

/-- FG's step brings the CH_GETFRAME one extraction step further and leaves the polls of every channel. -/
theorem step_fg_getFrameProgress {ch : Ch} {pay later : List Byte} {k : Nat} {s : State} {rest : List Move} (hinv : BlockInv s)
    (hterm : Config.term ch ∉ pay) (h : GetFrameProgress ch pay later (k + 1) s) (hm : s.moves = .fg :: rest) :
    ∃ t, step s = .next t ∧ GetFrameProgress ch pay later k t ∧ ∀ ch', pollsLeft ch' t = pollsLeft ch' s := by
  cases h with
  | @extracting done left _ hpay h =>
    have h' : Extracting ch done left later { s with moves := rest } := ⟨h.fg, h.cursor, h.stored, h.bound, h.queue⟩
    have hinv' := hinv.setMoves rest
    refine ⟨gfExtract ch { s with moves := rest }, ?_, ?_, fun ch' => ?_⟩
    · rw [step_fg hm, fgStep?_getFrame h'.fg]; rfl
    · cases left with
      | nil =>
        rw [List.append_nil] at hpay
        exact .returned (hpay ▸ h'.terminator hinv')
      | cons v left =>
        have hv : v ≠ Config.term ch := by
          rintro rfl
          exact hterm (by simp [← hpay])
        exact .extracting (by simpa using hpay) (h'.payload hinv' hv)
    · exact (pollsLeft_congr (armed_gfExtract ch ch' _) (rb_gfExtract_ne ch _ (by simp))).trans rfl

/-- Every mix of port events and as many extraction steps as are left, with no more polls than each channel can take, returns the frame:
by induction on the mix. -/
theorem run_getFrameProgress {ch : Ch} {pay later : List Byte} (hterm : Config.term ch ∉ pay) (rest ms : List Move) :
    ∀ {s : State}, BlockInv s → GetFrameProgress ch pay later (ms.count .fg) s → s.moves = ms ++ rest →
      (∀ m ∈ ms, m = .fg ∨ m.isPortEvent = true) → (∀ ch', ms.count (txPoll ch') ≤ pollsLeft ch' s) →
      ∃ t, core.run ms.length s = .next t ∧ t.moves = rest ∧ FrameReturned ch pay later t := by
  induction ms with
  | nil =>
    intro s _ h hm _ _
    cases h with
    | returned h => exact ⟨s, rfl, hm, h⟩
  | cons m ms ih =>
    intro s hinv h hm hmix hpolls
    obtain ⟨hfirst, hmix⟩ := List.forall_mem_cons.mp hmix
    have hstep : ∃ t, step s = .next t ∧ GetFrameProgress ch pay later (ms.count .fg) t ∧
        ∀ ch', ms.count (txPoll ch') ≤ pollsLeft ch' t := by
      cases m with
      | fg =>
        rw [List.count_cons_self] at h
        obtain ⟨t, hs, ht, hleft⟩ := step_fg_getFrameProgress hinv hterm h hm
        refine ⟨t, hs, ht, fun ch' => ?_⟩
        rw [hleft]
        exact List.count_le_count_cons.trans (hpolls ch')
      | event port w =>
        rw [List.count_cons_of_ne (by simp)] at h
        simp only [List.count_cons, beq_iff_eq] at hpolls
        obtain ⟨t, hs, heffect, hleft⟩ := step_portEvent hinv hm (fun ch' e => by
          have := hpolls ch'
          rw [if_pos e] at this
          omega)
        refine ⟨t, hs, h.portEffect heffect, fun ch' => ?_⟩
        have := hpolls ch'
        have := hleft ch'
        omega
      | command p => simp [Move.isPortEvent] at hfirst
      | seq => simp [Move.isPortEvent] at hfirst
    obtain ⟨t, hs, ht, hleft⟩ := hstep
    obtain ⟨u, hrun, hu⟩ := ih (everyStepKeepsTheInvariant s t hinv hs) ht (moves_takeMove ((step_cons hm).symm.trans hs)) hmix hleft
    exact ⟨u, (core_run_succ _ hs).trans hrun, hu⟩

/-! The issue. -/

/-- The state after the issue step of a CH_GETFRAME that begins an extraction (R158). -/
def frameBegun (ch : Ch) (s : State) : State := { s.setChn ch { s.chn ch with gfK := 0 } with fg := .getFrame ch }

theorem exec_chGetFrame_begins {ch : Ch} {s : State} (hi : (s.rb (rxOf ch)).init = true) (hp : (s.chn ch).pending ≠ 0) :
    exec (.chGetFrame ch) s = .next (frameBegun ch s) := by
  simp only [exec, execChGetFrame]
  rw [if_neg (by simp [hi]), if_neg hp, frameBegun]

theorem rb_frameBegun (ch : Ch) (s : State) (b : BufId) : (frameBegun ch s).rb b = s.rb b := s.rb_setChn ch _ b

theorem chn_frameBegun (ch : Ch) (s : State) : (frameBegun ch s).chn ch = { s.chn ch with gfK := 0 } := s.chn_setChn_same ch _

theorem moves_frameBegun (ch : Ch) (s : State) : (frameBegun ch s).moves = s.moves := s.setChn_moves ch _

theorem pollsLeft_frameBegun (ch ch' : Ch) (s : State) : pollsLeft ch' (frameBegun ch s) = pollsLeft ch' s := by
  refine pollsLeft_congr ?_ (rb_frameBegun ..)
  by_cases e : ch' = ch
  · subst e; rw [chn_frameBegun]
  · exact congrArg Channel.armed (s.chn_setChn_ne _ e)

/-- The extraction begins with nothing stored; a queue with a terminator in it is longer than what is before the terminator (R158). -/
theorem extracting_frameBegun {ch : Ch} {pay later : List Byte} {s : State} (hinv : BlockInv s) (hi : (s.rb (rxOf ch)).init = true)
    (hq : s.queue (rxOf ch) = pay ++ Config.term ch :: later) : Extracting ch [] pay later (frameBegun ch s) := by
  have hcount : (s.rb (rxOf ch)).count = pay.length + (later.length + 1) := by
    rw [← length_queue, hq, List.length_append, List.length_cons]
  have hcap := (hinv.rings (rxOf ch)).countRange hi
  constructor
  case fg => rfl
  case cursor => rw [chn_frameBegun]; rfl
  case stored => exact fun j hj => absurd hj (Nat.not_lt_zero j)
  case bound => rw [rb_frameBegun, List.length_nil]; omega
  case queue => exact ⟨[], by rw [List.append_nil, ← hq]; exact queue_congr (rb_frameBegun ..)⟩

theorem decodeCommand_encode_chGetFrame (ch : Ch) : decodeCommand (encode (.chGetFrame ch)) = .ok (.chGetFrame ch) := by
  cases ch <;> decide

/-- Settles O37: the issue step begins an extraction with nothing stored, and `run_getFrameProgress` takes it to its end. -/
theorem getFrameReturnsTheFirstFrameUnderEveryInterleaving :
    Obligations.GetFrameReturnsTheFirstFrameUnderEveryInterleaving := by
  intro s ch pay later ms rest hinv hf hseq hp hq hterm hm hmix hfg hpolls
  have hi : (s.rb (rxOf ch)).init = true := (hinv.rings (rxOf ch)).init_of_count_ne_zero fun hc => by
    rw [queue_of_count_zero hc] at hq
    exact absurd hq.symm (by simp)
  have hstep : step s = .next (frameBegun ch { s with moves := ms ++ rest }) :=
    (step_command hm ((mayIssue_iff s).mpr ⟨hf, hseq⟩) (decodeCommand_encode_chGetFrame ch)).trans (exec_chGetFrame_begins hi hp)
  have hbegun := GetFrameProgress.extracting rfl (extracting_frameBegun (hinv.setMoves (ms ++ rest)) hi hq)
  rw [← hfg] at hbegun
  obtain ⟨t, hrun, ht, hreturned⟩ := run_getFrameProgress hterm rest ms (everyStepKeepsTheInvariant s _ hinv hstep) hbegun
    (moves_frameBegun ..) hmix (fun ch' => (hpolls ch').trans_eq (pollsLeft_frameBegun ch ch' { s with moves := ms ++ rest }).symm)
  exact ⟨t, (core_run_succ _ hstep).trans hrun, ht, hreturned.fg, hreturned.queue, hreturned.discarded, hreturned.kept⟩

end Sys2Proof.Machine

/-! The encoding (spec/30_encoding.md R80 to R87): what the two ports decode, row by row; the fields of an encoded word; and that an
instruction fixes its word, from which the two round trips follow. -/

namespace Sys2Proof

/-! What the two ports decode. -/

/-- The `OP` field chooses the row that the masked word matches, so the row's read alone says what decodes (R86). -/
theorem Opcode.chosen_read_iff_match {o : Opcode} {p : Packet} {i : Instr} {onPort : Prop} :
    (o.code = opField p.cmd ∧ onPort ∧ o.read p = .ok i) ↔ onPort ∧ p.cmd &&& o.mask = o.pattern ∧ i = o.instr p := by
  rw [Opcode.read_eq_ok]
  constructor
  · rintro ⟨-, hport, hm, hi⟩
    exact ⟨hport, hm, hi⟩
  · rintro ⟨hport, hm, hi⟩
    exact ⟨(Opcode.opField_of_match hm).symm, hport, hm, hi⟩

/-- R86 on the command port. -/
theorem decodeCommand_eq_ok_iff_match {p : Packet} {i : Instr} :
    decodeCommand p = .ok i ↔ ∃ o : Opcode, o.isEvent = false ∧ p.cmd &&& o.mask = o.pattern ∧ i = o.instr p :=
  decodeCommand_eq_ok.trans (exists_congr fun _ => Opcode.chosen_read_iff_match)

/-- R86 on the transport and tick ports. -/
theorem decodeEvent_eq_ok_iff_match {w : Word} {i : Instr} :
    decodeEvent w = .ok i ↔ ∃ o : Opcode, o.isEvent = true ∧ w &&& o.mask = o.pattern ∧ i = o.instr ⟨w, 0, 0⟩ :=
  decodeEvent_eq_ok.trans (exists_congr fun _ => Opcode.chosen_read_iff_match (p := ⟨w, 0, 0⟩))

/-- A command word that matches no command row decodes to no instruction (R87). -/
theorem decodeCommand_ne_ok {p : Packet} (h : ∀ o ∈ Opcode.all, o.isEvent = false → p.cmd &&& o.mask ≠ o.pattern) (i : Instr) :
    decodeCommand p ≠ .ok i := by
  rw [Ne, decodeCommand_eq_ok_iff_match]
  rintro ⟨o, he, hm, -⟩
  exact h o o.mem_all he hm

/-- An event word that matches no event row decodes to no instruction (R87). -/
theorem decodeEvent_ne_ok {w : Word} (h : ∀ o ∈ Opcode.all, o.isEvent = true → w &&& o.mask ≠ o.pattern) (i : Instr) :
    decodeEvent w ≠ .ok i := by
  rw [Ne, decodeEvent_eq_ok_iff_match]
  rintro ⟨o, he, hm, -⟩
  exact h o o.mem_all he hm

/-- A word matches one row at most: its `OP` field is the row's code (R86). -/
theorem Opcode.eq_of_match {w : Word} {o o' : Opcode} (h : w &&& o.mask = o.pattern) (h' : w &&& o'.mask = o'.pattern) :
    o = o' :=
  Opcode.code_injective ((Opcode.opField_of_match h).symm.trans (Opcode.opField_of_match h'))

/-! The fields of an encoded word (R81). -/

@[simp] theorem chField_packWord (o : Opcode) (ch : Ch) (buf : BitVec 1) (data tid : Byte) :
    chField (packWord o ch.bit buf data tid) = ch := by
  unfold chField
  rw [getLsbD_packWord]
  cases ch <;> rfl

@[simp] theorem bufField_packWord (o : Opcode) (ch : BitVec 1) (buf : Buf) (data tid : Byte) :
    bufField (packWord o ch buf.bit data tid) = buf := by
  unfold bufField
  rw [getLsbD_packWord]
  cases buf <;> rfl

@[simp] theorem bufIdField_packWord (o : Opcode) (b : BufId) (data tid : Byte) :
    bufIdField (packWord o b.ch.bit b.buf.bit data tid) = b := by
  unfold bufIdField
  rw [chField_packWord, bufField_packWord]

@[simp] theorem dataField_packWord (o : Opcode) (ch buf : BitVec 1) (data tid : Byte) :
    dataField (packWord o ch buf data tid) = data := by
  refine BitVec.eq_of_getLsbD_eq fun j hj => ?_
  have hbit : (packWord o ch buf data tid).getLsbD (16 + j) = data.getLsbD j := by
    rw [getLsbD_packWord, if_neg (by omega), if_neg (by omega), if_neg (by omega), if_neg (by omega), if_pos (by omega),
      Nat.add_sub_cancel_left]
  simp [dataField, hj, hbit]

theorem cbField_packWord (o : Opcode) (ch buf : BitVec 1) (cb : Bool) (tid : Byte) :
    cbField (packWord o ch buf (if cb then 1 else 0) tid) = cb := by
  unfold cbField
  rw [getLsbD_packWord]
  cases cb <;> rfl

theorem tidField_packWord (o : Opcode) (ch buf : BitVec 1) (data tid : Byte) :
    tidField (packWord o ch buf data tid) = tid.toNat := by
  refine congrArg BitVec.toNat (BitVec.eq_of_getLsbD_eq fun j hj => ?_)
  have hbit : (packWord o ch buf data tid).getLsbD (24 + j) = tid.getLsbD j := by
    rw [getLsbD_packWord, if_neg (by omega), if_neg (by omega), if_neg (by omega), if_neg (by omega), if_neg (by omega),
      Nat.add_sub_cancel_left]
  simp [hj, hbit]

/-- A timer id that fits the `TID` field comes back from it (R82). -/
theorem tidField_packWord_ofNat {id : Nat} (h : timerIdFits id = true) (o : Opcode) :
    tidField (packWord o 0 0 0 (BitVec.ofNat 8 id)) = id := by
  rw [tidField_packWord, BitVec.toNat_ofNat]
  exact Nat.mod_eq_of_lt (of_decide_eq_true h)

/-! Decode after encode. -/

/-- The word of an instruction matches the instruction's row: the lemmas of `RowMatches` together. -/
theorem encode_matches (i : Instr) : (encode i).cmd &&& i.opcode.mask = i.opcode.pattern :=
  match i with
  | .rbInit b cap => Laws.RowMatches.rbInit b cap
  | .rbPush b v => Laws.RowMatches.rbPush b v
  | .rbPop b => Laws.RowMatches.rbPop b
  | .rbIsEmpty b => Laws.RowMatches.rbIsEmpty b
  | .tmrRegister period cb => Laws.RowMatches.tmrRegister period cb
  | .tmrStart id => Laws.RowMatches.tmrStart id
  | .tmrPause id => Laws.RowMatches.tmrPause id
  | .tmrResume id => Laws.RowMatches.tmrResume id
  | .tmrAdvance elapsed => Laws.RowMatches.tmrAdvance elapsed
  | .tmrElapsed start threshold => Laws.RowMatches.tmrElapsed start threshold
  | .tickRead => Laws.RowMatches.tickRead
  | .tickDelta cur prev => Laws.RowMatches.tickDelta cur prev
  | .cbDone => Laws.RowMatches.cbDone
  | .chInit ch cap => Laws.RowMatches.chInit ch cap
  | .chSend ch v => Laws.RowMatches.chSend ch v
  | .chRecv ch => Laws.RowMatches.chRecv ch
  | .chGetFrame ch => Laws.RowMatches.chGetFrame ch
  | .chPending ch => Laws.RowMatches.chPending ch
  | .rxByte ch v => Laws.RowMatches.rxByte ch v
  | .txReady ch => Laws.RowMatches.txReady ch
  | .tick => Laws.RowMatches.tick

/-- The packet of a well-formed instruction, read by the instruction's row, gives each operand back (R82, R83). -/
theorem instr_encode {i : Instr} (h : i.wellFormed = true) : i.opcode.instr (encode i) = i := by
  cases i with
  | tmrRegister period cb => exact congrArg (Instr.tmrRegister period) (cbField_packWord ..)
  | tmrStart id => exact congrArg Instr.tmrStart (tidField_packWord_ofNat h _)
  | tmrPause id => exact congrArg Instr.tmrPause (tidField_packWord_ofNat h _)
  | tmrResume id => exact congrArg Instr.tmrResume (tidField_packWord_ofNat h _)
  | tmrAdvance | tmrElapsed | tickRead | tickDelta | cbDone | tick => rfl
  | rbInit | rbPush | rbPop | rbIsEmpty | chInit | chSend | chRecv | chGetFrame | chPending | rxByte | txReady =>
    simp [Instr.opcode, encode, Opcode.instr]

/-- An event has no operand words (R83, R85). -/
theorem encode_of_isEvent {i : Instr} (h : i.opcode.isEvent = true) : encode i = ⟨(encode i).cmd, 0, 0⟩ := by
  cases i with
  | rxByte | txReady | tick => rfl
  | _ => cases h

/-- Settles O2: the packet matches the instruction's row (`encode_matches`), and that row reads the instruction from it
(`instr_encode`). -/
theorem decodeOfEncodeIsTheInstruction : Obligations.DecodeOfEncodeIsTheInstruction := by
  intro i hwf
  unfold decodeFor
  split
  case isTrue he =>
    refine decodeEvent_eq_ok_iff_match.mpr ⟨i.opcode, he, encode_matches i, ?_⟩
    rw [← encode_of_isEvent he, instr_encode hwf]
  case isFalse he =>
    exact decodeCommand_eq_ok_iff_match.mpr
      ⟨i.opcode, Bool.eq_false_iff.mpr he, encode_matches i, (instr_encode hwf).symm⟩

/-! Encode after decode: the bits a row's mask leaves free are the operand fields of the row, so the instruction fixes them. -/

theorem chField_eq_modem_iff (w : Word) : chField w = .modem ↔ w.getLsbD 8 = true := by
  unfold chField
  cases w.getLsbD 8 <;> decide

theorem bufField_eq_tx_iff (w : Word) : bufField w = .tx ↔ w.getLsbD 9 = true := by
  unfold bufField
  cases w.getLsbD 9 <;> decide

theorem getLsbD_eq_of_chField_eq {w w' : Word} (h : chField w = chField w') : w.getLsbD 8 = w'.getLsbD 8 := by
  rw [Bool.eq_iff_iff, ← chField_eq_modem_iff, ← chField_eq_modem_iff, h]

theorem getLsbD_eq_of_bufField_eq {w w' : Word} (h : bufField w = bufField w') : w.getLsbD 9 = w'.getLsbD 9 := by
  rw [Bool.eq_iff_iff, ← bufField_eq_tx_iff, ← bufField_eq_tx_iff, h]

theorem getLsbD_eq_of_dataField_eq {w w' : Word} (h : dataField w = dataField w') {j : Nat} (hj : 16 ≤ j ∧ j < 24) :
    w.getLsbD j = w'.getLsbD j := by
  have hbit := congrArg (BitVec.getLsbD · (j - 16)) h
  simpa [dataField, show j - 16 < 8 by omega, show 16 + (j - 16) = j by omega] using hbit

theorem getLsbD_eq_of_tidField_eq {w w' : Word} (h : tidField w = tidField w') {j : Nat} (hj : 24 ≤ j ∧ j < 32) :
    w.getLsbD j = w'.getLsbD j := by
  have hbit := congrArg (BitVec.getLsbD · (j - 24)) (BitVec.eq_of_toNat_eq h)
  simpa [show j - 24 < 8 by omega, show 24 + (j - 24) = j by omega] using hbit

/-- Words that agree under a mask and on the bits the mask leaves free are equal. -/
theorem eq_of_and_mask_eq {w w' m : Word} (h : w &&& m = w' &&& m)
    (hfree : ∀ j < 32, m.getLsbD j = false → w.getLsbD j = w'.getLsbD j) : w = w' := by
  refine BitVec.eq_of_getLsbD_eq fun j hj => ?_
  cases hm : m.getLsbD j with
  | false => exact hfree j hj hm
  | true =>
    have hbit := congrArg (BitVec.getLsbD · j) h
    simpa [hm] using hbit

/-- The operand bits of the command or event word are those of the instruction: R82's fields, row by row. -/
theorem Opcode.getLsbD_eq_of_instr_eq {o : Opcode} {p q : Packet} (h : o.instr p = o.instr q) {j : Nat} (hj : j < 32)
    (hfree : o.mask.getLsbD j = false) : p.cmd.getLsbD j = q.cmd.getLsbD j := by
  cases o with
  | rbInit | rbPop | rbIsEmpty =>
    have hb : bufIdField p.cmd = bufIdField q.cmd := by injection h
    obtain rfl | rfl : j = 8 ∨ j = 9 := by revert j; decide
    · exact getLsbD_eq_of_chField_eq (congrArg BufId.ch hb)
    · exact getLsbD_eq_of_bufField_eq (congrArg BufId.buf hb)
  | rbPush =>
    injection h with hb hv
    obtain rfl | rfl | hdata : j = 8 ∨ j = 9 ∨ (16 ≤ j ∧ j < 24) := by revert j; decide
    · exact getLsbD_eq_of_chField_eq (congrArg BufId.ch hb)
    · exact getLsbD_eq_of_bufField_eq (congrArg BufId.buf hb)
    · exact getLsbD_eq_of_dataField_eq hv hdata
  | tmrRegister =>
    injection h with _ hcb
    obtain rfl : j = 16 := by revert j; decide
    exact hcb
  | tmrStart | tmrPause | tmrResume =>
    injection h with hid
    have htid : 24 ≤ j := by revert j; decide
    exact getLsbD_eq_of_tidField_eq hid ⟨htid, hj⟩
  | tmrAdvance | tmrElapsed | tickRead | tickDelta | cbDone | tick =>
    exact absurd hfree (by revert j; decide)
  | chInit | chRecv | chGetFrame | chPending | txReady =>
    have hch : chField p.cmd = chField q.cmd := by injection h
    obtain rfl : j = 8 := by revert j; decide
    exact getLsbD_eq_of_chField_eq hch
  | chSend | rxByte =>
    injection h with hch hv
    obtain rfl | hdata : j = 8 ∨ (16 ≤ j ∧ j < 24) := by revert j; decide
    · exact getLsbD_eq_of_chField_eq hch
    · exact getLsbD_eq_of_dataField_eq hv hdata

/-- Two words of one row that stand for one instruction are the same word. -/
theorem Opcode.cmd_eq_of_instr_eq {o : Opcode} {p q : Packet} (hp : p.cmd &&& o.mask = o.pattern)
    (hq : q.cmd &&& o.mask = o.pattern) (h : o.instr p = o.instr q) : p.cmd = q.cmd :=
  eq_of_and_mask_eq (hp.trans hq.symm) fun _ hj hfree => Opcode.getLsbD_eq_of_instr_eq h hj hfree

/-- What a row reads from a packet is well-formed: a timer id comes from an 8-bit field (R82). -/
theorem Opcode.wellFormed_instr (o : Opcode) (p : Packet) : (o.instr p).wellFormed = true := by
  cases o with
  | tmrStart | tmrPause | tmrResume => exact decide_eq_true (p.cmd.extractLsb' 24 8).isLt
  | _ => rfl

/-- A word that matches a row is the encoded word of the instruction the row reads from it: both match the row, and both stand for
that instruction (`instr_encode`). -/
theorem cmd_encode_instr {o : Opcode} {p : Packet} (h : p.cmd &&& o.mask = o.pattern) : (encode (o.instr p)).cmd = p.cmd := by
  have hmatch := encode_matches (o.instr p)
  have hinstr := instr_encode (o.wellFormed_instr p)
  rw [Opcode.opcode_instr] at hmatch hinstr
  exact Opcode.cmd_eq_of_instr_eq hmatch h hinstr

/-- Settles O3: the row the word matches reads a well-formed instruction of that row, whose word is `cmd_encode_instr`. -/
theorem encodeOfDecodeIsTheWord : Obligations.EncodeOfDecodeIsTheWord := by
  refine ⟨?command, ?event⟩
  case command =>
    intro p i hd
    obtain ⟨o, he, hm, rfl⟩ := decodeCommand_eq_ok_iff_match.mp hd
    exact ⟨o.wellFormed_instr p, by rw [Opcode.opcode_instr, he], cmd_encode_instr hm⟩
  case event =>
    intro w i hd
    obtain ⟨o, he, hm, rfl⟩ := decodeEvent_eq_ok_iff_match.mp hd
    have hevent : (o.instr ⟨w, 0, 0⟩).opcode.isEvent = true := by rw [Opcode.opcode_instr, he]
    refine ⟨o.wellFormed_instr _, hevent, ?_⟩
    rw [encode_of_isEvent hevent, cmd_encode_instr hm]

/-! The rows and the words that match none. -/

/-- Settles O4: the two ports by what they decode, uniqueness by the `OP` field, and the table row by row. -/
theorem wordDecodesAsRowIffMaskedWordMatches : Obligations.WordDecodesAsRowIffMaskedWordMatches :=
  ⟨fun _ _ => decodeCommand_eq_ok_iff_match, fun _ _ => decodeEvent_eq_ok_iff_match, fun _ _ _ => Opcode.eq_of_match,
    by decide⟩

/-- The words of ENC-2 to ENC-9 and ENC-12 match no command row. -/
theorem illegal_words_match_no_row :
    ∀ w ∈ [0x00000402, 0x01000002, 0x00000005, 0x000000E0, 0x00020010, 0x00000111, 0x00000223, 0x00010014, 0x00000000],
      ∀ o ∈ Opcode.all, o.isEvent = false → BitVec.ofNat 32 w &&& o.mask ≠ o.pattern := by decide

/-- Settles O1: the decoder evaluates on each legal word, and each illegal word matches no row, whatever A and B are. -/
theorem writtenWordsDecodeToTheirInstructions : Obligations.WrittenWordsDecodeToTheirInstructions :=
  ⟨by decide, fun w hw _ _ => decodeCommand_ne_ok (illegal_words_match_no_row w hw), decodeEvent_ne_ok (by decide)⟩

/-- Settles O9: a word that matches no event row decodes to no event, so `step_event_ignored` takes the move off on any port. -/
theorem unmatchedEventWordIsIgnored : Obligations.UnmatchedEventWordIsIgnored := by
  intro s port w rest hm hno
  exact Machine.step_event_ignored hm fun i hd => absurd hd (decodeEvent_ne_ok (fun o _ => hno o) i)

end Sys2Proof

/-! The ring buffer commands (spec/40_ringbuffer.md R100 to R106): each outcome as a whole state, what the commands leave unchanged, and
the FIFO law. -/

namespace Sys2Proof.Machine

/-! The outcomes. -/

/-- A response writes STATUS and RESULT and appends its event (R16). -/
theorem respond_eq (op : Byte) (st : Status) (r : Word) (s : State) :
    respond op st r s = { s with status := st.code, result := r, trace := s.trace ++ [.resp op st r] } := rfl

/-- A response after a buffer was written, with the trace that stood before. -/
theorem respond_setRb (op : Byte) (st : Status) (res : Word) (s : State) (b : BufId) (r : Ring) :
    respond op st res (s.setRb b r) =
      { s.setRb b r with status := st.code, result := res, trace := s.trace ++ [.resp op st res] } := by
  rw [respond_eq, State.setRb_trace]

theorem exec_rbInit (b : BufId) (c : Word) (s : State) :
    exec (.rbInit b c) s = .next (respond Opcode.rbInit.code (rbInit b c s).1 0 (rbInit b c s).2) := rfl

theorem exec_rbIsEmpty_notInitialized {b : BufId} {s : State} (hi : (s.rb b).init = false) :
    exec (.rbIsEmpty b) s = .next (respond Opcode.rbIsEmpty.code .notInitialized 0 s) :=
  congrArg Host.Outcome.next (if_pos hi)

theorem exec_rbIsEmpty_initialized {b : BufId} {s : State} (hi : (s.rb b).init = true) :
    exec (.rbIsEmpty b) s = .next (respond Opcode.rbIsEmpty.code .ok (boolResult (s.rb b).isEmpty) s) :=
  congrArg Host.Outcome.next (if_neg (by simp [hi]))

theorem Ring.isEmpty_iff (r : Ring) : r.isEmpty = true ↔ r.count = 0 := decide_eq_true_iff

theorem Ring.isFull_iff (r : Ring) : r.isFull = true ↔ r.count = r.cap := decide_eq_true_iff

/-- Settles O10: the two outcomes of `RbInit`, each with its response. -/
theorem rbInitResult : Obligations.RbInitResult := by
  intro b c s
  constructor
  · intro hc
    rw [exec_rbInit, rbInit_illegal s hc]
    rfl
  · rintro ⟨h0, h1⟩
    rw [exec_rbInit, rbInit_legal s h0 h1, respond_setRb]
    rfl

/-- Settles O11: the three outcomes of `RbPush`; the byte read back at the old head is the one stored there (`storeByte_pushed`). -/
theorem rbPushResult : Obligations.RbPushResult := by
  intro b v s
  refine ⟨?notInitialized, ?full, ?admitted⟩
  case notInitialized =>
    intro hi
    rw [exec_rbPush, rbPush_notInitialized v hi]
    rfl
  case full =>
    intro hi hc
    rw [exec_rbPush, rbPush_full v hi hc]
    rfl
  case admitted =>
    intro hi hc
    refine ⟨_, exec_rbPush b v s, ?_⟩
    rw [rbPush_ok v hi hc]
    refine ⟨?byte, ?head, ?count, rfl, rfl, ?trace⟩
    case byte => rw [storeByte_respond, storeByte_pushed, if_pos ⟨rfl, rfl⟩]
    case head => rw [rb_respond, State.rb_setRb_same]; rfl
    case count => rw [rb_respond, State.rb_setRb_same]; rfl
    case trace => rw [respond_trace, State.setRb_trace]; rfl

/-- Settles O12: the three outcomes of `RbPop`, each with its response. -/
theorem rbPopResult : Obligations.RbPopResult := by
  intro b s
  refine ⟨?notInitialized, ?empty, ?popped⟩
  case notInitialized =>
    intro hi
    rw [exec_rbPop, rbPop_notInitialized hi]
    rfl
  case empty =>
    intro hi hc
    rw [exec_rbPop, rbPop_empty hi hc]
    rfl
  case popped =>
    intro hi hc
    rw [exec_rbPop, rbPop_ok hi hc, respond_setRb]
    rfl

/-- Settles O13: on an initialized buffer the result is the truth value of count = 0. -/
theorem rbIsEmptyResult : Obligations.RbIsEmptyResult := by
  intro b s
  refine ⟨exec_rbIsEmpty_notInitialized, ?empty, ?holdsBytes⟩
  case empty =>
    intro hi hc
    rw [exec_rbIsEmpty_initialized hi, (s.rb b).isEmpty_iff.mpr hc]
    rfl
  case holdsBytes =>
    intro hi hc
    have he : (s.rb b).isEmpty = false := Bool.eq_false_iff.mpr (mt (s.rb b).isEmpty_iff.mp hc)
    rw [exec_rbIsEmpty_initialized hi, he]
    rfl

/-! The frame. -/

/-- RB_INIT, RB_PUSH and RB_POP write their one buffer and respond, and that is all. -/
theorem exec_ringCommand_eq_respond_setRb {b : BufId} {i : Instr} {s t : State}
    (hi : (∃ c, i = .rbInit b c) ∨ (∃ v, i = .rbPush b v) ∨ i = .rbPop b) (he : exec i s = .next t) :
    ∃ op st res r, t = respond op st res (s.setRb b r) := by
  rcases hi with ⟨c, rfl⟩ | ⟨v, rfl⟩ | rfl <;> cases he
  · obtain ⟨r, e⟩ := rbInit_eq_setRb b c s
    exact ⟨_, _, _, r, congrArg _ e⟩
  · obtain ⟨r, e⟩ := rbPush_eq_setRb b v s
    exact ⟨_, _, _, r, congrArg _ e⟩
  · obtain ⟨r, e⟩ := rbPop_eq_setRb b s
    exact ⟨_, _, _, r, congrArg _ e⟩

/-- `RbInit` writes no byte of storage (R100). -/
theorem sameStorage_rbInit (b : BufId) (c : Word) (s : State) : SameStorage s (rbInit b c s).2 := by
  intro b' j
  rcases rbInit_cases b c s with ⟨-, e⟩ | ⟨-, -, e⟩ <;> rw [e]
  refine storeByte_congr ?_ j
  rw [State.rb_setRb]
  split
  · rename_i hb; rw [hb]
  · rfl

theorem sameStorage_rbPop (b : BufId) (s : State) : SameStorage s (rbPop b s).2.2 := by
  intro b' j
  rcases rbPop_cases b s with ⟨-, e⟩ | ⟨-, -, e⟩ | ⟨-, -, e⟩ <;> rw [e]
  exact storeByte_popped s b b' j

/-- A push writes no byte but the one at the head of its buffer, and that one only where it is admitted (R101). -/
theorem storeByte_rbPush {b b' : BufId} {j : Nat} (v : Byte) {s : State}
    (h : ¬(b' = b ∧ j = (s.rb b).head ∧ (s.rb b).init = true ∧ (s.rb b).count ≠ (s.rb b).cap)) :
    (rbPush b v s).2.storeByte b' j = s.storeByte b' j := by
  rcases rbPush_cases b v s with ⟨-, e⟩ | ⟨-, -, e⟩ | ⟨hi, hc, e⟩ <;> rw [e]
  rw [storeByte_pushed, if_neg]
  rintro ⟨hb, hj⟩
  exact h ⟨hb, hj, hi, hc⟩

/-- A push moves neither the capacity nor the tail of its buffer (R101). -/
theorem rbPush_keeps_init_cap_tail (b : BufId) (v : Byte) (s : State) :
    ((rbPush b v s).2.rb b).init = (s.rb b).init ∧ ((rbPush b v s).2.rb b).cap = (s.rb b).cap ∧
    ((rbPush b v s).2.rb b).tail = (s.rb b).tail := by
  rcases rbPush_cases b v s with ⟨-, e⟩ | ⟨-, -, e⟩ | ⟨-, -, e⟩ <;> rw [e]
  · exact ⟨rfl, rfl, rfl⟩
  · exact ⟨rfl, rfl, rfl⟩
  · rw [State.rb_setRb_same]
    exact ⟨rfl, rfl, rfl⟩

/-- A pop moves neither the capacity nor the head of its buffer (R102). -/
theorem rbPop_keeps_init_cap_head (b : BufId) (s : State) :
    ((rbPop b s).2.2.rb b).init = (s.rb b).init ∧ ((rbPop b s).2.2.rb b).cap = (s.rb b).cap ∧
    ((rbPop b s).2.2.rb b).head = (s.rb b).head := by
  rcases rbPop_cases b s with ⟨-, e⟩ | ⟨-, -, e⟩ | ⟨-, -, e⟩ <;> rw [e]
  · exact ⟨rfl, rfl, rfl⟩
  · exact ⟨rfl, rfl, rfl⟩
  · rw [State.rb_setRb_same]
    exact ⟨rfl, rfl, rfl⟩

/-- Settles O16: what lies outside buffer b by `exec_ringCommand_eq_respond_setRb`, its descriptor and the storage by what each
subroutine leaves of them. -/
theorem ringCommandFrame : Obligations.RingCommandFrame := by
  intro b i s t hi he
  obtain ⟨op, st, res, r, ht⟩ := exec_ringCommand_eq_respond_setRb hi he
  refine ⟨?rings, ?channels, ?timers, ?tick, ?fg, ?moves, ?frameBytes, ?push, ?pop, ?storage⟩
  case rings => intro b' hb; rw [ht, rb_respond, s.rb_setRb_ne r hb]
  case channels => intro ch; rw [ht, chn_respond, State.chn_setRb]
  case timers => rw [ht]; exact ⟨s.setRb_tcount b r, s.setRb_slots b r, s.setRb_seq b r⟩
  case tick => rw [ht, respond_tick, State.setRb_tick]
  case fg => rw [ht, respond_fg, State.setRb_fg]
  case moves => rw [ht, respond_moves, State.setRb_moves]
  case frameBytes => intro ch j; rw [ht, frameByte_respond, frameByte_setRb]
  case push =>
    rintro v rfl
    obtain rfl := Host.Outcome.next.inj ((exec_rbPush b v s).symm.trans he)
    obtain ⟨hinit, hcap, htail⟩ := rbPush_keeps_init_cap_tail b v s
    exact ⟨hinit, hcap, htail, fun b' j hj => storeByte_rbPush v hj⟩
  case pop =>
    rintro rfl
    obtain rfl := Host.Outcome.next.inj ((exec_rbPop b s).symm.trans he)
    exact rbPop_keeps_init_cap_head b s
  case storage =>
    intro hpush
    rcases hi with ⟨c, rfl⟩ | ⟨v, rfl⟩ | rfl
    · cases he; exact sameStorage_rbInit b c s
    · exact absurd rfl (hpush v)
    · cases he; exact sameStorage_rbPop b s

/-! The FIFO law (R103). -/

theorem runRbOps_push_ok {b : BufId} {v : Byte} {s t : State} (ops : List RbOp) (h : rbPush b v s = (.ok, t)) :
    runRbOps b (.push v :: ops) s =
      { runRbOps b ops t with accepted := v :: (runRbOps b ops t).accepted } := by
  simp only [runRbOps, h]

theorem runRbOps_push_full {b : BufId} {v : Byte} {s t : State} (ops : List RbOp) (h : rbPush b v s = (.full, t)) :
    runRbOps b (.push v :: ops) s = runRbOps b ops t := by
  simp only [runRbOps, h]

theorem runRbOps_pop_some {b : BufId} {st : Status} {v : Byte} {s t : State} (ops : List RbOp)
    (h : rbPop b s = (st, some v, t)) :
    runRbOps b (.pop :: ops) s = { runRbOps b ops t with returned := v :: (runRbOps b ops t).returned } := by
  simp only [runRbOps, h]

theorem runRbOps_pop_none {b : BufId} {st : Status} {s t : State} (ops : List RbOp) (h : rbPop b s = (st, none, t)) :
    runRbOps b (.pop :: ops) s = runRbOps b ops t := by
  simp only [runRbOps, h]

/-- Pushes and pops leave the buffer initialized, and what was held and then admitted is what was returned and then is left. -/
theorem queue_append_accepted {b : BufId} {size : Nat} (ops : List RbOp) {s : State} (h : RingInv size (s.rb b))
    (hi : (s.rb b).init = true) :
    ((runRbOps b ops s).final.rb b).init = true ∧
    s.queue b ++ (runRbOps b ops s).accepted = (runRbOps b ops s).returned ++ (runRbOps b ops s).final.queue b := by
  induction ops generalizing s with
  | nil => exact ⟨hi, List.append_nil _⟩
  | cons op ops ih =>
    cases op with
    | push v =>
      by_cases hc : (s.rb b).count = (s.rb b).cap
      · rw [runRbOps_push_full ops (rbPush_full v hi hc)]
        exact ih h hi
      · have hpushed : (s.setRb b ((s.rb b).pushed v)).rb b = (s.rb b).pushed v := s.rb_setRb_same b _
        obtain ⟨hinit, hqueue⟩ := ih (by rw [hpushed]; exact h.pushed v hi hc) (by rw [hpushed]; exact hi)
        rw [queue_pushed v h hi hc, List.append_assoc] at hqueue
        rw [runRbOps_push_ok ops (rbPush_ok v hi hc)]
        exact ⟨hinit, hqueue⟩
    | pop =>
      by_cases hc : (s.rb b).count = 0
      · rw [runRbOps_pop_none ops (rbPop_empty hi hc)]
        exact ih h hi
      · have hpopped : (s.setRb b (s.rb b).popped).rb b = (s.rb b).popped := s.rb_setRb_same b _
        obtain ⟨hinit, hqueue⟩ := ih (by rw [hpopped]; exact h.popped hi hc) (by rw [hpopped]; exact hi)
        rw [runRbOps_pop_some ops (rbPop_ok hi hc), queue_popped h hi hc]
        exact ⟨hinit, congrArg (List.cons _) hqueue⟩

/-- Settles O15: the law is `queue_append_accepted`; the lengths of its two sides say when the buffer is empty at the end. -/
theorem ringBufferIsFifo : Obligations.RingBufferIsFifo := by
  intro b s ops h hi
  obtain ⟨hinit, hqueue⟩ := queue_append_accepted ops h hi
  refine ⟨hqueue, ?emptyIff, ?full, ?empty⟩
  case emptyIff =>
    intro hnil
    have hlen := congrArg List.length hqueue
    rw [hnil, List.nil_append, List.length_append, length_queue] at hlen
    rw [Ring.isEmpty_iff]
    omega
  case full => intro hf v; exact rbPush_full v hinit ((Ring.isFull_iff _).mp hf)
  case empty => intro he; exact rbPop_empty hinit ((Ring.isEmpty_iff _).mp he)

end Sys2Proof.Machine

/-! The timer unit's instructions and SEQ's steps (spec/41_softtimer.md R120 to R134): each outcome as a whole state. -/

namespace Sys2Proof.Machine

/-! The commands on the timer table. -/

theorem exec_tmrRegister_full {s : State} (h : s.tcount = s.nTimers) (period : Word) (cb : Bool) :
    exec (.tmrRegister period cb) s = .next (respond Opcode.tmrRegister.code .capacityExceeded 0 s) :=
  congrArg Host.Outcome.next (if_pos h)

theorem exec_tmrRegister_free {s : State} (h : s.tcount ≠ s.nTimers) (period : Word) (cb : Bool) :
    exec (.tmrRegister period cb) s = .next (respond Opcode.tmrRegister.code .ok (BitVec.ofNat 32 s.tcount)
      { s with slots := s.slots.set s.tcount ⟨period, 0, false, cb⟩, tcount := s.tcount + 1 }) :=
  congrArg Host.Outcome.next (if_neg h)

theorem exec_tmrStart (id : Nat) (s : State) :
    exec (.tmrStart id) s = .next (onSlot Opcode.tmrStart.code id (fun sl => { sl with acc := 0, active := true }) s) := rfl

theorem exec_tmrPause (id : Nat) (s : State) :
    exec (.tmrPause id) s = .next (onSlot Opcode.tmrPause.code id (fun sl => { sl with active := false }) s) := rfl

theorem exec_tmrResume (id : Nat) (s : State) :
    exec (.tmrResume id) s = .next (onSlot Opcode.tmrResume.code id (fun sl => { sl with active := true }) s) := rfl

/-- A command on a registered slot writes that slot and answers OK (R122 to R124). -/
theorem onSlot_of_slot {op : Byte} {id : Nat} {sl : Slot} {s : State} (f : Slot → Slot) (h : id < s.tcount)
    (hsl : s.slots[id]? = some sl) : onSlot op id f s = respond op .ok 0 { s with slots := s.slots.set id (f sl) } := by
  rw [onSlot_registered f h, State.modifySlot_of_slot f hsl]

/-- Settles O17: at `tcount = N_TIMERS` the registration is refused, and below it the slot is free. -/
theorem tmrRegisterResult : Obligations.TmrRegisterResult :=
  fun period cb _ => ⟨fun hfull => exec_tmrRegister_full hfull period cb,
    fun hfree => exec_tmrRegister_free (Nat.ne_of_lt hfree) period cb⟩

/-- Settles O18: each of the three fails the id check of `onSlot`. -/
theorem unregisteredTimerIdIsInvalid : Obligations.UnregisteredTimerIdIsInvalid := by
  intro id s h
  rw [exec_tmrStart, exec_tmrPause, exec_tmrResume, onSlot_invalid _ h, onSlot_invalid _ h, onSlot_invalid _ h]
  exact ⟨rfl, rfl, rfl⟩

/-- Settles O19: each of the three passes the id check of `onSlot` and writes the one slot. -/
theorem tmrStartPauseResumeResult : Obligations.TmrStartPauseResumeResult := by
  intro id sl s h hsl
  rw [exec_tmrStart, exec_tmrPause, exec_tmrResume, onSlot_of_slot _ h hsl, onSlot_of_slot _ h hsl, onSlot_of_slot _ h hsl]
  exact ⟨rfl, rfl, rfl⟩

/-! The commands on the sequencer. -/

/-- The state in which a pass of `e` ticks over the registered slots begins (R125). -/
def passBegun (e : Word) (s : State) : State :=
  { s with seq := { s.seq with phase := .run, i := 0, n := s.tcount, e := e, fired := 0 } }

theorem exec_tmrAdvance_busy {s : State} (h : s.seq.phase ≠ .idle) (e : Word) :
    exec (.tmrAdvance e) s = .next (respond Opcode.tmrAdvance.code .busy 0 s) :=
  congrArg Host.Outcome.next (if_pos h)

theorem exec_tmrAdvance_begins {s : State} (h : s.seq.phase = .idle) (e : Word) :
    exec (.tmrAdvance e) s = .next (passBegun e s) :=
  congrArg Host.Outcome.next (if_neg (not_not_intro h))

theorem exec_cbDone_returns {s : State} (h : s.seq.phase = .waitCb) :
    exec .cbDone s = .next (respond Opcode.cbDone.code .ok 0 (callbackReturn s)) :=
  congrArg Host.Outcome.next (if_neg (not_not_intro h))

theorem exec_cbDone_illegal {s : State} (h : s.seq.phase ≠ .waitCb) :
    exec .cbDone s = .next (respond Opcode.cbDone.code .illegalCommand 0 s) :=
  congrArg Host.Outcome.next (if_pos h)

/-- Settles O20: Busy unless the sequencer is idle. -/
theorem tmrAdvanceIssueResult : Obligations.TmrAdvanceIssueResult :=
  fun e _ => ⟨fun hbusy => exec_tmrAdvance_busy hbusy e, fun hidle => exec_tmrAdvance_begins hidle e⟩

/-- Settles O23: a return from a callback, or no callback to return from. -/
theorem cbDoneResult : Obligations.CbDoneResult :=
  fun _ => ⟨exec_cbDone_returns, exec_cbDone_illegal⟩

/-! SEQ's steps. -/

theorem step_seq_visit {s : State} {rest : List Move} (hm : s.moves = .seq :: rest) (hp : s.seq.phase = .run)
    (hi : s.seq.i < s.seq.n) : step s = .next (seqVisit { s with moves := rest }) :=
  (step_seq hm).trans (congrArg (takeStep .seq) (seqStep?_visit (s := { s with moves := rest }) hp hi))

theorem step_seq_end {s : State} {rest : List Move} (hm : s.moves = .seq :: rest) (hp : s.seq.phase = .run)
    (hi : s.seq.i = s.seq.n) : step s = .next (seqEnd { s with moves := rest }) :=
  (step_seq hm).trans (congrArg (takeStep .seq) (seqStep?_end (s := { s with moves := rest }) hp hi))

/-- The state after the visit of slot `sl` at the cursor, but for the trigger. -/
theorem visited_of_slot {s : State} {sl : Slot} (h : s.slots[s.seq.i]? = some sl) :
    visited s = { s with
      seq := { s.seq with i := s.seq.i + 1 }, slots := s.slots.set s.seq.i (sl.advance s.seq.e) } :=
  State.modifySlot_of_slot _ h

theorem Slot.advance_inactive {e : Word} {sl : Slot} (h : sl.active = false) : sl.advance e = sl := by
  simp [Slot.advance, h]

theorem Slot.advance_below {e : Word} {sl : Slot} (ha : sl.active = true) (hlt : sl.acc.toNat + e.toNat < sl.period.toNat) :
    sl.advance e = { sl with acc := BitVec.ofNat 32 (sl.acc.toNat + e.toNat) } := by
  simp [Slot.advance, ha, Nat.not_le.mpr hlt]

theorem Slot.advance_overflow {e : Word} {sl : Slot} (ha : sl.active = true)
    (hle : sl.period.toNat ≤ sl.acc.toNat + e.toNat) : sl.advance e = { sl with acc := 0 } := by
  simp [Slot.advance, ha, hle]

/-- A visit triggers exactly where the slot is active, reaches its period and has a callback (R127). -/
theorem Slot.fires_iff {e : Word} {sl : Slot} :
    sl.fires e = true ↔ sl.active = true ∧ sl.period.toNat ≤ sl.acc.toNat + e.toNat ∧ sl.cbEn = true := by
  simp [Slot.fires, and_assoc]

/-- A visit without a trigger. -/
theorem step_seq_quiet {s : State} {rest : List Move} {sl : Slot} (hm : s.moves = .seq :: rest) (hp : s.seq.phase = .run)
    (hi : s.seq.i < s.seq.n) (hsl : s.slots[s.seq.i]? = some sl) (hno : ¬sl.fires s.seq.e = true) :
    step s = .next (visited { s with moves := rest }) := by
  rw [step_seq_visit hm hp hi, seqVisit_of_slot (s := { s with moves := rest }) hsl, if_neg hno]

/-- A visit with its trigger (R127). -/
theorem step_seq_trigger {s : State} {rest : List Move} {sl : Slot} (hm : s.moves = .seq :: rest) (hp : s.seq.phase = .run)
    (hi : s.seq.i < s.seq.n) (hsl : s.slots[s.seq.i]? = some sl) (hfires : sl.fires s.seq.e = true) :
    step s = .next (callbackEntry s.seq.i (visited { s with moves := rest })) := by
  rw [step_seq_visit hm hp hi, seqVisit_of_slot (s := { s with moves := rest }) hsl, if_pos hfires]

/-- Settles O21: the slot left is its `advance`, in the three forms of that; the last case alone fires. -/
theorem seqVisitResult : Obligations.SeqVisitResult := by
  intro s rest sl hm hp hi hsl
  have hvisited := visited_of_slot (s := { s with moves := rest }) hsl
  have quiet := step_seq_quiet hm hp hi hsl
  refine ⟨?inactive, ?below, ?noCallback, ?trigger⟩
  case inactive =>
    intro ha
    have hset : s.slots.set s.seq.i sl = s.slots := by
      obtain ⟨hlt, rfl⟩ := List.getElem?_eq_some_iff.mp hsl
      exact List.set_getElem_self hlt
    rw [quiet (by simp [Slot.fires_iff, ha]), hvisited, Slot.advance_inactive ha, hset]
  case below =>
    intro ha hlt
    rw [quiet (by simp [Slot.fires_iff, hlt]), hvisited, Slot.advance_below ha hlt]
  case noCallback =>
    intro ha hle hcb
    rw [quiet (by simp [Slot.fires_iff, hcb]), hvisited, Slot.advance_overflow ha hle]
  case trigger =>
    intro ha hle hcb
    rw [step_seq_trigger hm hp hi hsl (Slot.fires_iff.mpr ⟨ha, hle, hcb⟩), hvisited, Slot.advance_overflow ha hle]
    rfl

/-- Settles O22: SEQ's step at the end of the slots latched. -/
theorem seqEndResult : Obligations.SeqEndResult := fun _ _ hm hp hi => step_seq_end hm hp hi

/-! The tick counter. -/

theorem exec_tmrElapsed (start thr : Word) (s : State) :
    exec (.tmrElapsed start thr) s = .next (respond Opcode.tmrElapsed.code .ok
      (boolResult (decide (thr.toNat ≤ (elapsed s.tick start).toNat))) s) := rfl

theorem exec_tickRead (s : State) : exec .tickRead s = .next (respond Opcode.tickRead.code .ok s.tick s) := rfl

theorem exec_tickDelta (cur prev : Word) (s : State) :
    exec (.tickDelta cur prev) s = .next (respond Opcode.tickDelta.code .ok (elapsed cur prev) s) := rfl

theorem exec_tick (s : State) : exec .tick s = .next { s with tick := s.tick + 1 } := rfl

/-- The elapsed count is the difference modulo 2^32 (spec/00_scope.md R14). -/
theorem toNat_elapsed (a b : Word) : (elapsed a b).toNat = (a.toNat + (2 ^ 32 - b.toNat)) % 2 ^ 32 := by
  rw [elapsed, BitVec.toNat_sub, Nat.add_comm]

/-- Settles O26: the difference is `elapsed`. -/
theorem tickDeltaResult : Obligations.TickDeltaResult :=
  fun cur prev s => ⟨elapsed cur prev, exec_tickDelta cur prev s, toNat_elapsed cur prev⟩

/-- Settles O27: the comparison with the elapsed count, reached or not. -/
theorem tmrElapsedResult : Obligations.TmrElapsedResult := by
  intro start thr s
  rw [← toNat_elapsed, exec_tmrElapsed]
  constructor
  · intro hreached
    rw [decide_eq_true hreached]
    rfl
  · intro hbelow
    rw [decide_eq_false (Nat.not_le.mpr hbelow)]
    rfl

/-- Settles O28: the counter goes up by one modulo 2^32; TICK_READ answers it. -/
theorem tickAndTickReadResult : Obligations.TickAndTickReadResult :=
  fun s => ⟨⟨s.tick + 1, exec_tick s, BitVec.toNat_add s.tick 1⟩, rfl, exec_tickRead s⟩

end Sys2Proof.Machine

/-! What the timer unit and the port events leave unchanged (spec/41_softtimer.md R138; spec/60_exceptions.md R204). -/

namespace Sys2Proof.Machine

/-! Outside the timer unit. -/

/-- No buffer, channel, tick, FG phase or move to come is changed. -/
structure OutsideTimersKept (s t : State) : Prop where
  rb    : ∀ b, t.rb b = s.rb b
  chn   : ∀ ch, t.chn ch = s.chn ch
  tick  : t.tick = s.tick
  fg    : t.fg = s.fg
  moves : t.moves = s.moves

theorem OutsideTimersKept.refl (s : State) : OutsideTimersKept s s := ⟨fun _ => rfl, fun _ => rfl, rfl, rfl, rfl⟩

theorem OutsideTimersKept.respond {s u : State} (h : OutsideTimersKept s u) (op : Byte) (st : Status) (r : Word) :
    OutsideTimersKept s (respond op st r u) := ⟨h.rb, h.chn, h.tick, h.fg, h.moves⟩

theorem OutsideTimersKept.modifySlot {s u : State} (h : OutsideTimersKept s u) (id : Nat) (f : Slot → Slot) :
    OutsideTimersKept s (u.modifySlot id f) where
  rb b := (u.rb_modifySlot id f b).trans (h.rb b)
  chn ch := (u.chn_modifySlot id f ch).trans (h.chn ch)
  tick := (u.modifySlot_tick id f).trans h.tick
  fg := (u.modifySlot_fg id f).trans h.fg
  moves := (u.modifySlot_moves id f).trans h.moves

theorem OutsideTimersKept.sameChannel {s t : State} (h : OutsideTimersKept s t) (ch : Ch) : SameChannel ch s t :=
  ⟨h.chn ch, fun _ => h.rb _⟩

theorem OutsideTimersKept.sameStorage {s t : State} (h : OutsideTimersKept s t) : SameStorage s t :=
  fun b i => storeByte_congr (congrArg Ring.store (h.rb b)) i

theorem OutsideTimersKept.sameFrameBytes {s t : State} (h : OutsideTimersKept s t) : SameFrameBytes s t :=
  fun ch i => frameByte_congr (congrArg Channel.frameBuf (h.chn ch)) (congrArg Channel.draws (h.chn ch)) i

theorem onSlot_outsideTimersKept (op : Byte) (id : Nat) (f : Slot → Slot) (s : State) :
    OutsideTimersKept s (onSlot op id f s) := by
  unfold onSlot
  split
  · exact ((OutsideTimersKept.refl s).modifySlot id f).respond _ _ _
  · exact (OutsideTimersKept.refl s).respond _ _ _

/-- A command on one slot leaves the sequencer, `tcount` and the other slots (R121 to R124). -/
theorem onSlot_keeps_others (op : Byte) (id : Nat) (f : Slot → Slot) (s : State) :
    (onSlot op id f s).seq = s.seq ∧ (onSlot op id f s).tcount = s.tcount ∧
    ∀ j, j ≠ id → (onSlot op id f s).slots[j]? = s.slots[j]? := by
  unfold onSlot
  split
  · exact ⟨s.modifySlot_seq id f, s.modifySlot_tcount id f, fun j hj => (s.modifySlot_slot id j f).trans (if_neg hj)⟩
  · exact ⟨rfl, rfl, fun _ _ => rfl⟩

/-- A command of the timer unit keeps all that is not the unit's or the response's (R204). -/
theorem exec_timerCommand_outsideTimersKept {i : Instr} {s t : State} (hch : channelOf i = none) (htick : i ≠ .tick)
    (he : exec i s = .next t) : OutsideTimersKept s t := by
  have kept := OutsideTimersKept.refl s
  cases i with
  | tmrRegister period cb =>
    cases he
    split
    · exact kept.respond _ _ _
    · exact ⟨fun _ => rfl, fun _ => rfl, rfl, rfl, rfl⟩
  | tmrStart id => cases he; exact onSlot_outsideTimersKept ..
  | tmrPause id => cases he; exact onSlot_outsideTimersKept ..
  | tmrResume id => cases he; exact onSlot_outsideTimersKept ..
  | tmrAdvance e =>
    cases he
    split
    · exact kept.respond _ _ _
    · exact ⟨fun _ => rfl, fun _ => rfl, rfl, rfl, rfl⟩
  | tmrElapsed start threshold => cases he; exact kept.respond _ _ _
  | tickRead => cases he; exact kept.respond _ _ _
  | tickDelta cur prev => cases he; exact kept.respond _ _ _
  | cbDone =>
    cases he
    split
    · exact kept.respond _ _ _
    · exact ⟨fun _ => rfl, fun _ => rfl, rfl, rfl, rfl⟩
  | tick => exact absurd rfl htick
  | _ => cases hch

/-- Settles O29: outside the unit by `exec_timerCommand_outsideTimersKept`; inside it, the clauses by the commands they name. -/
theorem timerCommandFrame : Obligations.TimerCommandFrame := by
  intro i s t hch htick he
  have hout := exec_timerCommand_outsideTimersKept hch htick he
  obtain ⟨-, hsize, -⟩ := exec_registersOnly he
  refine ⟨hout.sameChannel, hout.sameStorage, hout.sameFrameBytes, hout.tick, hout.fg, hout.moves, hsize, ?register, ?slot,
    ?sequencer, ?reads⟩
  case register =>
    rintro period cb rfl
    by_cases hfull : s.tcount = s.nTimers
    · cases (exec_tmrRegister_full hfull period cb).symm.trans he
      exact ⟨rfl, fun _ _ => rfl⟩
    · cases (exec_tmrRegister_free hfull period cb).symm.trans he
      exact ⟨rfl, fun j hj => List.getElem?_set_ne hj.symm⟩
  case slot =>
    rintro id (rfl | rfl | rfl) <;> cases he
    · exact onSlot_keeps_others ..
    · exact onSlot_keeps_others ..
    · exact onSlot_keeps_others ..
  case sequencer =>
    rintro e (rfl | rfl) <;> cases he
    · split <;> exact ⟨rfl, rfl⟩
    · split <;> exact ⟨rfl, rfl⟩
  case reads =>
    rintro a b (rfl | rfl | rfl) <;> cases he
    · exact .refl s
    · exact .refl s
    · exact .refl s

/-! The tick counter. -/

@[simp] theorem rbInit_tick (b : BufId) (c : Word) (s : State) : (rbInit b c s).2.tick = s.tick := by
  obtain ⟨r, e⟩ := rbInit_eq_setRb b c s; simp [e]

@[simp] theorem rbPush_tick (b : BufId) (v : Byte) (s : State) : (rbPush b v s).2.tick = s.tick := by
  obtain ⟨r, e⟩ := rbPush_eq_setRb b v s; simp [e]

@[simp] theorem rbPop_tick (b : BufId) (s : State) : (rbPop b s).2.2.tick = s.tick := by
  obtain ⟨r, e⟩ := rbPop_eq_setRb b s; simp [e]

theorem gfFinish_tick (ch : Ch) (o : Extraction) (s : State) : (gfFinish ch o s).tick = s.tick := by
  rw [gfFinish_eq]
  exact s.setChn_tick ch _

theorem gfExtract_tick (ch : Ch) (s : State) : (gfExtract ch s).tick = s.tick := by
  rcases gfExtract_cases ch s with e | e | e | e <;> rw [e]
  · simp [storePayload]
  · exact gfFinish_tick ..
  · simp [gfFinish_tick]
  · simp [gfFinish_tick, storePayload]

theorem fgStep?_tick {s t : State} (h : fgStep? s = some t) : t.tick = s.tick := by
  rcases fgStep?_cases h with ⟨ch, -, -, rfl⟩ | ⟨ch, -, rfl⟩
  · exact rbPop_tick (rxOf ch) _
  · exact gfExtract_tick ch s

@[simp] theorem visited_tick (s : State) : (visited s).tick = s.tick := by simp [visited]

theorem seqStep?_tick {s t : State} (h : seqStep? s = some t) : t.tick = s.tick := by
  obtain ⟨-, ⟨-, rfl⟩ | ⟨-, rfl⟩⟩ := seqStep?_cases h
  · rcases seqVisit_cases s with e | e <;> rw [e]
    · exact visited_tick s
    · exact visited_tick s
  · rfl

/-- An instruction of a channel leaves the tick counter alone (R43). -/
theorem exec_channel_tick {i : Instr} {s t : State} (hch : channelOf i ≠ none) (he : exec i s = .next t) :
    t.tick = s.tick := by
  cases i with
  | rbInit b c => cases he; exact rbInit_tick b c s
  | rbPush b v => cases he; exact rbPush_tick b v s
  | rbPop b => cases he; exact rbPop_tick b s
  | rbIsEmpty b => cases he; split <;> rfl
  | chInit ch c =>
    rcases exec_chInit_cases ch c s with ⟨-, e⟩ | ⟨-, -, e⟩ <;> cases e.symm.trans he
    · rfl
    · simp
  | chSend ch v =>
    rcases exec_chSend_cases ch v s with ⟨-, e⟩ | ⟨-, e⟩ <;> cases e.symm.trans he
    · rfl
    · simp
  | chRecv ch =>
    rcases exec_chRecv_cases ch s with e | ⟨-, e⟩ | e <;> cases e.symm.trans he
    · rfl
    · rfl
    · exact rbPop_tick (rxOf ch) s
  | chGetFrame ch =>
    rcases exec_chGetFrame_cases ch s with ⟨st, -, e⟩ | ⟨-, e⟩ <;> cases e.symm.trans he
    · rfl
    · exact s.setChn_tick ch _
  | chPending ch => cases he; rfl
  | rxByte ch v =>
    rcases exec_rxByte_cases ch v s with e | ⟨-, -, ⟨-, e⟩ | ⟨-, e⟩⟩ <;> cases e.symm.trans he
    · rfl
    · exact rbPush_tick (rxOf ch) v s
    · simp
  | txReady ch =>
    rcases exec_txReady_cases ch s with ⟨-, e⟩ | ⟨v, e⟩ <;> cases e.symm.trans he
    · exact s.setArmed_tick ch false
    · exact rbPop_tick (txOf ch) s
  | _ => exact absurd rfl hch

theorem exec_tick_of_ne {i : Instr} {s t : State} (hi : i ≠ .tick) (he : exec i s = .next t) : t.tick = s.tick := by
  by_cases hch : channelOf i = none
  · exact (exec_timerCommand_outsideTimersKept hch hi he).tick
  · exact exec_channel_tick hch he

/-! The port events. -/

/-- A step that takes an event word ignores it, or runs the event of its port it decodes to (R85, R87). -/
theorem step_event_cases {s t : State} {port : Port} {w : Word} {rest : List Move} (hm : s.moves = .event port w :: rest)
    (h : step s = .next t) :
    t = { s with moves := rest } ∨ ∃ i, portOf i = some port ∧ exec i { s with moves := rest } = .next t := by
  rw [step_cons hm] at h
  simp only [takeMove, deliverEvent] at h
  split at h
  · rename_i i _
    split at h
    · rename_i hp
      split at h
      · exact .inr ⟨i, hp, h⟩
      · cases h
    · cases h; exact .inl rfl
  · cases h; exact .inl rfl

theorem exec_event_sameTimers {i : Instr} {port : Port} {s t : State} (hp : portOf i = some port) (he : exec i s = .next t) :
    SameTimers s t := by
  rcases portOf_eq_some_iff.mp hp with ⟨ch, v, rfl, -⟩ | ⟨ch, rfl, -⟩ | ⟨rfl, -⟩
  · exact exec_channel_sameTimers (by simp [channelOf]) he
  · exact exec_channel_sameTimers (by simp [channelOf]) he
  · cases he; exact .refl s

/-- Settles O48: events of a channel and TICK leave the timer table; among all ways a step can go only TICK writes `tick`. -/
theorem portEventsLeaveTheTimerTable : Obligations.PortEventsLeaveTheTimerTable := by
  refine ⟨?events, exec_tick, ?tick⟩
  case events =>
    intro s t port w rest hm hstep
    rcases step_event_cases hm hstep with rfl | ⟨i, hp, he⟩
    · exact .refl s
    · exact exec_event_sameTimers (s := { s with moves := rest }) hp he
  case tick =>
    intro s t hstep hno
    obtain ⟨ms, rfl | hf | hq | ⟨-, -, op, rfl⟩ | ⟨i, hi, he, -⟩⟩ := step_cases hstep
    · rfl
    · exact fgStep?_tick (s := { s with moves := ms }) hf
    · exact seqStep?_tick (s := { s with moves := ms }) hq
    · rfl
    · refine exec_tick_of_ne (s := { s with moves := ms }) ?_ he
      rintro rfl
      exact hno hi

end Sys2Proof.Machine

/-! A whole pass (spec/41_softtimer.md R125 to R130, R136): where it stands after each slot, and what it has left behind at its end. -/

namespace Sys2Proof.Machine

/-! The triggers of a pass and of a trace. -/

theorem triggered_append (e : Word) (j : Nat) (xs ys : List Slot) :
    triggered e j (xs ++ ys) = triggered e j xs ++ triggered e (j + xs.length) ys := by
  induction xs generalizing j with
  | nil => rfl
  | cons x xs ih =>
    simp only [List.cons_append, triggered, ih, List.length_cons, Nat.add_comm xs.length, Nat.add_assoc]
    split <;> rfl

theorem triggered_concat (e : Word) (xs : List Slot) (sl : Slot) :
    triggered e 0 (xs ++ [sl]) = triggered e 0 xs ++ if sl.fires e then [xs.length] else [] := by
  rw [triggered_append, Nat.zero_add]
  rfl

theorem trigIds_append (es fs : List TraceEvent) : trigIds (es ++ fs) = trigIds es ++ trigIds fs := by
  induction es with
  | nil => rfl
  | cons e es ih => cases e <;> simp [trigIds, ih]

/-! One slot's share of a pass. -/

@[simp] theorem visited_moves (s : State) : (visited s).moves = s.moves := by simp [visited]

theorem visited_withMoves (s : State) (ms : List Move) : visited (s.withMoves ms) = (visited s).withMoves ms :=
  modifySlot_withMoves { s with seq := { s.seq with i := s.seq.i + 1 } } ms _ _

theorem decodeCommand_encode {i : Instr} (hw : i.wellFormed = true) (hc : i.opcode.isEvent = false) :
    decodeCommand (encode i) = .ok i :=
  (if_neg (by simp [hc])).symm.trans (decodeOfEncodeIsTheInstruction i hw)

/-- The state after the visit of slot `sl` at the cursor and, where it triggers, a callback that only issues CB_DONE. -/
def slotPassed (sl : Slot) (s : State) : State :=
  if sl.fires s.seq.e then respond Opcode.cbDone.code .ok 0 (callbackReturn (callbackEntry s.seq.i (visited s)))
  else visited s

/-- A callback that only issues CB_DONE returns at once (R129). -/
theorem step_callback {s : State} (hf : s.fg = .ready) (j : Nat) (rest : List Move) :
    step (callbackEntry j (visited (s.withMoves (.command (encode .cbDone) :: rest)))) =
      .next (respond Opcode.cbDone.code .ok 0 (callbackReturn (callbackEntry j (visited (s.withMoves rest))))) := by
  rw [visited_withMoves s (_ :: rest), visited_withMoves s rest]
  have hmay : mayIssue (callbackEntry j ((visited s).withMoves (.command (encode .cbDone) :: rest))) = true :=
    mayIssue_of_idle_or_waitCb ((visited_fg s).trans hf) (.inr rfl)
  exact (step_command rfl hmay (decodeCommand_encode (i := .cbDone) rfl rfl)).trans (exec_cbDone_returns rfl)

/-- The moves of one slot's share lead to `slotPassed`, and the pass goes on with the slots after it. -/
theorem run_passMoves_cons {s : State} {sl : Slot} {todo : List Slot} {rest : List Move} (hf : s.fg = .ready)
    (hp : s.seq.phase = .run) (hi : s.seq.i < s.seq.n) (hsl : s.slots[s.seq.i]? = some sl)
    (hm : s.moves = passMoves s.seq.e (sl :: todo) ++ rest) :
    core.run (passMoves s.seq.e (sl :: todo)).length s =
      core.run (passMoves s.seq.e todo).length (slotPassed sl { s with moves := passMoves s.seq.e todo ++ rest }) := by
  unfold slotPassed
  by_cases hfires : sl.fires s.seq.e = true
  · simp only [passMoves, if_pos hfires] at hm ⊢
    exact (core_run_succ _ (step_seq_trigger hm hp hi hsl hfires)).trans (core_run_succ _ (step_callback hf _ _))
  · simp only [passMoves, if_neg hfires] at hm ⊢
    exact core_run_succ _ (step_seq_quiet hm hp hi hsl hfires)

/-! Where a pass stands. -/

/-- A pass of `e` ticks, begun in `s₀` over the slots `done ++ todo`, has visited `done` and triggered the timers `ids`. -/
structure PassAt (e : Word) (done todo free : List Slot) (ids : List Nat) (s₀ s : State) : Prop where
  fg       : s.fg = .ready
  phase    : s.seq.phase = .run
  cursor   : s.seq.i = done.length
  latched  : s.seq.n = (done ++ todo).length
  ticks    : s.seq.e = e
  table    : s.slots = done.map (Slot.advance e) ++ todo ++ free
  fired    : s.seq.fired = ids.length
  triggers : trigIds s.trace = trigIds s₀.trace ++ ids
  tcount   : s.tcount = s₀.tcount
  outside  : s.tick = s₀.tick ∧ ∀ ch, SameChannel ch s₀ s

/-- A pass of `e` ticks, begun in `s₀` over `slots`, has ended. -/
structure PassEnded (e : Word) (slots free : List Slot) (s₀ t : State) : Prop where
  table    : t.slots = slots.map (Slot.advance e) ++ free
  tcount   : t.tcount = s₀.tcount
  phase    : t.seq.phase = .idle
  status   : t.status = 0x00
  result   : t.result = BitVec.ofNat 32 (triggered e 0 slots).length
  triggers : trigIds t.trace = trigIds s₀.trace ++ triggered e 0 slots
  fg       : t.fg = .ready
  outside  : t.tick = s₀.tick ∧ ∀ ch, SameChannel ch s₀ t

section

variable {e : Word} {done todo free : List Slot} {ids : List Nat} {sl : Slot} {s₀ s : State}

theorem PassAt.setMoves (h : PassAt e done todo free ids s₀ s) (ms : List Move) :
    PassAt e done todo free ids s₀ { s with moves := ms } :=
  ⟨h.fg, h.phase, h.cursor, h.latched, h.ticks, h.table, h.fired, h.triggers, h.tcount, h.outside⟩

/-- The slot at the cursor is the next one to visit. -/
theorem PassAt.slot (h : PassAt e done (sl :: todo) free ids s₀ s) : s.slots[s.seq.i]? = some sl := by
  rw [h.table, h.cursor]
  simp

theorem PassAt.cursor_lt (h : PassAt e done (sl :: todo) free ids s₀ s) : s.seq.i < s.seq.n := by
  rw [h.cursor, h.latched]
  simp

/-- A visit advances the slot at the cursor and leaves the others (R126). -/
theorem PassAt.visited (h : PassAt e done (sl :: todo) free ids s₀ s) :
    PassAt e (done ++ [sl]) todo free ids s₀ (visited s) where
  fg := (visited_fg s).trans h.fg
  phase := by rw [visited_seq, h.phase]
  cursor := by simp [h.cursor]
  latched := by simp [h.latched]
  ticks := by rw [visited_seq, h.ticks]
  table := by
    rw [visited_of_slot h.slot, h.table, h.cursor, h.ticks]
    simp
  fired := by rw [visited_seq, h.fired]
  triggers := by rw [visited_trace, h.triggers]
  tcount := (visited_tcount s).trans h.tcount
  outside := ⟨(visited_tick s).trans h.outside.1, fun ch =>
    ⟨(chn_visited s ch).trans (h.outside.2 ch).1, fun buf => (rb_visited s _).trans ((h.outside.2 ch).2 buf)⟩⟩

/-- A callback that only issues CB_DONE adds its trigger, and leaves the pass where it stands (R127, R129). -/
theorem PassAt.called (h : PassAt e done todo free ids s₀ s) (j : Nat) :
    PassAt e done todo free (ids ++ [j]) s₀
      (respond Opcode.cbDone.code .ok 0 (callbackReturn (callbackEntry j s))) where
  fg := h.fg
  phase := rfl
  cursor := h.cursor
  latched := h.latched
  ticks := h.ticks
  table := h.table
  fired := by simp [h.fired]
  triggers := by simp [trigIds_append, trigIds, h.triggers]
  tcount := h.tcount
  outside := h.outside

/-- One slot's share brings the pass one slot further, with the trigger of that slot if it fires. -/
theorem PassAt.slotPassed (h : PassAt e done (sl :: todo) free (triggered e 0 done) s₀ s) :
    PassAt e (done ++ [sl]) todo free (triggered e 0 (done ++ [sl])) s₀ (slotPassed sl s) := by
  unfold Machine.slotPassed
  rw [h.ticks, triggered_concat, ← h.cursor]
  split
  · exact h.visited.called s.seq.i
  · rw [List.append_nil]; exact h.visited

/-- With no slot left to visit SEQ's step ends the pass with the number of its triggers (R130). -/
theorem PassAt.ended (h : PassAt e done [] free (triggered e 0 done) s₀ s) : PassEnded e done free s₀ (seqEnd s) where
  table := by rw [show (seqEnd s).slots = s.slots from rfl, h.table, List.append_nil]
  tcount := h.tcount
  phase := rfl
  status := rfl
  result := congrArg (BitVec.ofNat 32) h.fired
  triggers := by simp [seqEnd, trigIds_append, trigIds, h.triggers]
  fg := h.fg
  outside := h.outside

end

/-- The moves of the slots still to visit take a pass to its end: by induction on those slots. -/
theorem run_pass {e : Word} {free : List Slot} {s₀ : State} (rest : List Move) (todo : List Slot) :
    ∀ {done : List Slot} {s : State}, PassAt e done todo free (triggered e 0 done) s₀ s → s.moves = passMoves e todo ++ rest →
      ∃ t, core.run (passMoves e todo).length s = .next t ∧ t.moves = rest ∧ PassEnded e (done ++ todo) free s₀ t := by
  induction todo with
  | nil =>
    intro done s h hm
    have hend : s.seq.i = s.seq.n := by rw [h.cursor, h.latched, List.append_nil]
    refine ⟨_, core_run_succ 0 (step_seq_end hm h.phase hend), rfl, ?_⟩
    rw [List.append_nil]
    exact (h.setMoves rest).ended
  | cons sl todo ih =>
    intro done s h hm
    have hpassed := (h.setMoves (passMoves e todo ++ rest)).slotPassed
    have hmoves : (slotPassed sl { s with moves := passMoves e todo ++ rest }).moves = passMoves e todo ++ rest := by
      unfold slotPassed
      split
      · exact visited_moves _
      · exact visited_moves _
    obtain ⟨t, hrun, ht, hended⟩ := ih hpassed hmoves
    refine ⟨t, ?_, ht, by simpa using hended⟩
    have hshare := run_passMoves_cons (rest := rest) (todo := todo) h.fg h.phase h.cursor_lt h.slot (by rw [h.ticks]; exact hm)
    rw [h.ticks] at hshare
    exact hshare.trans hrun

/-- Where a pass begins: no slot visited, no trigger raised (R125). -/
theorem passAt_passBegun {s : State} (e : Word) (hf : s.fg = .ready) (htc : s.tcount ≤ s.nTimers) :
    PassAt e [] (s.slots.take s.tcount) (s.slots.drop s.tcount) [] s (passBegun e s) where
  fg := hf
  phase := rfl
  cursor := rfl
  latched := (List.length_take_of_le htc).symm
  ticks := rfl
  table := (List.take_append_drop s.tcount s.slots).symm
  fired := rfl
  triggers := (List.append_nil _).symm
  tcount := rfl
  outside := ⟨rfl, fun _ => ⟨rfl, fun _ => rfl⟩⟩

/-- Settles O25: the issue step begins the pass, and `run_pass` takes it to its end. -/
theorem wholePassAdvancesEveryTimerOnce : Obligations.WholePassAdvancesEveryTimerOnce := by
  intro s e rest hinv hf hp hm
  have hissue : step s = .next (passBegun e { s with moves := passMoves e (s.slots.take s.tcount) ++ rest }) :=
    (step_command hm (mayIssue_of_idle_or_waitCb hf (.inl hp)) (decodeCommand_encode (i := .tmrAdvance e) rfl rfl)).trans
      (exec_tmrAdvance_begins (s := { s with moves := passMoves e (s.slots.take s.tcount) ++ rest }) hp e)
  obtain ⟨t, hrun, ht, h⟩ := run_pass rest _ ((passAt_passBegun e hf hinv.timers.tcount).setMoves _) rfl
  exact ⟨t, (core_run_succ _ hissue).trans hrun, ht, h.table, h.tcount, h.phase, h.status, h.result, h.triggers, h.fg,
    h.outside⟩

end Sys2Proof.Machine

/-! Every pass ends in a fair run (spec/41_softtimer.md R130; spec/70_reset_and_hazards.md R229, R238): SEQ is never held for ever, and each
change of the sequencer within a pass leaves less of the pass. -/

namespace Sys2Proof.Machine

/-! What a step does to a pass under way. -/

/-- How much of a pass is left: two for each slot still to visit, its step and its callback, and one for a callback under way. -/
def Seq.passLeft (q : Seq) : Nat := 2 * (q.n - q.i) + if q.phase = .waitCb then 1 else 0

/-- The step from `s` to `t` is SEQ's step that ends a pass (R130). -/
def PassEnds (s t : State) : Prop :=
  s.seq.phase = .run ∧ t.seq.phase = .idle ∧ t.status = 0x00 ∧ t.result = BitVec.ofNat 32 s.seq.fired

/-- The pass goes on, with less of it left. -/
def PassGoesOn (s t : State) : Prop := t.seq.phase ≠ .idle ∧ t.seq.passLeft < s.seq.passLeft

/-- SEQ's step visits a slot, which leaves less of the pass, or ends it. -/
theorem seqStep?_pass {s t : State} (h : seqStep? s = some t) : PassGoesOn s t ∨ PassEnds s t := by
  obtain ⟨hp, ⟨hi, rfl⟩ | ⟨-, rfl⟩⟩ := seqStep?_cases h
  · left
    rcases seqVisit_cases s with e | e <;> rw [e]
    · refine ⟨by simp [hp], ?_⟩
      simp [Seq.passLeft, hp]
      omega
    · refine ⟨by simp, ?_⟩
      simp [Seq.passLeft, hp]
      omega
  · exact .inr ⟨hp, rfl, rfl, rfl⟩

/-- CB_DONE in a callback ends it, and the pass goes on (R129). -/
theorem passGoesOn_cbDone {s t : State} (hp : s.seq.phase = .waitCb) (he : exec .cbDone s = .next t) : PassGoesOn s t := by
  cases (exec_cbDone_returns hp).symm.trans he
  exact ⟨SeqPhase.noConfusion, by simp [Seq.passLeft, hp]⟩

/-- In a pass no instruction writes the sequencer but CB_DONE in a callback: TMR_ADVANCE is refused (R125, R129). -/
theorem exec_keeps_seq_or_passGoesOn {i : Instr} {s t : State} (hp : s.seq.phase ≠ .idle) (he : exec i s = .next t) :
    t.seq = s.seq ∨ PassGoesOn s t := by
  cases i with
  | tmrRegister period cb => cases he; left; split <;> rfl
  | tmrStart id => cases he; exact .inl (onSlot_keeps_others ..).1
  | tmrPause id => cases he; exact .inl (onSlot_keeps_others ..).1
  | tmrResume id => cases he; exact .inl (onSlot_keeps_others ..).1
  | tmrAdvance e => cases (exec_tmrAdvance_busy hp e).symm.trans he; exact .inl rfl
  | tmrElapsed start threshold => cases he; exact .inl rfl
  | tickRead => cases he; exact .inl rfl
  | tickDelta cur prev => cases he; exact .inl rfl
  | cbDone =>
    by_cases hw : s.seq.phase = .waitCb
    · exact .inr (passGoesOn_cbDone hw he)
    · cases (exec_cbDone_illegal hw).symm.trans he; exact .inl rfl
  | tick => cases he; exact .inl rfl
  | _ => exact .inl (exec_channel_sameTimers (by simp [channelOf]) he).2.2

/-- In a pass a step keeps the sequencer, leaves less of the pass, or ends it. -/
theorem step_pass_cases {s t : State} (hp : s.seq.phase ≠ .idle) (h : step s = .next t) :
    t.seq = s.seq ∨ PassGoesOn s t ∨ PassEnds s t := by
  obtain ⟨ms, rfl | hf | hq | ⟨-, -, op, rfl⟩ | ⟨i, -, he, -⟩⟩ := step_cases h
  · exact .inl rfl
  · exact .inl (fgStep?_sameTimers hf).2.2
  · exact .inr (seqStep?_pass (s := { s with moves := ms }) hq)
  · exact .inl rfl
  · exact (exec_keeps_seq_or_passGoesOn (s := { s with moves := ms }) hp he).imp_right .inl

/-! Fair runs. -/

/-- The invariant holds all along a run that begins in it. -/
theorem IsRun.blockInv {σ : Nat → State} {m : Nat → Move} (h : IsRun σ m) (h0 : BlockInv (σ 0)) (n : Nat) : BlockInv (σ n) :=
  run_induction (P := fun k => BlockInv (σ k)) h0
    (fun k _ hk => everyStepKeepsTheInvariant _ _ (hk.setMoves [m k]) (h k)) n (Nat.zero_le n)

/-- A step of a run whose move is SEQ's is SEQ's step. -/
theorem IsRun.seqStep?_eq {σ : Nat → State} {m : Nat → Move} (h : IsRun σ m) {k : Nat} (hk : m k = .seq) :
    seqStep? ((σ k).withMoves []) = some (σ (k + 1)) := by
  have ht := h.takeMove k
  rw [hk] at ht
  simp only [Machine.takeMove, takeStep] at ht
  split at ht
  · rename_i t hq; cases ht; exact hq
  · cases ht

/-- SEQ has a step all through a pass but in its callbacks (R126, R130). -/
theorem seqStep?_isSome {s : State} (hp : s.seq.phase = .run) (hi : s.seq.i ≤ s.seq.n) : (seqStep? s).isSome = true := by
  rcases Nat.lt_or_eq_of_le hi with hlt | heq
  · rw [seqStep?_visit hp hlt]; rfl
  · rw [seqStep?_end hp heq]; rfl

section

variable {σ : Nat → State} {m : Nat → Move} {n : Nat}

/-- In a fair run the sequencer is not kept for ever within a pass: SEQ takes its step, or FG ends the callback (R207, R238). -/
theorem FairRun.pass_progresses (h : FairRun σ m) (h0 : BlockInv (σ 0)) (hp : (σ n).seq.phase ≠ .idle) :
    ∃ k, n ≤ k ∧ (PassGoesOn (σ k) (σ (k + 1)) ∨ PassEnds (σ k) (σ (k + 1))) := by
  by_contra hnone
  have hstays : ∀ k, n ≤ k → (σ k).seq = (σ n).seq := run_induction rfl fun k hk hseq => by
    have hpk : (σ k).seq.phase ≠ .idle := by rw [hseq]; exact hp
    have hkept := (step_pass_cases (s := { σ k with moves := [m k] }) hpk (h.run k)).resolve_right
      fun hmoves => hnone ⟨k, hk, hmoves⟩
    exact hkept.trans hseq
  cases hphase : (σ n).seq.phase with
  | idle => exact hp hphase
  | run =>
    obtain ⟨k, hk, hmk⟩ := h.sequencer n fun k hk => by
      have hrun : (σ k).seq.phase = .run := by rw [hstays k hk, hphase]
      exact seqStep?_isSome hrun ((h.run.blockInv h0 k).sequencer.inPass (by simp [hrun])).1
    exact hnone ⟨k, hk, seqStep?_pass (s := (σ k).withMoves []) (h.run.seqStep?_eq hmk)⟩
  | waitCb =>
    obtain ⟨k, hk, hdone⟩ := h.callbacks n hphase
    have hwait : (σ k).seq.phase = .waitCb := by rw [hstays k hk, hphase]
    exact hnone ⟨k, hk, .inl (passGoesOn_cbDone (s := (σ k).withMoves []) hwait (h.run.exec hdone))⟩

/-- While no step ends it, a pass goes on, and never has more of it left. -/
theorem FairRun.pass_goes_on (h : FairRun σ m) (hp : (σ n).seq.phase ≠ .idle)
    (hnever : ∀ k, n ≤ k → ¬PassEnds (σ k) (σ (k + 1))) :
    ∀ k, n ≤ k → (σ k).seq.phase ≠ .idle ∧ (σ k).seq.passLeft ≤ (σ n).seq.passLeft := by
  refine run_induction ⟨hp, Nat.le_refl _⟩ ?_
  rintro k hk ⟨hpk, hleft⟩
  rcases step_pass_cases (s := { σ k with moves := [m k] }) hpk (h.run k) with hkept | hon | hends
  · rw [hkept]; exact ⟨hpk, hleft⟩
  · exact ⟨hon.1, Nat.le_of_lt (Nat.lt_of_lt_of_le hon.2 hleft)⟩
  · exact absurd hends (hnever k hk)

/-- A pass of a fair run ends: by strong induction on what is left of it, since each change short of the end leaves less. -/
theorem FairRun.pass_ends (h : FairRun σ m) (h0 : BlockInv (σ 0)) (hp : (σ n).seq.phase ≠ .idle) :
    ∃ k, n ≤ k ∧ PassEnds (σ k) (σ (k + 1)) := by
  induction hleft : (σ n).seq.passLeft using Nat.strong_induction_on generalizing n with
  | _ left ih =>
    by_contra hno
    have hnever : ∀ k, n ≤ k → ¬PassEnds (σ k) (σ (k + 1)) := fun k hk hends => hno ⟨k, hk, hends⟩
    obtain ⟨k, hk, hon | hends⟩ := h.pass_progresses h0 hp
    · have hless : (σ (k + 1)).seq.passLeft < left :=
        hleft ▸ Nat.lt_of_lt_of_le hon.2 (h.pass_goes_on hp hnever k hk).2
      obtain ⟨j, hj, hends⟩ := ih _ hless hon.1 rfl
      exact hnever j (Nat.le_of_succ_le (Nat.le_trans (Nat.succ_le_succ hk) hj)) hends
    · exact hnever k hk hends

end

/-- Settles O57: by `FairRun.pass_ends`. -/
theorem everyPassEndsInAFairRun : Obligations.EveryPassEndsInAFairRun :=
  fun _ _ h h0 _ hp => h.pass_ends h0 hp

end Sys2Proof.Machine

/-! The frame channel, outcome by outcome (spec/42_framechannel.md R151 to R161), and the step with no move listed (log 2). -/

namespace Sys2Proof.Machine

/-- Settles O6: `idleStep` takes FG's step, else SEQ's, else none. -/
theorem stepWithNoMoveTakesTheBlocksOwnStep : Obligations.StepWithNoMoveTakesTheBlocksOwnStep := by
  intro s hm
  rw [step_nil hm, idleStep, ownStep?]
  refine ⟨?fg, ?seq, ?none⟩
  case fg => intro t hf; rw [hf]; rfl
  case seq => intro t hf hq; rw [hf, hq]; rfl
  case none => intro hf hq; rw [hf, hq]; rfl

/-! Responses and events after a channel or a buffer was written. -/

theorem State.setChn_self (s : State) (ch : Ch) : s.setChn ch (s.chn ch) = s := by
  cases ch <;> rfl

/-- A response after a channel was written, with the trace that stood before. -/
theorem respond_setChn (op : Byte) (st : Status) (res : Word) (s : State) (ch : Ch) (c : Channel) :
    respond op st res (s.setChn ch c) =
      { s.setChn ch c with status := st.code, result := res, trace := s.trace ++ [.resp op st res] } := by
  rw [respond_eq, State.setChn_trace]

theorem emit_setChn (e : TraceEvent) (s : State) (ch : Ch) (c : Channel) :
    emit e (s.setChn ch c) = { s.setChn ch c with trace := s.trace ++ [e] } := by
  rw [emit, State.setChn_trace]

theorem emit_setRb (e : TraceEvent) (s : State) (b : BufId) (r : Ring) :
    emit e (s.setRb b r) = { s.setRb b r with trace := s.trace ++ [e] } := by
  rw [emit, State.setRb_trace]

/-! CH_INIT. -/

/-- The ring after RB_INIT with a legal capacity (R100). -/
def Ring.emptied (r : Ring) (c : Word) : Ring := { r with init := true, cap := c.toNat, head := 0, tail := 0, count := 0 }

/-- The two RbInit of CH_INIT empty the two buffers of the channel and leave the others (R151). -/
theorem rb_rbInit_rbInit {ch : Ch} {c : Word} (s : State) (h0 : c ≠ 0) (h1 : c.toNat ≤ Config.storeSize ch) (b : BufId) :
    (rbInit (txOf ch) c (rbInit (rxOf ch) c s).2).2.rb b = if b.ch = ch then (s.rb b).emptied c else s.rb b := by
  rw [rbInit_legal _ h0 h1, rbInit_legal _ h0 h1, State.rb_setRb, State.rb_setRb, State.rb_setRb]
  rcases b with ⟨ch', _ | _⟩ <;> by_cases e : ch' = ch <;> simp [e, Ring.emptied]

theorem exec_chInit_illegal {ch : Ch} {c : Word} (s : State) (h : c = 0 ∨ Config.storeSize ch < c.toNat) :
    exec (.chInit ch c) s = .next (respond Opcode.chInit.code .invalidConfiguration 0 s) := by
  rcases exec_chInit_cases ch c s with ⟨-, e⟩ | ⟨h0, h1, -⟩
  · exact e
  · exact absurd h1 (Nat.not_le.mpr (h.resolve_left h0))

theorem exec_chInit_legal {ch : Ch} {c : Word} (s : State) (h0 : c ≠ 0) (h1 : c.toNat ≤ Config.storeSize ch) :
    exec (.chInit ch c) s = .next (respond Opcode.chInit.code .ok 0
      ((rbInit (txOf ch) c (rbInit (rxOf ch) c s).2).2.setChn ch { s.chn ch with pending := 0, armed := false })) := by
  rcases exec_chInit_cases ch c s with ⟨hl, -⟩ | ⟨-, -, e⟩
  · rw [(legalCapacity_iff ch c).mpr ⟨h0, h1⟩] at hl; cases hl
  · exact e

/-- Settles O30: the capacity is illegal, or `rb_rbInit_rbInit` says what becomes of the two buffers. -/
theorem chInitResult : Obligations.ChInitResult := by
  intro ch c s
  refine ⟨exec_chInit_illegal s, ?legal⟩
  case legal =>
    rintro ⟨h0, h1⟩
    refine ⟨_, exec_chInit_legal s h0 h1, fun buf => ?rings, ?channel, rfl, rfl, ?trace⟩
    case rings => rw [rb_respond, State.rb_setChn, rb_rbInit_rbInit s h0 h1, if_pos rfl]; rfl
    case channel => rw [chn_respond, State.chn_setChn_same]
    case trace => rw [respond_trace, State.setChn_trace, rbInit_trace, rbInit_trace]; rfl

/-! CH_SEND. -/

theorem exec_chSend_notInitialized {ch : Ch} (v : Byte) {s : State} (hi : (s.rb (txOf ch)).init = false) :
    exec (.chSend ch v) s = .next (respond Opcode.chSend.code .notInitialized 0 s) := by
  rcases exec_chSend_cases ch v s with ⟨-, e⟩ | ⟨hi', -⟩
  · exact e
  · rw [hi] at hi'; cases hi'

theorem exec_chSend_initialized {ch : Ch} (v : Byte) {s : State} (hi : (s.rb (txOf ch)).init = true) :
    exec (.chSend ch v) s = .next (respond Opcode.chSend.code (rbPush (txOf ch) v s).1 0
      ((rbPush (txOf ch) v s).2.setArmed ch true)) := by
  rcases exec_chSend_cases ch v s with ⟨hi', -⟩ | ⟨-, e⟩
  · rw [hi] at hi'; cases hi'
  · exact e

theorem exec_chSend_full {ch : Ch} (v : Byte) {s : State} (hi : (s.rb (txOf ch)).init = true)
    (hc : (s.rb (txOf ch)).count = (s.rb (txOf ch)).cap) :
    exec (.chSend ch v) s = .next (respond Opcode.chSend.code .full 0 (s.setArmed ch true)) := by
  rw [exec_chSend_initialized v hi, rbPush_full v hi hc]

theorem exec_chSend_admitted {ch : Ch} (v : Byte) {s : State} (hi : (s.rb (txOf ch)).init = true)
    (hc : (s.rb (txOf ch)).count ≠ (s.rb (txOf ch)).cap) :
    exec (.chSend ch v) s = .next (respond Opcode.chSend.code .ok 0
      ((s.setRb (txOf ch) ((s.rb (txOf ch)).pushed v)).setArmed ch true)) := by
  rw [exec_chSend_initialized v hi, rbPush_ok v hi hc]

/-- Settles O31: the three outcomes of the push, and the flag raised by two of them. -/
theorem chSendResult : Obligations.ChSendResult := by
  intro ch v s
  refine ⟨exec_chSend_notInitialized v, ?full, ?admitted⟩
  case full =>
    intro hi hc
    rw [exec_chSend_full v hi hc, State.setArmed, respond_setChn]
    rfl
  case admitted =>
    intro hi hc
    refine ⟨_, exec_chSend_admitted v hi hc, ?byte, ?head, ?count, ?channel, rfl, rfl, ?trace⟩
    case byte => rw [storeByte_respond, State.setArmed, storeByte_setChn, storeByte_pushed, if_pos ⟨rfl, rfl⟩]
    case head => rw [rb_respond, State.rb_setArmed, State.rb_setRb_same]; rfl
    case count => rw [rb_respond, State.rb_setArmed, State.rb_setRb_same]; rfl
    case channel => rw [chn_respond, State.chn_setArmed_same, State.chn_setRb]
    case trace => rw [respond_trace, State.setArmed_trace, State.setRb_trace]; rfl

/-! CH_RECV. -/

theorem exec_chRecv_notInitialized {ch : Ch} {s : State} (hi : (s.rb (rxOf ch)).init = false) :
    exec (.chRecv ch) s = .next (respond Opcode.chRecv.code .notInitialized 0 s) :=
  congrArg Host.Outcome.next (if_pos hi)

theorem exec_chRecv_holds {ch : Ch} {s : State} (hi : (s.rb (rxOf ch)).init = true) (hc : (s.rb (rxOf ch)).count = 0) :
    exec (.chRecv ch) s = .next { s with fg := .recv ch } :=
  congrArg Host.Outcome.next ((if_neg (by simp [hi])).trans (if_pos ((Ring.isEmpty_iff _).mpr hc)))

theorem exec_chRecv_pops {ch : Ch} {s : State} (hi : (s.rb (rxOf ch)).init = true) (hc : (s.rb (rxOf ch)).count ≠ 0) :
    exec (.chRecv ch) s = .next (recvPop ch s) :=
  congrArg Host.Outcome.next ((if_neg (by simp [hi])).trans (if_neg (mt (Ring.isEmpty_iff _).mp hc)))

theorem fgStep?_recv_holdsByte {ch : Ch} {s : State} (hf : s.fg = .recv ch) (hc : (s.rb (rxOf ch)).count ≠ 0) :
    fgStep? s = some (recvPop ch { s with fg := .ready }) :=
  (fgStep?_recv hf).trans (if_neg (mt (Ring.isEmpty_iff _).mp hc))

/-- FG's completion of a held CH_RECV once RX holds a byte (R157). -/
theorem step_fg_recv {ch : Ch} {s : State} {rest : List Move} (hm : s.moves = .fg :: rest) (hf : s.fg = .recv ch)
    (hc : (s.rb (rxOf ch)).count ≠ 0) : step s = .next (recvPop ch { s with moves := rest, fg := .ready }) := by
  rw [step_fg hm, fgStep?_recv_holdsByte (s := { s with moves := rest }) hf hc]
  rfl

/-- Settles O32: the three cases of the issue step, and the completion step; both pops are `recvPop_ok`. -/
theorem chRecvResult : Obligations.ChRecvResult := by
  refine ⟨fun ch s => ⟨exec_chRecv_notInitialized, exec_chRecv_holds, ?pops⟩, ?completes⟩
  case pops =>
    rintro hi hc v rfl
    rw [exec_chRecv_pops hi hc, recvPop_ok hi hc, respond_setRb]
    rfl
  case completes =>
    rintro ch s rest hm hf hi hc v rfl
    rw [step_fg_recv hm hf hc, recvPop_ok (s := { s with moves := rest, fg := .ready }) hi hc]
    cases ch <;> rfl

/-! CH_GETFRAME and CH_PENDING. -/

/-- Settles O33: the two checks of the issue step, or the extraction begins. -/
theorem chGetFrameIssueResult : Obligations.ChGetFrameIssueResult := by
  intro ch s
  refine ⟨?notInitialized, ?noFrame, exec_chGetFrame_begins⟩
  case notInitialized => exact fun hi => congrArg Host.Outcome.next (if_pos hi)
  case noFrame => exact fun hi hp => congrArg Host.Outcome.next ((if_neg (by simp [hi])).trans (if_pos hp))

/-- Settles O39: the one response. -/
theorem chPendingResult : Obligations.ChPendingResult := fun _ _ => rfl

/-! RX_BYTE. -/

theorem exec_rxByte_dropped {ch : Ch} (v : Byte) {s : State}
    (h : (s.rb (rxOf ch)).init = false ∨ (s.rb (rxOf ch)).count = (s.rb (rxOf ch)).cap) :
    exec (.rxByte ch v) s = .next (emit (.rxDrop ch v) s) := by
  rcases exec_rxByte_cases ch v s with e | ⟨hi, hc, -⟩
  · exact e
  · exact absurd (h.resolve_left (by simp [hi])) hc

theorem exec_rxByte_admitted {ch : Ch} (v : Byte) {s : State} (hi : (s.rb (rxOf ch)).init = true)
    (hc : (s.rb (rxOf ch)).count ≠ (s.rb (rxOf ch)).cap) :
    exec (.rxByte ch v) s = .next ((s.setRb (rxOf ch) ((s.rb (rxOf ch)).pushed v)).setChn ch
      { s.chn ch with pending := if v = Config.term ch then (s.chn ch).pending + 1 else (s.chn ch).pending }) := by
  simp only [exec, execRxByte, rbPush_ok v hi hc, if_true, State.chn_setRb]
  split
  · rfl
  · rw [← State.chn_setRb s (rxOf ch) ((s.rb (rxOf ch)).pushed v) ch, State.setChn_self]

/-- Settles O40: the byte is dropped, or pushed with the counter written. -/
theorem rxByteResult : Obligations.RxByteResult := by
  intro ch v s
  refine ⟨exec_rxByte_dropped v, ?admitted⟩
  case admitted =>
    intro hi hc
    refine ⟨_, exec_rxByte_admitted v hi hc, ?byte, ?head, ?count, ?term, ?other, ?trace, ?status, ?result⟩
    case byte => rw [storeByte_setChn, storeByte_pushed, if_pos ⟨rfl, rfl⟩]
    case head => rw [State.rb_setChn, State.rb_setRb_same]; rfl
    case count => rw [State.rb_setChn, State.rb_setRb_same]; rfl
    case term => intro hv; rw [State.chn_setChn_same, if_pos hv]; exact BitVec.toNat_add _ 1
    case other => intro hv; rw [State.chn_setChn_same, if_neg hv]
    case trace => rw [State.setChn_trace, State.setRb_trace]
    case status => rw [State.setChn_status, State.setRb_status]
    case result => rw [State.setChn_result, State.setRb_result]

/-! TX_READY. -/

theorem exec_txReady_idle {ch : Ch} {s : State} (h : (s.rb (txOf ch)).init = false ∨ (s.rb (txOf ch)).count = 0) :
    exec (.txReady ch) s = .next (emit (.txIdle ch) (s.setArmed ch false)) := by
  rcases rbPop_cases (txOf ch) s with ⟨-, e⟩ | ⟨-, -, e⟩ | ⟨hi, hc, -⟩
  · simp only [exec, execTxReady, e]
  · simp only [exec, execTxReady, e]
  · exact absurd (h.resolve_left (by simp [hi])) hc

theorem exec_txReady_sends {ch : Ch} {s : State} (hi : (s.rb (txOf ch)).init = true) (hc : (s.rb (txOf ch)).count ≠ 0) :
    exec (.txReady ch) s = .next (emit (.tx ch (s.storeByte (txOf ch) (s.rb (txOf ch)).tail))
      (s.setRb (txOf ch) (s.rb (txOf ch)).popped)) := by
  simp only [exec, execTxReady, rbPop_ok hi hc]

/-- Settles O41: TX has nothing to send, or its oldest byte is popped. -/
theorem txReadyResult : Obligations.TxReadyResult := by
  intro ch s
  constructor
  · intro h
    rw [exec_txReady_idle h, State.setArmed, emit_setChn]
  · intro hi hc
    rw [exec_txReady_sends hi hc, emit_setRb]
    rfl

end Sys2Proof.Machine

/-! The extraction steps of CH_GETFRAME (spec/42_framechannel.md R159, R160, R162): what each of them leaves unchanged, what the step that
goes on stores, and what a finish answers. -/

namespace Sys2Proof.Machine

/-! What every extraction step leaves unchanged. -/

theorem storeByte_gfFinish (ch : Ch) (o : Extraction) (s : State) (b : BufId) (j : Nat) :
    (gfFinish ch o s).storeByte b j = s.storeByte b j := storeByte_congr (by rw [rb_gfFinish]) j

theorem storeByte_storePayload (ch : Ch) (v : Byte) (s : State) (b : BufId) (j : Nat) :
    (storePayload ch v s).storeByte b j = s.storeByte b j := by
  rw [storePayload, storeByte_setChn, storeByte_popped]

theorem sameStorage_gfExtract (ch : Ch) (s : State) : SameStorage s (gfExtract ch s) := by
  intro b j
  rcases gfExtract_cases ch s with e | e | e | e <;> rw [e]
  · exact storeByte_storePayload ..
  · exact storeByte_gfFinish ..
  · rw [storeByte_gfFinish, storeByte_popped]
  · rw [storeByte_gfFinish, storeByte_storePayload]

theorem chn_storePayload_ne (ch : Ch) (v : Byte) (s : State) {ch' : Ch} (h : ch' ≠ ch) :
    (storePayload ch v s).chn ch' = s.chn ch' := by
  rw [storePayload, State.chn_setChn_ne _ _ h, State.chn_setRb]

theorem chn_gfExtract_ne (ch : Ch) (s : State) {ch' : Ch} (h : ch' ≠ ch) : (gfExtract ch s).chn ch' = s.chn ch' := by
  rcases gfExtract_cases ch s with e | e | e | e <;> rw [e]
  · exact chn_storePayload_ne _ _ _ h
  · exact chn_gfFinish_ne _ _ _ h
  · rw [chn_gfFinish_ne _ _ _ h, State.chn_setRb]
  · rw [chn_gfFinish_ne _ _ _ h, chn_storePayload_ne _ _ _ h]

/-- Storage, TX and the flag of the channel, the timers, the tick and the other channel are as before. -/
structure ExtractionFrame (ch : Ch) (s t : State) : Prop where
  armed   : (t.chn ch).armed = (s.chn ch).armed
  storage : SameStorage s t
  timers  : SameTimers s t
  tick    : t.tick = s.tick
  tx      : t.rb (txOf ch) = s.rb (txOf ch)
  others  : ∀ ch', ch' ≠ ch → SameChannel ch' s t

theorem gfExtract_frame (ch : Ch) (s : State) : ExtractionFrame ch s (gfExtract ch s) where
  armed := armed_gfExtract ch ch s
  storage := sameStorage_gfExtract ch s
  timers := sameTimers_gfExtract ch s
  tick := gfExtract_tick ch s
  tx := rb_gfExtract_ne ch s (by simp)
  others := fun ch' h => ⟨chn_gfExtract_ne ch s h, fun buf => rb_gfExtract_ne ch s (by simp [h])⟩

/-- FG's step during an extraction is an extraction step, whatever moves follow. -/
theorem step_fg_getFrame {ch : Ch} {s : State} {rest : List Move} (hm : s.moves = .fg :: rest) (hf : s.fg = .getFrame ch) :
    step s = .next ((gfExtract ch s).withMoves rest) := by
  rw [step_fg hm, fgStep?_getFrame (s := { s with moves := rest }) hf, ← gfExtract_withMoves]
  rfl

/-! The step that goes on. -/

theorem chn_storePayload (ch : Ch) (v : Byte) (s : State) : (storePayload ch v s).chn ch =
    { s.chn ch with frameBuf := (s.chn ch).frameBuf.set (s.chn ch).gfK v, gfK := (s.chn ch).gfK + 1 } :=
  State.chn_setChn_same ..

theorem rb_storePayload (ch : Ch) (v : Byte) (s : State) :
    (storePayload ch v s).rb (rxOf ch) = (s.rb (rxOf ch)).popped := by
  rw [storePayload, State.rb_setChn, State.rb_setRb_same]

/-- The payload byte is stored at the cursor, and no other frame byte is written. -/
theorem frameByte_storePayload (ch : Ch) (v : Byte) (s : State) (j : Nat) :
    (storePayload ch v s).frameByte ch j = if j = (s.chn ch).gfK then v else s.frameByte ch j := by
  rw [State.frameByte, chn_storePayload, Memory.get?_set]
  split
  · rfl
  · rfl

@[simp] theorem storePayload_status (ch : Ch) (v : Byte) (s : State) : (storePayload ch v s).status = s.status := by
  simp [storePayload]

@[simp] theorem storePayload_result (ch : Ch) (v : Byte) (s : State) : (storePayload ch v s).result = s.result := by
  simp [storePayload]

@[simp] theorem storePayload_trace (ch : Ch) (v : Byte) (s : State) : (storePayload ch v s).trace = s.trace := by
  simp [storePayload]

@[simp] theorem storePayload_fg (ch : Ch) (v : Byte) (s : State) : (storePayload ch v s).fg = s.fg := by
  simp [storePayload]

/-- Settles O34: the step is `storePayload`. -/
theorem extractionStepStoresThePayloadByte : Obligations.ExtractionStepStoresThePayloadByte := by
  intro ch s rest hm hf hi hc hv hk
  have frame := gfExtract_frame ch s
  refine ⟨_, step_fg_getFrame hm hf, rfl, ?_⟩
  show (gfExtract ch s).fg = _ ∧ (gfExtract ch s).frameByte ch _ = _ ∧ ((gfExtract ch s).chn ch).gfK = _ ∧ _
  rw [gfExtract_payload hi hc hv hk] at frame ⊢
  refine ⟨?fg, ?byte, ?cursor, ?rx, ?pending, frame.armed, ?len, ?bytes, frame.storage, ?status, ?result, ?trace, frame.timers,
    frame.tick, frame.tx, frame.others⟩
  case fg => rw [storePayload_fg, hf]
  case byte => rw [frameByte_storePayload, if_pos rfl]
  case cursor => rw [chn_storePayload]
  case rx => exact rb_storePayload ..
  case pending => exact pending_storePayload ..
  case len => exact (congrArg Channel.frameLen (chn_storePayload ch _ s)).trans rfl
  case bytes => exact fun j hj => (frameByte_storePayload ch _ s j).trans (if_neg hj)
  case status => exact storePayload_status ..
  case result => exact storePayload_result ..
  case trace => exact storePayload_trace ..

/-! The steps that finish. -/

theorem trace_gfFinish (ch : Ch) (o : Extraction) (s : State) : (gfFinish ch o s).trace =
    s.trace ++ [.resp Opcode.chGetFrame.code (outputStatus ch o s) (BitVec.ofNat 32 (outputLen ch o s))] := by
  rw [gfFinish_eq, respond_trace]
  exact congrArg (· ++ _) (s.setChn_trace ch _)

/-- An extraction that finds RX empty, or stores the cap-th byte, finishes with FrameError, from a state that RX has lost the byte of (R159). -/
theorem gfExtract_eq_frameError {ch : Ch} {s : State} (hi : (s.rb (rxOf ch)).init = true)
    (h : (s.rb (rxOf ch)).count = 0 ∨
      (s.storeByte (rxOf ch) (s.rb (rxOf ch)).tail ≠ Config.term ch ∧ (s.chn ch).gfK + 1 = (s.rb (rxOf ch)).cap)) :
    ∃ u, gfExtract ch s = gfFinish ch .frameError u ∧ (u.chn ch).pending = (s.chn ch).pending ∧ u.trace = s.trace ∧
      u.rb (rxOf ch) = if (s.rb (rxOf ch)).count = 0 then s.rb (rxOf ch) else (s.rb (rxOf ch)).popped := by
  by_cases hc : (s.rb (rxOf ch)).count = 0
  · exact ⟨s, gfExtract_drained hi hc, rfl, rfl, (if_pos hc).symm⟩
  · obtain ⟨hv, hk⟩ := h.resolve_left hc
    exact ⟨_, gfExtract_overlong hi hc hv hk, pending_storePayload .., storePayload_trace ..,
      (rb_storePayload ..).trans (if_neg hc).symm⟩

/-- Settles O35: in both cases of `gfExtract_eq_frameError` the finish answers FrameError with a zero-length output. -/
theorem extractionStepFinishesWithFrameError : Obligations.ExtractionStepFinishesWithFrameError := by
  intro ch s rest hm hf hi h
  have frame := gfExtract_frame ch s
  obtain ⟨u, e, hpending, htrace, hrx⟩ := gfExtract_eq_frameError hi h
  refine ⟨_, step_fg_getFrame hm hf, rfl, ?_⟩
  rw [e] at frame ⊢
  refine ⟨?fg, ?pending, ?len, ?byte, frame.armed, ?rx, frame.storage, ?status, ?result, ?trace, frame.timers, frame.tick, frame.tx,
    frame.others⟩
  case fg => exact fg_gfFinish ..
  case pending => exact ((pending_gfFinish ..).trans (if_pos rfl)).trans (by rw [hpending])
  case len => exact congrArg Channel.frameLen (chn_gfFinish ..)
  case byte =>
    show (gfFinish ch .frameError u).frameByte ch 0 = 0x00
    rw [State.frameByte, chn_gfFinish, outputLen, get?_output]
    rfl
  case rx => exact (rb_gfFinish ..).trans hrx
  case status => exact congrArg State.status (gfFinish_eq ..)
  case result => exact congrArg State.result (gfFinish_eq ..)
  case trace => exact (trace_gfFinish ..).trans (by rw [htrace]; rfl)

/-- The CR filter applies to a frame of one byte, CR, on a filtering channel (R162). -/
theorem crFiltered_iff {ch : Ch} {n : Nat} {s : State} :
    crFiltered ch n s = true ↔ Config.filterCr ch = true ∧ n = 1 ∧ s.frameByte ch 0 = Config.cr := by
  simp [crFiltered, and_assoc]

/-- Settles O36: the finish with the frame, from the state whose RX has lost the terminator, filtered or not. -/
theorem extractionStepFinishesTheFrame : Obligations.ExtractionStepFinishesTheFrame := by
  rintro ch s rest n hm hf hi hc hv rfl
  have frame := gfExtract_frame ch s
  refine ⟨_, step_fg_getFrame hm hf, rfl, ?_⟩
  have hfilter : crFiltered ch (s.chn ch).gfK (s.setRb (rxOf ch) (s.rb (rxOf ch)).popped) = true ↔
      Config.filterCr ch = true ∧ (s.chn ch).gfK = 1 ∧ s.frameByte ch 0 = Config.cr := by
    rw [crFiltered_iff, frameByte_setRb]
  rw [gfExtract_terminator hi hc hv] at frame ⊢
  refine ⟨?fg, ?pending, frame.armed, ?rx, frame.storage, frame.timers, frame.tick, frame.tx, frame.others, ?discarded, ?kept⟩
  case fg => exact fg_gfFinish ..
  case pending => exact ((pending_gfFinish ..).trans (if_pos rfl)).trans (by rw [State.chn_setRb])
  case rx => exact (rb_gfFinish ..).trans (State.rb_setRb_same ..)
  case discarded =>
    intro hcr
    have hcr := hfilter.mpr hcr
    obtain ⟨hlen, hend, hstatus, hresult⟩ := gfFinish_filtered hcr
    refine ⟨hlen, hend, hstatus, hresult, (trace_gfFinish ..).trans ?_⟩
    rw [outputStatus, outputLen, if_pos hcr, if_pos hcr, State.setRb_trace]
    rfl
  case kept =>
    intro hcr
    have hcr := mt hfilter.mp hcr
    obtain ⟨hlen, hbytes, hend, hstatus, hresult⟩ := gfFinish_unfiltered hcr
    refine ⟨hlen, hend, fun j hj hstored => ?byte, hstatus, hresult, (trace_gfFinish ..).trans ?_⟩
    case byte =>
      obtain ⟨v, hv⟩ := Option.isSome_iff_exists.mp hstored
      have hkept := (hbytes j hj).trans (by rw [State.chn_setRb, hv])
      exact (congrArg (Option.getD · _) hkept).trans (by rw [State.frameByte, hv]; rfl)
    rw [outputStatus, outputLen, if_neg hcr, if_neg hcr, State.setRb_trace]
    rfl

end Sys2Proof.Machine

/-! What an instruction can do to a ring buffer (spec/10_state.md R27; spec/42_framechannel.md R151 to R158), and from it the frame of the
channel instructions (spec/60_exceptions.md R204). -/

namespace Sys2Proof.Machine

/-! The instructions that write a buffer. -/

/-- RB_INIT of `b`, or CH_INIT of its channel. -/
def Initializes (b : BufId) (c : Word) (i : Instr) : Prop := i = .rbInit b c ∨ i = .chInit b.ch c

/-- RB_PUSH into `b`, CH_SEND where it is a TX buffer, RX_BYTE where it is an RX buffer. -/
def PushesInto (b : BufId) (v : Byte) (i : Instr) : Prop :=
  i = .rbPush b v ∨ (b.buf = .tx ∧ i = .chSend b.ch v) ∨ (b.buf = .rx ∧ i = .rxByte b.ch v)

/-- RB_POP of `b`, TX_READY where it is a TX buffer, CH_RECV where it is an RX buffer. -/
def PopsFrom (b : BufId) (i : Instr) : Prop :=
  i = .rbPop b ∨ (b.buf = .tx ∧ i = .txReady b.ch) ∨ (b.buf = .rx ∧ i = .chRecv b.ch)

theorem pushesInto_chSend_iff {b : BufId} {ch : Ch} {v v' : Byte} : PushesInto b v' (.chSend ch v) ↔ b = txOf ch ∧ v' = v := by
  obtain ⟨ch', _ | _⟩ := b <;> simp [PushesInto, eq_comm]

theorem pushesInto_rxByte_iff {b : BufId} {ch : Ch} {v v' : Byte} : PushesInto b v' (.rxByte ch v) ↔ b = rxOf ch ∧ v' = v := by
  obtain ⟨ch', _ | _⟩ := b <;> simp [PushesInto, eq_comm]

theorem popsFrom_txReady (ch : Ch) : PopsFrom (txOf ch) (.txReady ch) := .inr (.inl ⟨rfl, rfl⟩)

theorem popsFrom_chRecv (ch : Ch) : PopsFrom (rxOf ch) (.chRecv ch) := .inr (.inr ⟨rfl, rfl⟩)

/-- The instructions that can write buffer `b`. -/
def WritesRing (b : BufId) (i : Instr) : Prop := (∃ c, Initializes b c i) ∨ (∃ v, PushesInto b v i) ∨ PopsFrom b i

theorem channelOf_of_writesRing {b : BufId} {i : Instr} (h : WritesRing b i) : channelOf i = some b.ch := by
  rcases h with ⟨c, rfl | rfl⟩ | ⟨v, rfl | ⟨-, rfl⟩ | ⟨-, rfl⟩⟩ | rfl | ⟨-, rfl⟩ | ⟨-, rfl⟩ <;> rfl

/-- How an instruction can leave buffer `b`: as it was, emptied, or with a byte pushed or popped (R100 to R102). -/
inductive RingWrite (b : BufId) (s : State) (i : Instr) : Ring → Prop
  | kept : RingWrite b s i (s.rb b)
  | emptied (c : Word) (hi : Initializes b c i) (h0 : c ≠ 0) (h1 : c.toNat ≤ Config.storeSize b.ch) :
      RingWrite b s i ((s.rb b).emptied c)
  | pushed (v : Byte) (hi : PushesInto b v i) (hinit : (s.rb b).init = true) (hc : (s.rb b).count ≠ (s.rb b).cap) :
      RingWrite b s i ((s.rb b).pushed v)
  | popped (hi : PopsFrom b i) (hinit : (s.rb b).init = true) (hc : (s.rb b).count ≠ 0) : RingWrite b s i (s.rb b).popped

/-- A buffer kept, said by an equation. -/
theorem RingWrite.of_eq {b : BufId} {s : State} {i : Instr} {r : Ring} (h : r = s.rb b) : RingWrite b s i r := h ▸ .kept

theorem ringWrite_rbInit {b' : BufId} {c : Word} {i : Instr} (hi : Initializes b' c i) (s : State) (b : BufId) :
    RingWrite b s i ((rbInit b' c s).2.rb b) := by
  rcases rbInit_cases b' c s with ⟨-, e⟩ | ⟨h0, h1, e⟩ <;> rw [e]
  · exact .kept
  · rw [State.rb_setRb]
    split
    · rename_i hb; subst hb; exact .emptied c hi h0 h1
    · exact .kept

theorem ringWrite_rbPush {b' : BufId} {v : Byte} {i : Instr} (hi : PushesInto b' v i) (s : State) (b : BufId) :
    RingWrite b s i ((rbPush b' v s).2.rb b) := by
  rcases rbPush_cases b' v s with ⟨-, e⟩ | ⟨-, -, e⟩ | ⟨hinit, hc, e⟩ <;> rw [e]
  · exact .kept
  · exact .kept
  · rw [State.rb_setRb]
    split
    · rename_i hb; subst hb; exact .pushed v hi hinit hc
    · exact .kept

theorem ringWrite_rbPop {b' : BufId} {i : Instr} (hi : PopsFrom b' i) (s : State) (b : BufId) :
    RingWrite b s i ((rbPop b' s).2.2.rb b) := by
  rcases rbPop_cases b' s with ⟨-, e⟩ | ⟨-, -, e⟩ | ⟨hinit, hc, e⟩ <;> rw [e]
  · exact .kept
  · exact .kept
  · rw [State.rb_setRb]
    split
    · rename_i hb; subst hb; exact .popped hi hinit hc
    · exact .kept

theorem exec_ringWrite {i : Instr} {s t : State} (he : exec i s = .next t) (b : BufId) : RingWrite b s i (t.rb b) := by
  cases i with
  | rbInit b' c => cases he; exact ringWrite_rbInit (.inl rfl) s b
  | rbPush b' v => cases he; exact ringWrite_rbPush (.inl rfl) s b
  | rbPop b' => cases he; exact ringWrite_rbPop (.inl rfl) s b
  | rbIsEmpty b' => cases he; split <;> exact .kept
  | chInit ch c =>
    rcases exec_chInit_cases ch c s with ⟨-, e⟩ | ⟨h0, h1, e⟩ <;> cases e.symm.trans he
    · exact .kept
    · rw [rb_respond, State.rb_setChn, rb_rbInit_rbInit s h0 h1]
      split
      · rename_i hb; subst hb; exact .emptied c (.inr rfl) h0 h1
      · exact .kept
  | chSend ch v =>
    rcases exec_chSend_cases ch v s with ⟨-, e⟩ | ⟨-, e⟩ <;> cases e.symm.trans he
    · exact .kept
    · rw [rb_respond, State.rb_setArmed]
      exact ringWrite_rbPush (pushesInto_chSend_iff.mpr ⟨rfl, rfl⟩) s b
  | chRecv ch =>
    rcases exec_chRecv_cases ch s with e | ⟨-, e⟩ | e <;> cases e.symm.trans he
    · exact .kept
    · exact .kept
    · exact ringWrite_rbPop (popsFrom_chRecv ch) s b
  | chGetFrame ch =>
    rcases exec_chGetFrame_cases ch s with ⟨st, -, e⟩ | ⟨-, e⟩ <;> cases e.symm.trans he
    · exact .kept
    · exact .of_eq (s.rb_setChn ch _ b)
  | chPending ch => cases he; exact .kept
  | rxByte ch v =>
    have hpush := ringWrite_rbPush (pushesInto_rxByte_iff.mpr ⟨rfl, rfl⟩ : PushesInto (rxOf ch) v (.rxByte ch v)) s b
    rcases exec_rxByte_cases ch v s with e | ⟨-, -, ⟨-, e⟩ | ⟨-, e⟩⟩ <;> cases e.symm.trans he
    · exact .kept
    · exact hpush
    · rwa [State.rb_setChn]
  | txReady ch =>
    rcases exec_txReady_cases ch s with ⟨-, e⟩ | ⟨v, e⟩ <;> cases e.symm.trans he
    · exact .of_eq (s.rb_setArmed ch false b)
    · exact ringWrite_rbPop (popsFrom_txReady ch) s b
  | tick => cases he; exact .kept
  | _ => exact .of_eq ((exec_timerCommand_outsideTimersKept rfl (by simp) he).rb b)

/-! What follows for a buffer. -/

/-- An instruction that is none of its writers keeps a buffer. -/
theorem exec_keeps_rb {i : Instr} {s t : State} {b : BufId} (h : ¬WritesRing b i) (he : exec i s = .next t) : t.rb b = s.rb b := by
  have hw := exec_ringWrite he b
  generalize t.rb b = r at hw
  cases hw with
  | kept => rfl
  | emptied c hi _ _ => exact absurd (.inl ⟨c, hi⟩) h
  | pushed v hi _ _ => exact absurd (.inr (.inl ⟨v, hi⟩)) h
  | popped hi _ _ => exact absurd (.inr (.inr hi)) h

/-- An instruction that pushes into a buffer moves neither its capacity nor its tail (R101). -/
theorem exec_push_keeps_init_cap_tail {i : Instr} {s t : State} {b : BufId} {v : Byte} (hpush : PushesInto b v i)
    (he : exec i s = .next t) : (t.rb b).init = (s.rb b).init ∧ (t.rb b).cap = (s.rb b).cap ∧ (t.rb b).tail = (s.rb b).tail := by
  have hw := exec_ringWrite he b
  generalize t.rb b = r at hw
  cases hw with
  | kept => exact ⟨rfl, rfl, rfl⟩
  | emptied c hi _ _ => rcases hpush with rfl | ⟨-, rfl⟩ | ⟨-, rfl⟩ <;> simp [Initializes] at hi
  | pushed v' _ _ _ => exact ⟨rfl, rfl, rfl⟩
  | popped hi _ _ => rcases hpush with rfl | ⟨-, rfl⟩ | ⟨-, rfl⟩ <;> simp [PopsFrom] at hi

/-- An instruction writes no stored byte but the one at the head of a buffer it pushes into, where the push is admitted (R101; log 4). -/
theorem exec_keeps_storeByte {i : Instr} {s t : State} {b : BufId} {j : Nat} (he : exec i s = .next t)
    (h : ¬(j = (s.rb b).head ∧ (s.rb b).init = true ∧ (s.rb b).count ≠ (s.rb b).cap ∧ ∃ v, PushesInto b v i)) :
    t.storeByte b j = s.storeByte b j := by
  have hw := exec_ringWrite he b
  unfold State.storeByte
  generalize t.rb b = r at hw
  cases hw with
  | kept => rfl
  | emptied c _ _ _ => rfl
  | pushed v hi hinit hc =>
    have hj : j ≠ (s.rb b).head := fun hj => h ⟨hj, hinit, hc, v, hi⟩
    rw [Ring.pushed, Memory.get?_set_ne _ _ hj]
  | popped _ _ _ => rfl

/-! What follows for a channel. -/

section
variable {ch : Ch} {s : State} {i : Instr} {c : Channel}

theorem ChannelWrite.eq_of_other (h : ChannelWrite ch s i c) (hi : channelOf i ≠ some ch) : c = s.chn ch := by
  cases h with
  | kept => rfl
  | _ => exact absurd rfl hi

/-- No instruction writes the frame output: the extraction steps do (R37). -/
theorem ChannelWrite.output_kept (h : ChannelWrite ch s i c) :
    c.frameBuf = (s.chn ch).frameBuf ∧ c.frameLen = (s.chn ch).frameLen ∧ c.draws = (s.chn ch).draws := by
  cases h <;> exact ⟨rfl, rfl, rfl⟩

theorem ChannelWrite.gfK_kept (h : ChannelWrite ch s i c) (hi : i ≠ .chGetFrame ch) : c.gfK = (s.chn ch).gfK := by
  cases h with
  | frameBegun => exact absurd rfl hi
  | _ => rfl

theorem ChannelWrite.pending_kept (h : ChannelWrite ch s i c) (hinit : ∀ c, i ≠ .chInit ch c) (hrx : ∀ v, i ≠ .rxByte ch v) :
    c.pending = (s.chn ch).pending := by
  cases h with
  | initialized c _ _ => exact absurd rfl (hinit c)
  | frameArrived _ _ => exact absurd rfl (hrx _)
  | _ => rfl

theorem ChannelWrite.armed_kept (h : ChannelWrite ch s i c) (hinit : ∀ c, i ≠ .chInit ch c) (hsend : ∀ v, i ≠ .chSend ch v)
    (htx : i ≠ .txReady ch) : c.armed = (s.chn ch).armed := by
  cases h with
  | initialized c _ _ => exact absurd rfl (hinit c)
  | armed v => exact absurd rfl (hsend v)
  | disarmed _ => exact absurd rfl htx
  | _ => rfl

end

/-! The frame. -/

/-- An instruction leaves the moves to come. -/
theorem moves_exec {i : Instr} {s t : State} (he : exec i s = .next t) : t.moves = s.moves := by
  have e : exec i s = onMoves s.moves (exec i s) := exec_withMoves i s s.moves
  rw [he] at e
  exact (congrArg State.moves (Host.Outcome.next.inj e)).trans rfl

theorem exec_sameFrameBytes {i : Instr} {s t : State} (he : exec i s = .next t) : SameFrameBytes s t := by
  intro ch j
  obtain ⟨hbuf, -, hdraws⟩ := (exec_channelWrite he ch).output_kept
  exact frameByte_congr hbuf hdraws j

/-- An instruction of one channel leaves the other channel (R204). -/
theorem exec_sameChannel {i : Instr} {s t : State} {ch : Ch} (hi : channelOf i ≠ some ch) (he : exec i s = .next t) :
    SameChannel ch s t :=
  ⟨(exec_channelWrite he ch).eq_of_other hi, fun _ => exec_keeps_rb (fun hw => hi (channelOf_of_writesRing hw)) he⟩

theorem exec_chInit_fg {ch : Ch} {c : Word} {s t : State} (he : exec (.chInit ch c) s = .next t) : t.fg = s.fg := by
  rcases exec_chInit_cases ch c s with ⟨-, e⟩ | ⟨-, -, e⟩ <;> cases e.symm.trans he
  · rfl
  · simp

theorem exec_chSend_fg {ch : Ch} {v : Byte} {s t : State} (he : exec (.chSend ch v) s = .next t) : t.fg = s.fg := by
  rcases exec_chSend_cases ch v s with ⟨-, e⟩ | ⟨-, e⟩ <;> cases e.symm.trans he
  · rfl
  · simp

theorem exec_rxByte_fg {ch : Ch} {v : Byte} {s t : State} (he : exec (.rxByte ch v) s = .next t) : t.fg = s.fg := by
  rcases exec_rxByte_cases ch v s with e | ⟨-, -, ⟨-, e⟩ | ⟨-, e⟩⟩ <;> cases e.symm.trans he
  · rfl
  · simp
  · simp

/-- TX_READY leaves FG and the response registers (R154). -/
theorem exec_txReady_fg_response {ch : Ch} {s t : State} (he : exec (.txReady ch) s = .next t) :
    t.fg = s.fg ∧ t.status = s.status ∧ t.result = s.result := by
  rcases exec_txReady_cases ch s with ⟨-, e⟩ | ⟨v, e⟩ <;> cases e.symm.trans he
  · simp
  · simp

/-- Settles O42: outside the channel by `exec_sameChannel`, the storage by `exec_keeps_storeByte`, the buffers by `exec_ringWrite` and the
channel's own fields by `exec_channelWrite`. -/
theorem channelInstructionFrame : Obligations.ChannelInstructionFrame := by
  intro ch i s t hi he
  have hch : channelOf i = some ch := by
    rcases hi with ⟨c, rfl⟩ | ⟨v, rfl⟩ | rfl | rfl | rfl | ⟨v, rfl⟩ | rfl <;> rfl
  have hw := exec_channelWrite he ch
  refine ⟨?others, exec_channel_sameTimers (by simp [hch]) he, exec_channel_tick (by simp [hch]) he, moves_exec he,
    exec_sameFrameBytes he, hw.output_kept.2.1, ?send, ?rxByte, ?storage, ?init, ?recv, ?getFrame, ?txReady⟩
  case others => exact fun ch' hne => exec_sameChannel (by simpa [hch] using hne.symm) he
  case send =>
    rintro v rfl
    obtain ⟨hinit, hcap, htail⟩ := exec_push_keeps_init_cap_tail (pushesInto_chSend_iff.mpr ⟨rfl, rfl⟩) he
    refine ⟨exec_keeps_rb (by simp [WritesRing, Initializes, PushesInto, PopsFrom]) he, exec_chSend_fg he, hinit, hcap, htail,
      hw.pending_kept (by simp) (by simp), hw.gfK_kept (by simp), fun b j hno => exec_keeps_storeByte he ?_⟩
    rintro ⟨hj, hi, hc, v', hpush⟩
    obtain ⟨rfl, -⟩ := pushesInto_chSend_iff.mp hpush
    exact hno ⟨rfl, hj, hi, hc⟩
  case rxByte =>
    rintro v rfl
    obtain ⟨hinit, hcap, htail⟩ := exec_push_keeps_init_cap_tail (pushesInto_rxByte_iff.mpr ⟨rfl, rfl⟩) he
    refine ⟨exec_keeps_rb (by simp [WritesRing, Initializes, PushesInto, PopsFrom]) he, exec_rxByte_fg he, hinit, hcap, htail,
      hw.armed_kept (by simp) (by simp) (by simp), hw.gfK_kept (by simp), fun b j hno => exec_keeps_storeByte he ?_⟩
    rintro ⟨hj, hi, hc, v', hpush⟩
    obtain ⟨rfl, -⟩ := pushesInto_rxByte_iff.mp hpush
    exact hno ⟨rfl, hj, hi, hc⟩
  case storage =>
    intro hno b j
    refine exec_keeps_storeByte he ?_
    rintro ⟨-, -, -, v, rfl | ⟨-, rfl⟩ | ⟨-, rfl⟩⟩
    · simp at hi
    · obtain rfl : b.ch = ch := Option.some.inj hch
      exact (hno v).1 rfl
    · obtain rfl : b.ch = ch := Option.some.inj hch
      exact (hno v).2 rfl
  case init =>
    rintro ⟨c, rfl⟩
    exact ⟨exec_chInit_fg he, hw.gfK_kept (by simp)⟩
  case recv =>
    rintro rfl
    refine ⟨exec_keeps_rb (by simp [WritesRing, Initializes, PushesInto, PopsFrom]) he, ?_⟩
    generalize t.chn ch = c at hw
    cases hw
    rfl
  case getFrame =>
    rintro rfl
    exact ⟨fun b => exec_keeps_rb (by simp [WritesRing, Initializes, PushesInto, PopsFrom]) he,
      hw.pending_kept (by simp) (by simp), hw.armed_kept (by simp) (by simp) (by simp)⟩
  case txReady =>
    rintro rfl
    obtain ⟨hfg, hstatus, hresult⟩ := exec_txReady_fg_response he
    exact ⟨exec_keeps_rb (by simp [WritesRing, Initializes, PushesInto, PopsFrom]) he, hfg, hstatus, hresult,
      hw.pending_kept (by simp) (by simp), hw.gfK_kept (by simp)⟩

end Sys2Proof.Machine

/-! The transmit side (spec/42_framechannel.md R152 to R156): what a poll takes from TX, what every other step leaves of TX and of the bytes
on the wire, and the whole queue sent, by listed polls and in a fair run. -/

namespace Sys2Proof.Machine

/-! The bytes on the wire. -/

theorem wireBytes_append (ch : Ch) (es fs : List TraceEvent) : wireBytes ch (es ++ fs) = wireBytes ch es ++ wireBytes ch fs := by
  induction es with
  | nil => rfl
  | cons e es ih =>
    cases e with
    | tx ch' v => by_cases hch : ch' = ch <;> simp [wireBytes, hch, ih]
    | resp op st r => exact ih
    | txIdle ch' => exact ih
    | trig j => exact ih
    | rxDrop ch' v => exact ih

/-- From `s` to `t` no byte of channel `ch` is put on the wire. -/
def KeepsWire (ch : Ch) (s t : State) : Prop := wireBytes ch t.trace = wireBytes ch s.trace

section
variable {ch : Ch} {s u : State}

theorem KeepsWire.of_trace (h : u.trace = s.trace) : KeepsWire ch s u := congrArg (wireBytes ch) h

theorem KeepsWire.of_emit {e : TraceEvent} (he : wireBytes ch [e] = []) (h : u.trace = s.trace) : KeepsWire ch s (emit e u) := by
  rw [KeepsWire, emit_trace, wireBytes_append, he, List.append_nil, h]

theorem KeepsWire.of_respond (op : Byte) (st : Status) (r : Word) (h : u.trace = s.trace) : KeepsWire ch s (respond op st r u) :=
  .of_emit (u := { u with status := st.code, result := r }) rfl h

end

theorem keepsWire_onSlot (ch : Ch) (op : Byte) (id : Nat) (f : Slot → Slot) (s : State) : KeepsWire ch s (onSlot op id f s) := by
  unfold onSlot
  split
  · exact .of_respond _ _ _ (s.modifySlot_trace id f)
  · exact .of_respond _ _ _ rfl

theorem keepsWire_recvPop {s u : State} (ch ch' : Ch) (h : u.trace = s.trace) : KeepsWire ch s (recvPop ch' u) :=
  .of_respond _ _ _ ((rbPop_trace ..).trans h)

theorem keepsWire_gfFinish {s u : State} (ch ch' : Ch) (o : Extraction) (h : u.trace = s.trace) :
    KeepsWire ch s (gfFinish ch' o u) := by
  rw [gfFinish_eq]
  exact .of_respond _ _ _ ((u.setChn_trace ch' _).trans h)

theorem keepsWire_gfExtract (ch ch' : Ch) (s : State) : KeepsWire ch s (gfExtract ch' s) := by
  rcases gfExtract_cases ch' s with e | e | e | e <;> rw [e]
  · exact .of_trace (storePayload_trace ..)
  · exact keepsWire_gfFinish ch ch' _ rfl
  · exact keepsWire_gfFinish ch ch' _ (s.setRb_trace ..)
  · exact keepsWire_gfFinish ch ch' _ (storePayload_trace ..)

theorem keepsWire_seqVisit (ch : Ch) (s : State) : KeepsWire ch s (seqVisit s) := by
  rcases seqVisit_cases s with e | e <;> rw [e]
  · exact .of_trace (visited_trace s)
  · exact .of_emit (u := { visited s with seq := _ }) rfl (visited_trace s)

/-- TX_READY of a channel alone puts bytes of that channel on the wire (R154). -/
theorem exec_keepsWire {i : Instr} {s t : State} {ch : Ch} (hi : i ≠ .txReady ch) (he : exec i s = .next t) : KeepsWire ch s t := by
  cases i with
  | rbInit b c => cases he; exact .of_respond _ _ _ (rbInit_trace b c s)
  | rbPush b v => cases he; exact .of_respond _ _ _ (rbPush_trace b v s)
  | rbPop b => cases he; exact .of_respond _ _ _ (rbPop_trace b s)
  | rbIsEmpty b => cases he; split <;> exact .of_respond _ _ _ rfl
  | tmrRegister period cb => cases he; split <;> exact .of_respond _ _ _ rfl
  | tmrStart id => cases he; exact keepsWire_onSlot ..
  | tmrPause id => cases he; exact keepsWire_onSlot ..
  | tmrResume id => cases he; exact keepsWire_onSlot ..
  | tmrAdvance e =>
    cases he
    split
    · exact .of_respond _ _ _ rfl
    · exact .of_trace rfl
  | tmrElapsed start threshold => cases he; exact .of_respond _ _ _ rfl
  | tickRead => cases he; exact .of_respond _ _ _ rfl
  | tickDelta cur prev => cases he; exact .of_respond _ _ _ rfl
  | cbDone => cases he; split <;> exact .of_respond _ _ _ rfl
  | chInit ch' c =>
    rcases exec_chInit_cases ch' c s with ⟨-, e⟩ | ⟨-, -, e⟩ <;> cases e.symm.trans he
    · exact .of_respond _ _ _ rfl
    · exact .of_respond _ _ _ (by simp)
  | chSend ch' v =>
    rcases exec_chSend_cases ch' v s with ⟨-, e⟩ | ⟨-, e⟩ <;> cases e.symm.trans he
    · exact .of_respond _ _ _ rfl
    · exact .of_respond _ _ _ (by simp)
  | chRecv ch' =>
    rcases exec_chRecv_cases ch' s with e | ⟨-, e⟩ | e <;> cases e.symm.trans he
    · exact .of_respond _ _ _ rfl
    · exact .of_trace rfl
    · exact keepsWire_recvPop ch ch' rfl
  | chGetFrame ch' =>
    rcases exec_chGetFrame_cases ch' s with ⟨st, -, e⟩ | ⟨-, e⟩ <;> cases e.symm.trans he
    · exact .of_respond _ _ _ rfl
    · exact .of_trace (s.setChn_trace ch' _)
  | chPending ch' => cases he; exact .of_respond _ _ _ rfl
  | rxByte ch' v =>
    rcases exec_rxByte_cases ch' v s with e | ⟨-, -, ⟨-, e⟩ | ⟨-, e⟩⟩ <;> cases e.symm.trans he
    · exact .of_emit rfl rfl
    · exact .of_trace (by simp)
    · exact .of_trace (by simp)
  | txReady ch' =>
    have hne : ch' ≠ ch := fun e => hi (congrArg _ e)
    rcases exec_txReady_cases ch' s with ⟨-, e⟩ | ⟨v, e⟩ <;> cases e.symm.trans he
    · exact .of_emit rfl (by simp)
    · exact .of_emit (if_neg hne) (by simp)
  | tick => cases he; exact .of_trace rfl

/-! What a step that neither polls a channel nor removes bytes from its TX leaves of them. -/

/-- TX of the channel keeps its bytes, more may have been sent, and none is put on the wire. -/
structure TxKept (ch : Ch) (s t : State) : Prop where
  queue : ∃ more, t.queue (txOf ch) = s.queue (txOf ch) ++ more
  wire  : KeepsWire ch s t

theorem TxKept.of_rb {ch : Ch} {s t : State} (h : t.rb (txOf ch) = s.rb (txOf ch)) (hwire : KeepsWire ch s t) : TxKept ch s t :=
  ⟨⟨[], by rw [queue_congr h, List.append_nil]⟩, hwire⟩

/-- Which moves were to come does not matter. -/
theorem TxKept.of_withMoves {ch : Ch} {s t : State} {ms : List Move} (h : TxKept ch (s.withMoves ms) t) : TxKept ch s t :=
  ⟨h.queue, h.wire⟩

theorem exec_txKept {i : Instr} {s t : State} {ch : Ch} (h : BlockInv s) (hpoll : i ≠ .txReady ch)
    (hno : ¬removesUnsent ch (some i)) (he : exec i s = .next t) : TxKept ch s t := by
  refine ⟨?queue, exec_keepsWire hpoll he⟩
  have hw := exec_ringWrite he (txOf ch)
  generalize hr : t.rb (txOf ch) = r at hw
  cases hw with
  | kept => exact ⟨[], by rw [queue_congr hr, List.append_nil]⟩
  | emptied c hi h0 h1 =>
    exact absurd (.inr ⟨c, (legalCapacity_iff ch c).mpr ⟨h0, h1⟩, hi.imp (congrArg some) (congrArg some)⟩) hno
  | pushed v _ hinit hc =>
    exact ⟨[v], (queue_congr (by rw [hr, State.rb_setRb_same])).trans (queue_pushed v (h.rings _) hinit hc)⟩
  | popped hi _ _ =>
    rcases hi with hpop | ⟨-, htx⟩ | ⟨hrx, -⟩
    · exact absurd (.inl (congrArg some hpop)) hno
    · exact absurd htx hpoll
    · cases hrx

theorem fgStep?_txKept {s t : State} (ch : Ch) (h : fgStep? s = some t) : TxKept ch s t := by
  rcases fgStep?_cases h with ⟨ch', -, -, rfl⟩ | ⟨ch', -, rfl⟩
  · exact .of_rb (rb_rbPop_ne _ (by simp)) (keepsWire_recvPop ch ch' rfl)
  · exact .of_rb (rb_gfExtract_ne ch' s (by simp)) (keepsWire_gfExtract ch ch' s)

theorem seqStep?_txKept {s t : State} (ch : Ch) (h : seqStep? s = some t) : TxKept ch s t := by
  obtain ⟨-, ⟨-, rfl⟩ | ⟨-, rfl⟩⟩ := seqStep?_cases h
  · refine .of_rb ?_ (keepsWire_seqVisit ch s)
    rcases seqVisit_cases s with e | e <;> rw [e]
    · exact rb_visited ..
    · exact rb_visited ..
  · exact .of_rb rfl (.of_respond _ _ _ rfl)

theorem step_txKept {s t : State} {ch : Ch} (h : BlockInv s) (hstep : step s = .next t) (hpoll : s.nextInstr? ≠ some (.txReady ch))
    (hno : ¬removesUnsent ch s.nextInstr?) : TxKept ch s t := by
  obtain ⟨ms, rfl | hf | hq | ⟨-, -, op, rfl⟩ | ⟨i, hi, he, -⟩⟩ := step_cases hstep
  · exact .of_rb rfl (.of_trace rfl)
  · exact (fgStep?_txKept ch hf).of_withMoves
  · exact (seqStep?_txKept ch hq).of_withMoves
  · exact .of_rb rfl (.of_respond _ _ _ rfl)
  · rw [hi] at hpoll hno
    exact (exec_txKept (h.setMoves ms) (fun e => hpoll (congrArg some e)) hno he).of_withMoves

/-- Nor does such a step disarm the channel (R25). -/
theorem step_keeps_armed {s t : State} {ch : Ch} (hstep : step s = .next t) (ha : (s.chn ch).armed = true)
    (hpoll : s.nextInstr? ≠ some (.txReady ch)) (hno : ¬removesUnsent ch s.nextInstr?) : (t.chn ch).armed = true := by
  rcases step_armed_cases hstep ch with e | ⟨e, -⟩ | ⟨-, hi, -⟩ | ⟨-, c, hi, h0, h1⟩
  · exact e.trans ha
  · exact e
  · exact absurd hi hpoll
  · exact absurd (.inr ⟨c, (legalCapacity_iff ch c).mpr ⟨h0, h1⟩, .inr hi⟩) hno

/-! What a poll does. -/

/-- A poll of an armed channel whose TX holds bytes puts the oldest on the wire and keeps the channel armed (R154). -/
theorem exec_txReady_takes {s : State} {ch : Ch} {v : Byte} {q : List Byte} (h : BlockInv s) (ha : (s.chn ch).armed = true)
    (hq : s.queue (txOf ch) = v :: q) :
    ∃ t, exec (.txReady ch) s = .next t ∧ t.queue (txOf ch) = q ∧ (t.chn ch).armed = true ∧ t.trace = s.trace ++ [.tx ch v] := by
  have hi : (s.rb (txOf ch)).init = true := (h.channels ch).armedInit ha
  have hc : (s.rb (txOf ch)).count ≠ 0 := fun hc => by
    rw [queue_of_count_zero hc] at hq
    cases hq
  obtain ⟨rfl, htail⟩ := List.cons.inj (hq.symm.trans (queue_popped (h.rings _) hi hc))
  refine ⟨_, exec_txReady_sends hi hc, ?queue, ?armed, ?trace⟩
  case queue => exact (queue_congr rfl).trans htail.symm
  case armed => rw [chn_emit, State.chn_setRb, ha]
  case trace => rw [emit_trace, State.setRb_trace]

/-- Settles O43: the send by `queue_pushed`, the steps between by `step_keeps_armed` and `step_txKept`, the poll by `exec_txReady_takes`. -/
theorem noLostTransmitWakeup : Obligations.NoLostTransmitWakeup := by
  refine ⟨?send, ?between, fun _ _ _ _ h ha hq => exec_txReady_takes h ha hq⟩
  case send =>
    intro s ch v h hi hc
    refine ⟨_, exec_chSend_admitted v hi hc, ?_, by simp⟩
    rw [← queue_pushed v (h.rings _) hi hc]
    exact queue_congr (by rw [rb_respond, State.rb_setArmed])
  case between =>
    intro s t ch h hstep ha hnext
    have hpoll : s.nextInstr? ≠ some (.txReady ch) := (hnext 0).1
    have hno : ¬removesUnsent ch s.nextInstr? := by
      rintro (hpop | ⟨c, -, hrb | hch⟩)
      · exact (hnext 0).2.1 hpop
      · exact (hnext c).2.2.1 hrb
      · exact (hnext c).2.2.2 hch
    exact ⟨step_keeps_armed hstep ha hpoll hno, (step_txKept h hstep hpoll hno).queue⟩

/-! The whole queue, by listed polls. -/

theorem decodeEvent_encode_txReady (ch : Ch) : decodeEvent (encode (.txReady ch)).cmd = .ok (.txReady ch) := by
  cases ch <;> decide

theorem step_txPoll {s : State} {ch : Ch} {rest : List Move} (hm : s.moves = txPoll ch :: rest) (ha : (s.chn ch).armed = true) :
    step s = exec (.txReady ch) { s with moves := rest } :=
  step_event hm (decodeEvent_encode_txReady ch) rfl ha

/-- As many polls as TX holds bytes, and one more: by induction on the queue. -/
theorem run_txPolls {ch : Ch} {rest : List Move} (q : List Byte) : ∀ {s : State}, BlockInv s → (s.chn ch).armed = true →
    s.queue (txOf ch) = q → s.moves = List.replicate (q.length + 1) (txPoll ch) ++ rest →
    ∃ t, core.run (q.length + 1) s = .next t ∧ t.moves = rest ∧ t.queue (txOf ch) = [] ∧ (t.chn ch).armed = false ∧
      t.trace = s.trace ++ q.map (.tx ch) ++ [.txIdle ch] := by
  induction q with
  | nil =>
    intro s _ ha hq hm
    have hstep := (step_txPoll hm ha).trans (exec_txReady_idle (.inr ((queue_eq_nil_iff s (txOf ch)).mp hq)))
    refine ⟨_, core_run_succ 0 hstep, ?moves, ?queue, ?armed, ?trace⟩
    case moves => rw [emit_moves, State.setArmed_moves]; rfl
    case queue => exact (queue_congr (by rw [rb_emit, State.rb_setArmed]; rfl)).trans hq
    case armed => rw [chn_emit, State.chn_setArmed_same]
    case trace => rw [emit_trace, State.setArmed_trace, List.map_nil, List.append_nil]
  | cons v q ih =>
    intro s h ha hq hm
    have hm : s.moves = txPoll ch :: (List.replicate (q.length + 1) (txPoll ch) ++ rest) := hm
    obtain ⟨t, he, hqt, hat, htrace⟩ := exec_txReady_takes (h.setMoves (List.replicate (q.length + 1) (txPoll ch) ++ rest)) ha hq
    have hstep := (step_txPoll hm ha).trans he
    obtain ⟨u, hrun, hmu, hqu, hau, htraceu⟩ := ih (everyStepKeepsTheInvariant s t h hstep) hat hqt (moves_exec he)
    refine ⟨u, (core_run_succ _ hstep).trans hrun, hmu, hqu, hau, ?_⟩
    rw [htraceu, htrace, List.map_cons]
    simp

/-- Settles O44: by `run_txPolls`. -/
theorem armedTransmitQueueIsSentInOrder : Obligations.ArmedTransmitQueueIsSentInOrder :=
  fun s ch _ h ha hm => run_txPolls (s.queue (txOf ch)) h ha rfl hm

/-! The whole queue, in a fair run. -/

/-- The channel is armed with `left` at the front of TX, and once that is sent it has put `all` on the wire. -/
structure Sending (ch : Ch) (all left : List Byte) (s : State) : Prop where
  armed : (s.chn ch).armed = true
  queue : ∃ more, s.queue (txOf ch) = left ++ more
  wire  : wireBytes ch s.trace ++ left = all

section
variable {ch : Ch} {all left : List Byte} {v : Byte} {s t : State}

/-- A step that does not poll the channel leaves it all to be sent. -/
theorem Sending.between (hs : Sending ch all left s) (h : BlockInv s) (hstep : step s = .next t)
    (hpoll : s.nextInstr? ≠ some (.txReady ch)) (hno : ¬removesUnsent ch s.nextInstr?) : Sending ch all left t := by
  obtain ⟨⟨arrived, hqueue⟩, hwire⟩ := step_txKept h hstep hpoll hno
  obtain ⟨more, hq⟩ := hs.queue
  refine ⟨step_keeps_armed hstep hs.armed hpoll hno, ⟨more ++ arrived, ?_⟩, ?_⟩
  · rw [hqueue, hq, List.append_assoc]
  · rw [hwire, hs.wire]

/-- A poll sends the first byte of it. -/
theorem Sending.polled (hs : Sending ch all (v :: left) s) (h : BlockInv s) (he : exec (.txReady ch) s = .next t) :
    Sending ch all left t := by
  obtain ⟨more, hq⟩ := hs.queue
  obtain ⟨t', he', hqueue, harmed, htrace⟩ := exec_txReady_takes h hs.armed hq
  cases he'.symm.trans he
  refine ⟨harmed, ⟨more, hqueue⟩, ?_⟩
  rw [htrace, wireBytes_append, ← hs.wire, wireBytes, if_pos rfl, wireBytes, List.append_assoc, List.singleton_append]

end

section
variable {σ : Nat → State} {m : Nat → Move} {ch : Ch} {all : List Byte}

/-- In a fair run a channel with bytes to send is polled while it still has them all (R207). -/
theorem FairRun.polls_sending {left : List Byte} {n : Nat} (h : FairRun σ m) (h0 : BlockInv (σ 0))
    (hnever : ∀ k, n ≤ k → ¬removesUnsent ch (instrAt σ m k)) (hs : Sending ch all left (σ n)) :
    ∃ k, n ≤ k ∧ instrAt σ m k = some (.txReady ch) ∧ Sending ch all left (σ k) := by
  by_contra hnone
  have hkept : ∀ k, n ≤ k → Sending ch all left (σ k) := run_induction hs fun k hk hsk =>
    Sending.between (s := { σ k with moves := [m k] }) ⟨hsk.armed, hsk.queue, hsk.wire⟩ ((h.run.blockInv h0 k).setMoves _) (h.run k)
      (fun hpoll => hnone ⟨k, hk, hpoll, hsk⟩) (hnever k hk)
  obtain ⟨k, hk, hpoll⟩ := h.transmit ch n fun k hk => (hkept k hk).armed
  exact hnone ⟨k, hk, hpoll, hkept k hk⟩

/-- In a fair run in which nothing removes them, the bytes are sent: by induction on what is left to send. -/
theorem FairRun.sends (h : FairRun σ m) (h0 : BlockInv (σ 0)) (left : List Byte) :
    ∀ {n : Nat}, (∀ k, n ≤ k → ¬removesUnsent ch (instrAt σ m k)) → Sending ch all left (σ n) →
      ∃ k, n ≤ k ∧ wireBytes ch (σ k).trace = all := by
  induction left with
  | nil => exact fun {n} _ hs => ⟨n, Nat.le_refl n, by rw [← hs.wire, List.append_nil]⟩
  | cons v left ih =>
    intro n hnever hs
    obtain ⟨k, hk, hpoll, hsk⟩ := h.polls_sending h0 hnever hs
    have hnext : Sending ch all left (σ (k + 1)) :=
      Sending.polled (s := (σ k).withMoves []) ⟨hsk.armed, hsk.queue, hsk.wire⟩ ((h.run.blockInv h0 k).setMoves []) (h.run.exec hpoll)
    obtain ⟨j, hj, hwire⟩ := ih (fun j hj => hnever j (by omega)) hnext
    exact ⟨j, by omega, hwire⟩

end

/-- Settles O59: at the first step that removes bytes, if there is one, and by `FairRun.sends` if there is none. -/
theorem queuedBytesAreSentInAFairRun : Obligations.QueuedBytesAreSentInAFairRun := by
  intro σ m h h0 n ch ha
  by_cases hremoved : ∃ k, n ≤ k ∧ removesUnsent ch (instrAt σ m k)
  · classical
    obtain ⟨hk, hremoves⟩ := Nat.find_spec hremoved
    exact ⟨Nat.find hremoved, hk, fun j hj hlt hno => Nat.find_min hremoved hlt ⟨hj, hno⟩, .inl hremoves⟩
  · have hnever : ∀ k, n ≤ k → ¬removesUnsent ch (instrAt σ m k) := fun k hk hno => hremoved ⟨k, hk, hno⟩
    obtain ⟨k, hk, hwire⟩ := h.sends h0 ((σ n).queue (txOf ch)) hnever ⟨ha, ⟨[], (List.append_nil _).symm⟩, rfl⟩
    exact ⟨k, hk, fun j hj _ => hnever j hj, .inr hwire⟩

end Sys2Proof.Machine

/-! Every extraction of CH_GETFRAME ends in a fair run (spec/42_framechannel.md R159, R160; spec/70_reset_and_hazards.md R238): each step of
FG stores a byte, of which it can store fewer than RX holds at most, or finishes; and no other step touches the extraction. -/

namespace Sys2Proof.Machine

/-! What a step does to an extraction under way. -/

/-- How many bytes the extraction can store before the overlong bound (R159). -/
def extractionLeft (ch : Ch) (s : State) : Nat := (s.rb (rxOf ch)).cap - (s.chn ch).gfK

/-- The step from `s` to `t` finishes an extraction of channel `ch` (R160, R162). -/
def ExtractionEnds (ch : Ch) (s t : State) : Prop :=
  s.fg = .getFrame ch ∧ t.fg = .ready ∧ (t.chn ch).pending = (s.chn ch).pending - 1 ∧
    (t.status = 0x00 ∨ t.status = 0x03 ∨ t.status = 0x04)

/-- The extraction goes on, with less of it left. -/
def ExtractionGoesOn (ch : Ch) (s t : State) : Prop := t.fg = .getFrame ch ∧ extractionLeft ch t < extractionLeft ch s

/-- The extraction stands where it stood. -/
def ExtractionStays (ch : Ch) (s t : State) : Prop := t.fg = .getFrame ch ∧ extractionLeft ch t = extractionLeft ch s

/-- The status codes of a finish (R160, R162). -/
theorem gfFinish_status_cases (ch : Ch) (o : Extraction) (s : State) :
    (gfFinish ch o s).status = 0x00 ∨ (gfFinish ch o s).status = 0x03 ∨ (gfFinish ch o s).status = 0x04 := by
  rw [gfFinish_eq, respond_status]
  cases o with
  | frameError => exact .inr (.inr rfl)
  | frame n =>
    rw [outputStatus]
    split
    · exact .inr (.inl rfl)
    · exact .inl rfl

/-- A finish from a state with the counter as it was ends the extraction. -/
theorem extractionEnds_gfFinish {ch : Ch} {o : Extraction} {s u : State} (hf : s.fg = .getFrame ch)
    (hp : (u.chn ch).pending = (s.chn ch).pending) : ExtractionEnds ch s (gfFinish ch o u) :=
  ⟨hf, fg_gfFinish .., ((pending_gfFinish ..).trans (if_pos rfl)).trans (by rw [hp]), gfFinish_status_cases ..⟩

/-- An extraction step stores a byte or finishes (R159). -/
theorem gfExtract_goesOn_or_ends {ch : Ch} {s : State} (h : BlockInv s) (hf : s.fg = .getFrame ch) :
    ExtractionGoesOn ch s (gfExtract ch s) ∨ ExtractionEnds ch s (gfExtract ch s) := by
  obtain ⟨-, hbound, -⟩ := (h.channels ch).extracting hf
  rcases gfExtract_cases ch s with e | e | e | e <;> rw [e]
  · refine .inl ⟨(storePayload_fg ..).trans hf, ?_⟩
    rw [extractionLeft, extractionLeft, rb_storePayload, chn_storePayload]
    exact Nat.sub_succ_lt_self _ _ hbound
  · exact .inr (extractionEnds_gfFinish hf rfl)
  · exact .inr (extractionEnds_gfFinish hf (by rw [State.chn_setRb]))
  · exact .inr (extractionEnds_gfFinish hf (pending_storePayload ..))

/-- A port event keeps the extraction: bytes may arrive in RX, but its capacity and the cursor stay (R164). -/
theorem PortEffect.extractionStays {ch : Ch} {s t : State} (h : PortEffect s t) (hf : s.fg = .getFrame ch) :
    ExtractionStays ch s t := by
  obtain ⟨hcap, -⟩ := h.rx ch
  obtain ⟨p, a, hchn⟩ := h.channel ch
  exact ⟨h.fg.trans hf, by rw [extractionLeft, extractionLeft, hcap, hchn]⟩

/-- During an extraction a step leaves it as it is, goes on with it, or ends it: SEQ does not run, and FG issues nothing (R12, R23). -/
theorem step_extraction_cases {ch : Ch} {s t : State} (h : BlockInv s) (hf : s.fg = .getFrame ch) (hstep : step s = .next t) :
    ExtractionStays ch s t ∨ ExtractionGoesOn ch s t ∨ ExtractionEnds ch s t := by
  have hissue : mayIssue s ≠ true := by simp [mayIssue, hf]
  obtain ⟨ms, rfl | hfg | hq | ⟨hmay, -⟩ | ⟨i, -, he, hmay⟩⟩ := step_cases hstep
  · exact .inl ⟨hf, rfl⟩
  · rw [fgStep?_getFrame (s := { s with moves := ms }) hf] at hfg
    cases hfg
    exact .inr (gfExtract_goesOn_or_ends (h.setMoves ms) hf)
  · exact absurd (seqStep?_cases hq).1 (h.seq_not_run (by simp [hf]))
  · exact absurd hmay hissue
  · rcases hmay with ⟨-, hmay⟩ | ⟨port, hport, -⟩
    · exact absurd hmay hissue
    · exact .inl ((exec_event_portEffect (h.setMoves ms) hport he).extractionStays hf)

/-! Fair runs. -/

/-- A step of a run whose move is FG's is FG's continuing step. -/
theorem IsRun.fgStep?_eq {σ : Nat → State} {m : Nat → Move} (h : IsRun σ m) {k : Nat} (hk : m k = .fg) :
    fgStep? ((σ k).withMoves []) = some (σ (k + 1)) := by
  have ht := h.takeMove k
  rw [hk] at ht
  simp only [Machine.takeMove, takeStep] at ht
  split at ht
  · rename_i t hfg; cases ht; exact hfg
  · cases ht

section
variable {σ : Nat → State} {m : Nat → Move} {n : Nat} {ch : Ch}

/-- In a fair run an extraction is not kept for ever where it stands: FG takes its step (R238). -/
theorem FairRun.extraction_progresses (h : FairRun σ m) (h0 : BlockInv (σ 0)) (hf : (σ n).fg = .getFrame ch) :
    ∃ k, n ≤ k ∧ ((σ (k + 1)).fg = .getFrame ch ∧ extractionLeft ch (σ (k + 1)) < extractionLeft ch (σ n) ∨
      ExtractionEnds ch (σ k) (σ (k + 1))) := by
  by_contra hnone
  have hstays : ∀ k, n ≤ k → ExtractionStays ch (σ n) (σ k) := run_induction ⟨hf, rfl⟩ fun k hk hsk => by
    rcases step_extraction_cases (s := (σ k).withMoves [m k]) ((h.run.blockInv h0 k).setMoves [m k]) hsk.1 (h.run k) with
      hs | hon | hends
    · exact ⟨hs.1, hs.2.trans hsk.2⟩
    · exact absurd ⟨k, hk, .inl ⟨hon.1, hon.2.trans_eq hsk.2⟩⟩ hnone
    · exact absurd ⟨k, hk, .inr hends⟩ hnone
  obtain ⟨k, hk, hmk⟩ := h.extraction ch n fun k hk => (hstays k hk).1
  have hstep := h.run.fgStep?_eq hmk
  rw [fgStep?_getFrame (s := (σ k).withMoves []) (hstays k hk).1] at hstep
  have hmoved := gfExtract_goesOn_or_ends ((h.run.blockInv h0 k).setMoves []) (hstays k hk).1
  rw [Option.some.inj hstep] at hmoved
  exact hnone ⟨k, hk, hmoved.imp_left fun hon => ⟨hon.1, hon.2.trans_eq (hstays k hk).2⟩⟩

/-- An extraction of a fair run ends: by strong induction on what is left of it. -/
theorem FairRun.extraction_ends (h : FairRun σ m) (h0 : BlockInv (σ 0)) (hf : (σ n).fg = .getFrame ch) :
    ∃ k, n ≤ k ∧ ExtractionEnds ch (σ k) (σ (k + 1)) := by
  induction hleft : extractionLeft ch (σ n) using Nat.strong_induction_on generalizing n with
  | _ left ih =>
    obtain ⟨k, hk, ⟨hfk, hless⟩ | hends⟩ := h.extraction_progresses h0 hf
    · obtain ⟨j, hj, hends⟩ := ih _ (hleft ▸ hless) hfk rfl
      exact ⟨j, by omega, hends⟩
    · exact ⟨k, hk, hends⟩

end

/-- Settles O58: by `FairRun.extraction_ends`. -/
theorem everyExtractionEndsInAFairRun : Obligations.EveryExtractionEndsInAFairRun :=
  fun _ _ h h0 _ _ hf => h.extraction_ends h0 hf

end Sys2Proof.Machine

/-! Refusals, illegal commands, triggers and what the channels and the timer unit share (spec/60_exceptions.md R191 to R207). -/

namespace Sys2Proof.Machine

/-! The two channels and the timer unit. -/

/-- Settles O50: an instruction of a channel by what it leaves of the timer unit (`exec_channel_sameTimers`, `exec_channel_tick`); any
instruction by what it leaves of a channel that is not its own (`exec_sameChannel`). -/
theorem channelsAndTimersShareNoState : Obligations.ChannelsAndTimersShareNoState := by
  intro i s t he
  constructor
  · intro ch hch
    have hchannel : channelOf i ≠ none := by simp [hch]
    exact ⟨exec_channel_sameTimers hchannel he, exec_channel_tick hchannel he,
      fun ch' hne => exec_sameChannel (by simpa [hch] using hne.symm) he⟩
  · intro hnone ch
    exact exec_sameChannel (by simp [hnone]) he

/-! Triggers. -/

/-- No trigger is appended to the trace from `s` to `t`. -/
def KeepsTriggers (s t : State) : Prop := trigIds t.trace = trigIds s.trace

section
variable {s t u : State}

theorem KeepsTriggers.of_trace (h : u.trace = s.trace) : KeepsTriggers s u := congrArg trigIds h

theorem KeepsTriggers.of_emit {e : TraceEvent} (he : trigIds [e] = []) (h : u.trace = s.trace) : KeepsTriggers s (emit e u) := by
  rw [KeepsTriggers, emit_trace, trigIds_append, he, List.append_nil, h]

theorem KeepsTriggers.of_respond (op : Byte) (st : Status) (r : Word) (h : u.trace = s.trace) :
    KeepsTriggers s (respond op st r u) :=
  .of_emit (u := { u with status := st.code, result := r }) rfl h

theorem KeepsTriggers.trace_ne_trig (h : KeepsTriggers s t) (j : Nat) : t.trace ≠ s.trace ++ [.trig j] := by
  intro ht
  rw [KeepsTriggers, ht, trigIds_append] at h
  simp [trigIds] at h

end

theorem keepsTriggers_onSlot (op : Byte) (id : Nat) (f : Slot → Slot) (s : State) : KeepsTriggers s (onSlot op id f s) := by
  unfold onSlot
  split
  · exact .of_respond _ _ _ (s.modifySlot_trace id f)
  · exact .of_respond _ _ _ rfl

theorem keepsTriggers_recvPop {s u : State} (ch : Ch) (h : u.trace = s.trace) : KeepsTriggers s (recvPop ch u) :=
  .of_respond _ _ _ ((rbPop_trace ..).trans h)

theorem keepsTriggers_gfFinish {s u : State} (ch : Ch) (o : Extraction) (h : u.trace = s.trace) :
    KeepsTriggers s (gfFinish ch o u) := by
  rw [gfFinish_eq]
  exact .of_respond _ _ _ ((u.setChn_trace ch _).trans h)

theorem keepsTriggers_gfExtract (ch : Ch) (s : State) : KeepsTriggers s (gfExtract ch s) := by
  rcases gfExtract_cases ch s with e | e | e | e <;> rw [e]
  · exact .of_trace (storePayload_trace ..)
  · exact keepsTriggers_gfFinish ch _ rfl
  · exact keepsTriggers_gfFinish ch _ (s.setRb_trace ..)
  · exact keepsTriggers_gfFinish ch _ (storePayload_trace ..)

theorem fgStep?_keepsTriggers {s t : State} (h : fgStep? s = some t) : KeepsTriggers s t := by
  rcases fgStep?_cases h with ⟨ch, -, -, rfl⟩ | ⟨ch, -, rfl⟩
  · exact keepsTriggers_recvPop ch rfl
  · exact keepsTriggers_gfExtract ch s

/-- No instruction triggers: what it appends is a response or an event of a channel (R44). -/
theorem exec_keepsTriggers {i : Instr} {s t : State} (he : exec i s = .next t) : KeepsTriggers s t := by
  cases i with
  | rbInit b c => cases he; exact .of_respond _ _ _ (rbInit_trace b c s)
  | rbPush b v => cases he; exact .of_respond _ _ _ (rbPush_trace b v s)
  | rbPop b => cases he; exact .of_respond _ _ _ (rbPop_trace b s)
  | rbIsEmpty _ | tmrRegister _ _ | cbDone => cases he; split <;> exact .of_respond _ _ _ rfl
  | tmrStart _ | tmrPause _ | tmrResume _ => cases he; exact keepsTriggers_onSlot ..
  | tmrElapsed _ _ | tickRead | tickDelta _ _ | chPending _ => cases he; exact .of_respond _ _ _ rfl
  | tmrAdvance e =>
    cases he
    split
    · exact .of_respond _ _ _ rfl
    · exact .of_trace rfl
  | chInit ch c =>
    rcases exec_chInit_cases ch c s with ⟨-, e⟩ | ⟨-, -, e⟩ <;> cases e.symm.trans he
    · exact .of_respond _ _ _ rfl
    · exact .of_respond _ _ _ (by simp)
  | chSend ch v =>
    rcases exec_chSend_cases ch v s with ⟨-, e⟩ | ⟨-, e⟩ <;> cases e.symm.trans he
    · exact .of_respond _ _ _ rfl
    · exact .of_respond _ _ _ (by simp)
  | chRecv ch =>
    rcases exec_chRecv_cases ch s with e | ⟨-, e⟩ | e <;> cases e.symm.trans he
    · exact .of_respond _ _ _ rfl
    · exact .of_trace rfl
    · exact keepsTriggers_recvPop ch rfl
  | chGetFrame ch =>
    rcases exec_chGetFrame_cases ch s with ⟨st, -, e⟩ | ⟨-, e⟩ <;> cases e.symm.trans he
    · exact .of_respond _ _ _ rfl
    · exact .of_trace (s.setChn_trace ch _)
  | rxByte ch v =>
    rcases exec_rxByte_cases ch v s with e | ⟨-, -, ⟨-, e⟩ | ⟨-, e⟩⟩ <;> cases e.symm.trans he
    · exact .of_emit rfl rfl
    · exact .of_trace (rbPush_trace ..)
    · exact .of_trace (by simp)
  | txReady ch =>
    rcases exec_txReady_cases ch s with ⟨-, e⟩ | ⟨v, e⟩ <;> cases e.symm.trans he
    · exact .of_emit rfl (s.setArmed_trace ch false)
    · exact .of_emit rfl (rbPop_trace ..)
  | tick => cases he; exact .of_trace rfl

/-- A step of SEQ triggers nothing, or enters the callback of the slot it visits, below the slot count latched (R127, R198). -/
theorem seqStep?_trigger_cases {s t : State} (h : seqStep? s = some t) :
    KeepsTriggers s t ∨ (s.seq.phase = .run ∧ s.seq.i < s.seq.n ∧ t = callbackEntry s.seq.i (visited s)) := by
  obtain ⟨hp, ⟨hi, rfl⟩ | ⟨-, rfl⟩⟩ := seqStep?_cases h
  · rcases seqVisit_cases s with e | e
    · rw [e]; exact .inl (.of_trace (visited_trace s))
    · exact .inr ⟨hp, hi, e⟩
  · exact .inl (.of_respond _ _ _ rfl)

/-- Settles O24: of all ways a step can go only a visit of SEQ that enters a callback appends a trigger, that of its cursor. -/
theorem triggersComeOnlyFromAPass : Obligations.TriggersComeOnlyFromAPass := by
  intro s t j hstep htrace
  have htrig : ¬KeepsTriggers s t := fun hk => hk.trace_ne_trig j htrace
  obtain ⟨ms, rfl | hf | hq | ⟨-, -, op, rfl⟩ | ⟨i, -, he, -⟩⟩ := step_cases hstep
  · exact absurd (.of_trace rfl) htrig
  · exact absurd (fgStep?_keepsTriggers hf) htrig
  · rcases seqStep?_trigger_cases hq with hk | ⟨hp, hi, rfl⟩
    · exact absurd hk htrig
    · obtain rfl : s.seq.i = j := by simpa using htrace
      exact ⟨hp, rfl, hi, by simp⟩
  · exact absurd (.of_respond _ _ _ rfl) htrig
  · exact absurd (exec_keepsTriggers he) htrig

/-! Refusals. -/

/-- A packet while FG may not issue is refused (R23, R207). -/
theorem step_command_refused {s : State} {p : Packet} {rest : List Move} (h : s.moves = .command p :: rest)
    (hm : ¬mayIssue s = true) : step s = .refused (.notEnabled .fg) :=
  (step_cons h).trans (if_neg (c := mayIssue { s with moves := rest } = true) hm)

/-- An event word on its own port is refused while the port's agent has no enabled step (R152, R207). -/
theorem step_event_refused {s : State} {port : Port} {w : Word} {rest : List Move} {i : Instr}
    (h : s.moves = .event port w :: rest) (hd : decodeEvent w = .ok i) (hp : portOf i = some port)
    (he : ¬port.enabled s = true) : step s = .refused (.notEnabled port.agent) := by
  have he' : ¬port.enabled { s with moves := rest } = true := by cases port <;> exact he
  rw [step_cons h]
  simp only [takeMove, deliverEvent, hd, if_pos hp, if_neg he']

theorem fgStep?_recv_holds {s : State} {ch : Ch} (hf : s.fg = .recv ch) (hc : (s.rb (rxOf ch)).count = 0) : fgStep? s = none :=
  (fgStep?_recv hf).trans (if_pos ((Ring.isEmpty_iff _).mpr hc))

/-- Settles O7: FG may not issue, TXT is not armed, FG is ready or holds on an empty RX, SEQ holds. -/
theorem stepRefusesWhatHasNoMove : Obligations.StepRefusesWhatHasNoMove := by
  refine ⟨?command, ?txReady, ?fg, ?seq⟩
  case command =>
    intro s p rest hm hbusy
    refine step_command_refused hm fun hmay => ?_
    obtain ⟨hready, hnotRun⟩ := (mayIssue_iff s).mp hmay
    exact hbusy.elim (absurd hready) hnotRun
  case txReady =>
    intro s w rest ch hm hd harmed
    exact step_event_refused hm hd rfl (by simp [Port.enabled, harmed])
  case fg =>
    intro s rest hm hholds
    have hnone : fgStep? { s with moves := rest } = none := by
      rcases hholds with hready | ⟨ch, hf, hc⟩
      · exact fgStep?_ready hready
      · exact fgStep?_recv_holds hf hc
    rw [step_fg hm, hnone]
    rfl
  case seq =>
    intro s rest hm hholds
    have hnotRun : s.seq.phase ≠ .run := by rcases hholds with hp | hp <;> simp [hp]
    rw [step_seq hm, seqStep?_holds (s := { s with moves := rest }) hnotRun]
    rfl

/-- Every arm of `exec` answers a next state (R191). -/
theorem exec_eq_next (i : Instr) (s : State) : ∃ t, exec i s = .next t := by
  cases i <;> exact ⟨_, rfl⟩

theorem exec_ne_refused (i : Instr) (s : State) (r : Refusal) : exec i s ≠ .refused r := by
  obtain ⟨t, ht⟩ := exec_eq_next i s
  simp [ht]

theorem takeStep_eq_refused {a : Agent} {o : Option State} {r : Refusal} (h : takeStep a o = .refused r) : r = .notEnabled a := by
  cases o with
  | none => cases h; rfl
  | some t => cases h

/-- A move is refused only for an agent without an enabled step (R207). -/
theorem takeMove_eq_refused {m : Move} {s : State} {r : Refusal} (h : takeMove m s = .refused r) : ∃ a, r = .notEnabled a := by
  cases m with
  | command p =>
    simp only [takeMove, issueCommand] at h
    split at h
    · split at h
      · exact absurd h (exec_ne_refused _ s r)
      · cases h
    · cases h; exact ⟨.fg, rfl⟩
  | event port w =>
    simp only [takeMove, deliverEvent] at h
    split at h
    · split at h
      · split at h
        · exact absurd h (exec_ne_refused _ s r)
        · cases h; exact ⟨port.agent, rfl⟩
      · cases h
    · cases h
  | fg => exact ⟨.fg, takeStep_eq_refused h⟩
  | seq => exact ⟨.seq, takeStep_eq_refused h⟩

/-- Settles O51: by `exec_eq_next`; a step is refused only where its move is (`takeMove_eq_refused`). -/
theorem everyInstructionAnswersANextState : Obligations.EveryInstructionAnswersANextState := by
  refine ⟨exec_eq_next, ?refusals⟩
  case refusals =>
    intro s r h
    cases hm : s.moves with
    | nil => rw [step_nil hm] at h; cases h
    | cons m rest => rw [step_cons hm] at h; exact takeMove_eq_refused h

/-! Illegal commands. -/

/-- A packet FG may issue that decodes to no command is answered IllegalCommand, and nothing else changes (R87, R193). -/
theorem step_command_illegal {s : State} {p : Packet} {rest : List Move} (h : s.moves = .command p :: rest)
    (hm : mayIssue s = true) (hd : ∀ i, decodeCommand p ≠ .ok i) :
    step s = .next (raise (opField p.cmd) .illegalCommand { s with moves := rest }) := by
  rw [step_cons h]
  refine (if_pos (c := mayIssue { s with moves := rest } = true) hm).trans ?_
  cases hdec : decodeCommand p with
  | ok i => exact absurd hdec (hd i)
  | error _ => rfl

/-- Settles O8: a word that matches no command row decodes to none; CB_DONE outside a callback by `exec_cbDone_illegal`. -/
theorem illegalCommandChangesOnlyTheResponse : Obligations.IllegalCommandChangesOnlyTheResponse := by
  refine ⟨?word, fun _ => exec_cbDone_illegal⟩
  case word =>
    intro s p rest hm hf hp hno
    exact ⟨opField p.cmd, step_command_illegal hm ((mayIssue_iff s).mpr ⟨hf, hp⟩) (decodeCommand_ne_ok fun o _ => hno o)⟩

end Sys2Proof.Machine

/-! Reset (spec/70_reset_and_hazards.md R220, R221): the values of the reset state, and what the instructions do while no buffer is
initialized. -/

namespace Sys2Proof.Machine

/-- Settles O53: every buffer and channel is at its reset value (`rb_reset`, `chn_reset`), and N_TIMERS is in 1..256 whatever its draw. -/
theorem resetStateIsAsTheSpecGives : Obligations.ResetStateIsAsTheSpecGives := by
  refine ⟨rfl, rfl, rfl, fun b => ?buffers, fun ch => ?channels, rfl, rfl, rfl, ?sizeLow, ?sizeHigh⟩
  case buffers => rw [rb_reset]; exact ⟨rfl, rfl, rfl, rfl, rfl⟩
  case channels => rw [chn_reset]; exact ⟨rfl, rfl, rfl, rfl⟩
  case sizeLow => exact resetMeetsTheInvariant.timers.sizeLow
  case sizeHigh => exact resetMeetsTheInvariant.timers.sizeHigh

/-- While no buffer is initialized, every command that needs one answers NotInitialized and changes nothing else (R221). -/
theorem exec_notInitialized {s : State} (hinit : ∀ b, (s.rb b).init = false) {i : Instr} {b : BufId} {ch : Ch} {v : Byte}
    (hi : i ∈ [Instr.rbPush b v, .rbPop b, .rbIsEmpty b, .chSend ch v, .chRecv ch, .chGetFrame ch]) :
    exec i s = .next (raise i.opcode.code .notInitialized s) := by
  simp only [List.mem_cons, List.not_mem_nil, or_false] at hi
  rcases hi with rfl | rfl | rfl | rfl | rfl | rfl
  · rw [exec_rbPush, rbPush_notInitialized v (hinit b)]; rfl
  · rw [exec_rbPop, rbPop_notInitialized (hinit b)]; rfl
  · exact exec_rbIsEmpty_notInitialized (hinit b)
  · exact exec_chSend_notInitialized v (hinit _)
  · exact exec_chRecv_notInitialized (hinit _)
  · exact (chGetFrameIssueResult ch s).1 (hinit _)

/-- Settles O52: at reset no buffer is initialized, so `exec_notInitialized` and `exec_rxByte_dropped` apply, and no channel is armed. -/
theorem afterResetEveryBufferIsUninitialized : Obligations.AfterResetEveryBufferIsUninitialized := by
  have hinit (b : BufId) : (State.reset.rb b).init = false := by rw [rb_reset]; rfl
  refine ⟨rfl, fun i b ch v hi => ?commands, fun ch v => ?dropped, fun ch => ⟨rfl, ?notArmed⟩, rfl⟩
  case commands => exact ⟨_, exec_notInitialized hinit hi, rfl, rfl⟩
  case dropped => exact exec_rxByte_dropped v (.inl (hinit _))
  case notArmed => exact congrArg Channel.armed (chn_reset ch)

end Sys2Proof.Machine

/-! CH_GETFRAME on an RX without a terminator (spec/70_reset_and_hazards.md R231; spec/42_framechannel.md R159, R160): the extraction
drains RX, one byte a step, and ends with FrameError. -/

namespace Sys2Proof.Machine

/-- How many extraction steps are left while RX holds no terminator: one for each byte, and one more to find RX empty unless the last
byte is the cap-th of the frame (R159). -/
def stepsToDrain (ch : Ch) (s : State) : Nat :=
  if (s.chn ch).gfK + (s.rb (rxOf ch)).count = (s.rb (rxOf ch)).cap then (s.rb (rxOf ch)).count else (s.rb (rxOf ch)).count + 1

/-- A CH_GETFRAME under way on an RX without a terminator, with the counter at `p`: what is stored and what RX holds fit in the
capacity. -/
structure Draining (ch : Ch) (p : Word) (s : State) : Prop where
  fg      : s.fg = .getFrame ch
  bound   : (s.chn ch).gfK + (s.rb (rxOf ch)).count ≤ (s.rb (rxOf ch)).cap
  noTerm  : Config.term ch ∉ s.queue (rxOf ch)
  pending : (s.chn ch).pending = p

/-- A CH_GETFRAME that has drained RX and returned FrameError, begun with the counter at `p` (R160, R231). -/
structure DrainedToFrameError (ch : Ch) (p : Word) (s : State) : Prop where
  fg        : s.fg = .ready
  queue     : s.queue (rxOf ch) = []
  pending   : (s.chn ch).pending = p - 1
  frameLen  : (s.chn ch).frameLen = 0
  frameByte : s.frameByte ch 0 = 0x00
  status    : s.status = 0x04
  result    : s.result = 0

section
variable {ch : Ch} {p : Word} {s : State} {rest : List Move}

/-- The byte at the tail of an RX without a terminator is a payload byte. -/
theorem Draining.tail_ne_term (h : Draining ch p s) (hinv : BlockInv s) (hc : (s.rb (rxOf ch)).count ≠ 0) :
    s.storeByte (rxOf ch) (s.rb (rxOf ch)).tail ≠ Config.term ch := by
  intro hv
  have hi := ((hinv.channels ch).extracting h.fg).1
  exact h.noTerm (by rw [queue_popped (hinv.rings _) hi hc, hv]; exact List.mem_cons_self)

/-- While the extraction is under way a step is left: the cursor is below the capacity. -/
theorem Draining.stepsToDrain_ne_zero (h : Draining ch p s) (hinv : BlockInv s) : stepsToDrain ch s ≠ 0 := by
  obtain ⟨-, hcursor, -⟩ := (hinv.channels ch).extracting h.fg
  unfold stepsToDrain
  split <;> omega

/-- The step that finds RX empty, or stores the cap-th byte, is the last one, and leaves RX empty. -/
theorem Draining.step_finishes (h : Draining ch p s) (hinv : BlockInv s) (hm : s.moves = .fg :: rest)
    (hlast : (s.rb (rxOf ch)).count = 0 ∨ (s.chn ch).gfK + 1 = (s.rb (rxOf ch)).cap) :
    stepsToDrain ch s = 1 ∧ ∃ t, step s = .next t ∧ t.moves = rest ∧ DrainedToFrameError ch p t := by
  obtain ⟨hi, hcursor, -⟩ := (hinv.channels ch).extracting h.fg
  have hbound := h.bound
  have hend : (s.rb (rxOf ch)).count = 0 ∨
      (s.storeByte (rxOf ch) (s.rb (rxOf ch)).tail ≠ Config.term ch ∧ (s.chn ch).gfK + 1 = (s.rb (rxOf ch)).cap) := by
    by_cases hc : (s.rb (rxOf ch)).count = 0
    · exact .inl hc
    · exact .inr ⟨h.tail_ne_term hinv hc, hlast.resolve_left hc⟩
  obtain ⟨t, hs, hmoves, hfg, hpending, hlen, hbyte, -, hrx, -, hstatus, hresult, -⟩ :=
    extractionStepFinishesWithFrameError ch s rest hm h.fg hi hend
  refine ⟨by unfold stepsToDrain; split <;> omega, t, hs, hmoves, hfg, queue_of_count_zero ?_, by rw [hpending, h.pending], hlen,
    hbyte, hstatus, hresult⟩
  rw [hrx]
  split
  · assumption
  · show (s.rb (rxOf ch)).count - 1 = 0
    omega

/-- Any other step stores a payload byte and goes on with one step fewer left. -/
theorem Draining.step_goesOn (h : Draining ch p s) (hinv : BlockInv s) (hm : s.moves = .fg :: rest)
    (hc : (s.rb (rxOf ch)).count ≠ 0) (hk : (s.chn ch).gfK + 1 ≠ (s.rb (rxOf ch)).cap) :
    ∃ t, step s = .next t ∧ t.moves = rest ∧ Draining ch p t ∧ stepsToDrain ch s = stepsToDrain ch t + 1 := by
  have hi := ((hinv.channels ch).extracting h.fg).1
  obtain ⟨t, hs, hmoves, hfg, -, hcursor, hrx, hpending, -⟩ :=
    extractionStepStoresThePayloadByte ch s rest hm h.fg hi hc (h.tail_ne_term hinv hc) hk
  have hcap : (t.rb (rxOf ch)).cap = (s.rb (rxOf ch)).cap := by rw [hrx]
  have hcount : (t.rb (rxOf ch)).count = (s.rb (rxOf ch)).count - 1 := by rw [hrx]
  have hbound := h.bound
  refine ⟨t, hs, hmoves, ⟨hfg, ?bound, ?noTerm, by rw [hpending, h.pending]⟩, ?steps⟩
  case bound => omega
  case noTerm =>
    have hqueue : t.queue (rxOf ch) = (s.setRb (rxOf ch) (s.rb (rxOf ch)).popped).queue (rxOf ch) :=
      queue_congr (hrx.trans (s.rb_setRb_same _ _).symm)
    intro hmem
    exact h.noTerm (by rw [queue_popped (hinv.rings _) hi hc, ← hqueue]; exact List.mem_cons_of_mem _ hmem)
  case steps =>
    unfold stepsToDrain
    rw [hcap, hcount, hcursor]
    split <;> split <;> omega

end

/-- As many extraction steps as are left drain RX and return FrameError: by induction on their number. -/
theorem run_draining {ch : Ch} {p : Word} {rest : List Move} (k : Nat) : ∀ {s : State}, BlockInv s → Draining ch p s →
    stepsToDrain ch s = k → s.moves = List.replicate k .fg ++ rest →
    ∃ t, core.run k s = .next t ∧ t.moves = rest ∧ DrainedToFrameError ch p t := by
  induction k with
  | zero =>
    intro s hinv h hk _
    exact absurd hk (h.stepsToDrain_ne_zero hinv)
  | succ k ih =>
    intro s hinv h hk hm
    have hm : s.moves = .fg :: (List.replicate k .fg ++ rest) := hm
    by_cases hlast : (s.rb (rxOf ch)).count = 0 ∨ (s.chn ch).gfK + 1 = (s.rb (rxOf ch)).cap
    · obtain ⟨hone, t, hs, hmoves, hdone⟩ := h.step_finishes hinv hm hlast
      obtain rfl : k = 0 := by omega
      exact ⟨t, core_run_succ 0 hs, hmoves, hdone⟩
    · obtain ⟨hc, hcursor⟩ := not_or.mp hlast
      obtain ⟨t, hs, hmoves, ht, hleft⟩ := h.step_goesOn hinv hm hc hcursor
      obtain ⟨u, hrun, hu⟩ := ih (everyStepKeepsTheInvariant s t hinv hs) ht (by omega) hmoves
      exact ⟨u, (core_run_succ k hs).trans hrun, hu⟩

/-- The extraction begins with nothing stored, and RX holds at most its capacity (R158). -/
theorem draining_frameBegun {ch : Ch} {s : State} (hinv : BlockInv s) (hi : (s.rb (rxOf ch)).init = true)
    (hterm : Config.term ch ∉ s.queue (rxOf ch)) : Draining ch (s.chn ch).pending (frameBegun ch s) where
  fg := rfl
  bound := by
    rw [chn_frameBegun, rb_frameBegun, Nat.zero_add]
    exact (hinv.rings (rxOf ch)).countRange hi
  noTerm := by rwa [queue_congr (rb_frameBegun ch s (rxOf ch))]
  pending := by rw [chn_frameBegun]

/-- Settles O38: the issue step begins an extraction with every byte still in RX, and `run_draining` takes it to its end. -/
theorem desynchronizedGetFrameDrainsAndHeals : Obligations.DesynchronizedGetFrameDrainsAndHeals := by
  intro s ch k rest hinv hf hseq hi hp hterm hk hm
  have hstep : step s = .next (frameBegun ch { s with moves := List.replicate k .fg ++ rest }) :=
    (step_command hm ((mayIssue_iff s).mpr ⟨hf, hseq⟩) (decodeCommand_encode_chGetFrame ch)).trans (exec_chGetFrame_begins hi hp)
  have hsteps : stepsToDrain ch (frameBegun ch { s with moves := List.replicate k .fg ++ rest }) = k := by
    rw [stepsToDrain, chn_frameBegun, rb_frameBegun, Nat.zero_add]
    exact hk.symm
  obtain ⟨t, hrun, hmoves, h⟩ := run_draining k (everyStepKeepsTheInvariant s _ hinv hstep)
    (draining_frameBegun (hinv.setMoves _) hi hterm) hsteps (moves_frameBegun ..)
  exact ⟨t, (core_run_succ k hstep).trans hrun, hmoves, h.fg, h.queue, h.pending, h.frameLen, h.frameByte, h.status, h.result⟩

end Sys2Proof.Machine
